-- ==== Sys2Proof/Word.lean ====
section
/-! DEFINITION. The word types of the RLE4 codec block (spec/00_scope.md R10): a register is 32 bits, a byte 8,
a pixel value 4. Indices, lengths and host addresses are natural numbers (R11: exact arithmetic). -/

namespace Sys2Proof

/-- A register value (spec/00_scope.md R10): 32 bits, unsigned. -/
abbrev Word := BitVec 32

/-- A byte (spec/00_scope.md R10): 8 bits, 7 the most significant. -/
abbrev Byte := BitVec 8

/-- A pixel value, an integer in [0,15] (spec/00_scope.md R15). -/
abbrev Nibble := BitVec 4

end Sys2Proof
end

