-- ==== Sys2Proof/Syntax.lean ====
section
/-! DEFINITION. The instructions: one constructor per row of spec/opcode_table.json. The nine commands and the illegal
word are what a host writes to CMD (spec/30_encoding.md R100 to R102); the records and items are what the two decoders
read from their stream "the way a processor reads instructions" (spec/00_scope.md R2, spec/30_encoding.md R110 to R124). -/

namespace Sys2Proof

/-- The 19 rows of spec/opcode_table.json. A command has no operands of its own: all come from `snap`
(spec/30_encoding.md R103). -/
inductive Instr where
  /-- NOP, word 0x00000000 (spec/44_control.md R270). -/
  | nop
  /-- GETPIX, word 0x00000001 (spec/40_pixel_access.md R150). -/
  | getpix
  /-- HASREP, word 0x00000002 (spec/40_pixel_access.md R151). -/
  | hasrep
  /-- SCAN, word 0x00000003 (spec/40_pixel_access.md R152). -/
  | scan
  /-- ENC_ROW, word 0x00000004 (spec/41_row_encoder.md R175). -/
  | encRow
  /-- DEC_ROW, word 0x00000005 (spec/42_row_decoder.md R202). -/
  | decRow
  /-- EMIT_EOB, word 0x00000006 (spec/41_row_encoder.md R180). -/
  | emitEob
  /-- BRLE_ENC, word 0x00000007 (spec/43_byte_rle.md R244). -/
  | brleEnc
  /-- BRLE_DEC, word 0x00000008 (spec/43_byte_rle.md R248). -/
  | brleDec
  /-- Any other command word (spec/30_encoding.md R102). -/
  | illegal (word : Word)
  /-- Run record `(count, value)`, count 1 to 255 (spec/30_encoding.md R111). -/
  | run (count value : Byte)
  /-- End-of-line marker `(0,0)` (spec/30_encoding.md R114). -/
  | eol
  /-- End-of-bitmap marker `(0,1)`, the meaning of `00 01` once a row's pixels are complete (spec/30_encoding.md R115, R116). -/
  | eob
  /-- Literal record of length 1, the meaning of `00 01` inside a row: data byte and pad (spec/30_encoding.md R112, R116). -/
  | lit1 (data pad : Byte)
  /-- Literal record of length 2 to 255: packed data bytes, then a pad byte when their number is odd (spec/30_encoding.md R112). -/
  | lit (length : Byte) (data : List Byte) (pad : Option Byte)
  /-- Plain byte 0x00 to 0x7F, `0xxxxxxx` (spec/30_encoding.md R120). -/
  | rawLo (x : BitVec 7)
  /-- Plain byte 0x80 to 0xBF, `10xxxxxx` (spec/30_encoding.md R120). -/
  | rawHi (x : BitVec 6)
  /-- Control pair `11nnnnnn dddddddd` (spec/30_encoding.md R120, R121). -/
  | ctrl (n : BitVec 6) (d : Byte)
  /-- Escape pair `0xC1, 11dddddd` (spec/30_encoding.md R122). -/
  | esc (d : BitVec 6)
  deriving DecidableEq, Repr

end Sys2Proof
end

