-- ==== Sys2Proof/WellFormed.lean ====
section
/-! DEFINITION. Which terms of `Instr` stand for words of their own row of spec/opcode_table.json. -/

namespace Sys2Proof

/-- spec/30_encoding.md R100: a word is a legal command exactly when `word[31:4] = 0` and `word[3:0] <= 8`. -/
def legalCommand (w : Word) : Bool :=
  w.extractLsb' 4 28 == 0#28 && decide ((w.extractLsb' 0 4).toNat ≤ 8)

/-- The instruction's operands are those its row admits: the constraints of spec/30_encoding.md R102 (illegal words),
R111 (count 1 to 255), R112 (length, data and pad of a literal) and R122 (the escape pairs are ESC, not CTRL). -/
def Instr.wf : Instr → Bool
  | .nop => true
  | .getpix => true
  | .hasrep => true
  | .scan => true
  | .encRow => true
  | .decRow => true
  | .emitEob => true
  | .brleEnc => true
  | .brleDec => true
  | .illegal w => !legalCommand w
  | .run count _ => count != 0#8
  | .eol => true
  | .eob => true
  | .lit1 _ _ => true
  | .lit length data pad =>
    decide (2 ≤ length.toNat) && data.length == (length.toNat + 1) / 2 &&
      pad.isSome == (data.length % 2 == 1)
  | .rawLo _ => true
  | .rawHi _ => true
  | .ctrl n d => !(n == 1#6 && decide (0xC0 ≤ d.toNat))
  | .esc _ => true

end Sys2Proof
end

