-- ==== Sys2Proof/Decode.lean ====
section
/-! DEFINITION. The decoder, total on any bytes and rejecting by name, and after it the encoder, both from
spec/30_encoding.md. Three formats share the byte patterns and the reader's place tells them apart: a word written to CMD,
a record of an RLE4 stream, an item of a byte-RLE stream. -/

namespace Sys2Proof

/-- What is being read: a command word (spec/30_encoding.md R100); a record of an RLE4 stream, with the context of R116
(whether all W pixels of the row have been decoded); an item of a byte-RLE stream (R120). -/
inductive Format where
  | command
  | record (rowDone : Bool)
  | item
  deriving DecidableEq, Repr

/-- Why bytes are no instruction: there are too few of them. No other byte pattern is refused (spec/30_encoding.md R124). -/
inductive DecodeError where
  /-- Fewer than the four bytes of a command word. -/
  | shortCommand
  /-- Fewer than two bytes where a record must start (spec/42_row_decoder.md R210). -/
  | shortHeader
  /-- A literal header of this length whose data and pad run past the stream (spec/42_row_decoder.md R210). -/
  | shortLiteral (length : Byte)
  /-- No byte left where an item could start (spec/43_byte_rle.md R247). -/
  | endOfItems
  /-- A control byte as the final byte (spec/30_encoding.md R120, spec/43_byte_rle.md R247). -/
  | lastControl (c : Byte)
  deriving DecidableEq, Repr

/-- What decoding answers: an instruction and the bytes after it, or the reason there is none. -/
inductive Decoded where
  | ok (i : Instr) (rest : List Byte)
  | bad (e : DecodeError)
  deriving DecidableEq, Repr

/-- The operation a command word selects (spec/30_encoding.md R100 to R102). -/
def decodeCommand (w : Word) : Instr :=
  if w.extractLsb' 4 28 = 0#28 then
    match (w.extractLsb' 0 4).toNat with
    | 0 => .nop
    | 1 => .getpix
    | 2 => .hasrep
    | 3 => .scan
    | 4 => .encRow
    | 5 => .decRow
    | 6 => .emitEob
    | 7 => .brleEnc
    | 8 => .brleDec
    | _ => .illegal w
  else .illegal w

/-- Four bytes as a register value, the lowest address least significant (spec/20_memory.md R75). -/
def wordOfBytes (b0 b1 b2 b3 : Byte) : Word := b3 ++ b2 ++ b1 ++ b0

/-- A register value as four bytes in increasing address (spec/20_memory.md R75). -/
def bytesOfWord (w : Word) : List Byte :=
  [w.extractLsb' 0 8, w.extractLsb' 8 8, w.extractLsb' 16 8, w.extractLsb' 24 8]

/-- `nb = ceil(n/2)`: how many data bytes a literal of n pixels has (spec/30_encoding.md R112). -/
def literalDataBytes (n : Nat) : Nat := (n + 1) / 2

/-- The bytes of a literal after its header: `nb + (nb mod 2)` (spec/30_encoding.md R112). -/
def literalTrailerBytes (n : Nat) : Nat := literalDataBytes n + literalDataBytes n % 2

/-- The literal record whose header is `00 n`, n >= 2, its data and pad taken from the bytes after the header
(spec/30_encoding.md R112). -/
def decodeLiteral (n : Byte) (rest : List Byte) : Decoded :=
  if rest.length < literalTrailerBytes n.toNat then .bad (.shortLiteral n)
  else
    let nb := literalDataBytes n.toNat
    .ok (.lit n (rest.take nb) (if nb % 2 = 1 then rest[nb]? else none)) (rest.drop (literalTrailerBytes n.toNat))

/-- The literal record of length 1, or the end-of-bitmap marker: the two meanings of `00 01`, told apart by context
(spec/30_encoding.md R116). -/
def decodeZeroOne (rowDone : Bool) (rest : List Byte) : Decoded :=
  if rowDone then .ok .eob rest
  else match rest with
    | d :: pad :: rest' => .ok (.lit1 d pad) rest'
    | _ => .bad (.shortLiteral 1#8)

/-- The next record of an RLE4 stream (spec/30_encoding.md R110). -/
def decodeRecord (rowDone : Bool) : List Byte → Decoded
  | b0 :: b1 :: rest =>
    if b0 ≠ 0#8 then .ok (.run b0 b1) rest
    else if b1 = 0#8 then .ok .eol rest
    else if b1 = 1#8 then decodeZeroOne rowDone rest
    else decodeLiteral b1 rest
  | _ => .bad .shortHeader

/-- The control pair `(c, d)`, c >= 0xC0; with c = 0xC1 and d >= 0xC0 it is the escape pair (spec/30_encoding.md R120 to R122). -/
def decodeControl (c : Byte) : List Byte → Decoded
  | d :: rest =>
    if c = 0xC1#8 ∧ 0xC0 ≤ d.toNat then .ok (.esc (d.extractLsb' 0 6)) rest
    else .ok (.ctrl (c.extractLsb' 0 6) d) rest
  | [] => .bad (.lastControl c)

/-- The next item of a byte-RLE stream (spec/30_encoding.md R120). -/
def decodeItem : List Byte → Decoded
  | c :: rest =>
    if c.toNat < 0x80 then .ok (.rawLo (c.extractLsb' 0 7)) rest
    else if c.toNat < 0xC0 then .ok (.rawHi (c.extractLsb' 0 6)) rest
    else decodeControl c rest
  | [] => .bad .endOfItems

/-- The instruction at the head of the bytes, read in the given format. -/
def decode : Format → List Byte → Decoded
  | .command, b0 :: b1 :: b2 :: b3 :: rest => .ok (decodeCommand (wordOfBytes b0 b1 b2 b3)) rest
  | .command, _ => .bad .shortCommand
  | .record rowDone, bytes => decodeRecord rowDone bytes
  | .item, bytes => decodeItem bytes

/-! ### The encoder -/

/-- The plain byte of RAW_LO, `0xxxxxxx` (spec/30_encoding.md R120). -/
def rawLoByte (x : BitVec 7) : Byte := 0#1 ++ x

/-- The plain byte of RAW_HI, `10xxxxxx` (spec/30_encoding.md R120). -/
def rawHiByte (x : BitVec 6) : Byte := 2#2 ++ x

/-- The control byte `0xC0 + n`, `11nnnnnn` (spec/30_encoding.md R121). -/
def controlByte (n : BitVec 6) : Byte := 3#2 ++ n

/-- The data byte of ESC, `11dddddd` (spec/30_encoding.md R122). -/
def escapedByte (d : BitVec 6) : Byte := 3#2 ++ d

/-- The bytes of an instruction in stream order; a command word in its little-endian bytes (spec/30_encoding.md R101, R110
to R122). -/
def encode : Instr → List Byte
  | .nop => bytesOfWord 0x00000000#32
  | .getpix => bytesOfWord 0x00000001#32
  | .hasrep => bytesOfWord 0x00000002#32
  | .scan => bytesOfWord 0x00000003#32
  | .encRow => bytesOfWord 0x00000004#32
  | .decRow => bytesOfWord 0x00000005#32
  | .emitEob => bytesOfWord 0x00000006#32
  | .brleEnc => bytesOfWord 0x00000007#32
  | .brleDec => bytesOfWord 0x00000008#32
  | .illegal w => bytesOfWord w
  | .run count value => [count, value]
  | .eol => [0x00#8, 0x00#8]
  | .eob => [0x00#8, 0x01#8]
  | .lit1 data pad => [0x00#8, 0x01#8, data, pad]
  | .lit length data pad => 0x00#8 :: length :: (data ++ pad.toList)
  | .rawLo x => [rawLoByte x]
  | .rawHi x => [rawHiByte x]
  | .ctrl n d => [controlByte n, d]
  | .esc d => [0xC1#8, escapedByte d]

/-- The format in which an instruction's bytes are read back, with the context of spec/30_encoding.md R116: `00 01` is EOB
after the row's pixels and LIT1 before; for the other records the context makes no difference, and inside the row is taken. -/
def Instr.format : Instr → Format
  | .run _ _ => .record false
  | .eol => .record false
  | .eob => .record true
  | .lit1 _ _ => .record false
  | .lit _ _ _ => .record false
  | .rawLo _ => .item
  | .rawHi _ => .item
  | .ctrl _ _ => .item
  | .esc _ => .item
  | .nop => .command
  | .getpix => .command
  | .hasrep => .command
  | .scan => .command
  | .encRow => .command
  | .decRow => .command
  | .emitEob => .command
  | .brleEnc => .command
  | .brleDec => .command
  | .illegal _ => .command

/-! ### Words as the opcode table numbers them -/

/-- The bytes after a table word: zeros, as many as the longest record needs (a literal's 128 data bytes). -/
def tableTrailer : List Byte := List.replicate 128 0#8

/-- Which format a table word of 8 or 16 bits is read in, by its first byte (DESIGN CHOICE, log 11): the table gives RLE4
records and byte-RLE items the same widths and says nowhere, in the bits, which stream they stand in. A first byte of
0xC0 or more is read as an item, every other 16-bit word as a record, and `00 01` as EOB. -/
def tableFormat (nbits : Nat) (first : Byte) : Format :=
  if nbits = 8 then .item else if 0xC0 ≤ first.toNat then .item else .record true

/-- The bytes of a table word in stream order: the table writes a record's or an item's first byte leftmost, in the most
significant bits (spec/30_encoding.md section 2), and a command word is stored little-endian (spec/20_memory.md R75). -/
def tableBytes (nbits w : Nat) : List Byte :=
  if nbits = 32 then bytesOfWord (BitVec.ofNat 32 w)
  else if nbits = 16 then [BitVec.ofNat 8 (w / 256), BitVec.ofNat 8 w]
  else if nbits = 8 then [BitVec.ofNat 8 w]
  else []

/-- The instruction in a decoder's answer, if there is one. -/
def Decoded.instr? : Decoded → Option Instr
  | .ok i _ => some i
  | .bad _ => none

/-- The instruction the decoder reads from a word of spec/opcode_table.json: `nbits` bits, numbered as the table numbers
them, every later bit of the instruction 0. -/
def decodeTableWord (nbits w : Nat) : Option Instr :=
  if 2 ^ nbits ≤ w then none
  else match tableBytes nbits w with
    | [] => none
    | first :: rest =>
      if nbits = 32 then (decode .command (first :: rest)).instr?
      else (decode (tableFormat nbits first) (first :: rest ++ tableTrailer)).instr?

end Sys2Proof
end

