-- ==== Sys2Proof/Config.lean ====
section
/-! DEFINITION. What an implementation fixes and the spec leaves open: the build parameters (spec/00_scope.md R8) and
the free values, constants with no body of which nothing can be proved. -/

namespace Sys2Proof

/-- The two byte buffers of the block (spec/20_memory.md R70). -/
inductive Buffer where
  | inBuf
  | outBuf
  deriving DecidableEq, Repr

/-- The build parameters of spec/00_scope.md R8. They are data of State, so every statement about a state ranges over
all of them; no step changes them (spec/70_reset_and_hazards.md R323). -/
structure Params where
  /-- BASE: host address of the window. -/
  base : Nat
  /-- IN_CAP: size of IN_BUF in bytes. -/
  inCap : Nat
  /-- OUT_CAP: size of OUT_BUF in bytes. -/
  outCap : Nat
  deriving DecidableEq, Repr

/-- The legal values of spec/00_scope.md R8: BASE aligned to 0x40000, each capacity a multiple of 4 from 4 to 65536. -/
abbrev Params.Valid (p : Params) : Prop :=
  p.base % 0x40000 = 0 ∧
  p.inCap % 4 = 0 ∧ 4 ≤ p.inCap ∧ p.inCap ≤ 65536 ∧
  p.outCap % 4 = 0 ∧ 4 ≤ p.outCap ∧ p.outCap ≤ 65536

namespace Config

/-- DESIGN CHOICE (log 3): the parameters the reset state is written with, those of the spec's own test vectors
(spec/95_test_vectors.md section 0) and BASE 0. Unsafe: no statement rests on them. -/
def resetParams : Params := ⟨0, 256, 256⟩

/-- FREE VALUE (log 1): the contents of a buffer byte that nothing has written since reset, "any value", drawn once per
byte per reset (spec/70_reset_and_hazards.md R322 (a), `BUF_INIT`). Its arguments are the number of resets, the buffer
and the byte's offset. -/
opaque bufInit : Nat → Buffer → Nat → Byte

/-- FREE VALUE (log 9): a byte of OUT_BUF read while BUSY, "any value ..., drawn per read"
(spec/70_reset_and_hazards.md R331 (a)); the argument counts the draws. -/
opaque busyByte : Nat → Byte

/-- FREE VALUE (log 8): what a buffer byte holds after a host write to it while BUSY
(spec/70_reset_and_hazards.md R330); the argument counts the draws. -/
opaque collisionByte : Nat → Byte

end Config

end Sys2Proof
end

