-- ==== Sys2Proof/Machine/State.lean ====
section
/-! DEFINITION. The machine's state as plain data: every register, the buffers, the engine's hidden state
(spec/10_state.md), and the model's own fields (the schedule of the outside, the last response, the recorded faults, the
counters of the free values). -/

namespace Sys2Proof.Machine

/-- Why the machine stops for good. -/
inductive Fault where
  /-- Raised by `step` in every state that carries the recorded mark of a host write to IN_BUF or OUT_BUF while BUSY
  (spec/70_reset_and_hazards.md R330: "After the fault, the model may stop"). Safe: hardware goes on, with buffers of which
  the spec says nothing (log 8). -/
  | bufferWriteWhileBusy
  deriving DecidableEq, Repr

/-- Why an instruction is not run. -/
inductive Refusal where
  /-- Raised by an arm of `exec` for an instruction that has no meaning yet; no arm does. Safe. -/
  | notModelled (mnemonic : String)
  /-- Raised by every meaning when no command is in flight: its operands are `snap`, which then has no value
  (spec/10_state.md R53, spec/93_implementation_defined.md item 15 "refuse"). `step` never runs one there. Safe (log 12). -/
  | engineIdle
  /-- Raised by a record's meaning when the command in flight is not DEC_ROW: no record is read there. Safe (log 12). -/
  | noRecordStream
  /-- Raised by an item's meaning when the command in flight is not BRLE_DEC: no item is read there. Safe (log 12). -/
  | noItemStream
  /-- Raised by a record's or item's meaning when the decoder has already ended: it reads nothing more
  (spec/42_row_decoder.md R212). Safe (log 12). -/
  | streamEnded
  /-- Raised by EOB's meaning while fewer than W pixels are decoded: there the bytes `00 01` are LIT1
  (spec/30_encoding.md R116). Safe (log 12). -/
  | eobInsideRow
  deriving DecidableEq, Repr

/-! ### Registers -/

/-- CONFIG.PROFILE (spec/10_state.md R34, spec/43_byte_rle.md R241): 0 = COUNT, 1 = COUNT_M1. -/
inductive Profile where
  | count
  | countM1
  deriving DecidableEq, Repr

/-- CONFIG (spec/10_state.md R34); its reserved bits have no storage, they read 0. -/
structure ConfigReg where
  profile : Profile
  irqEn : Bool
  deriving DecidableEq, Repr

/-- The outcome codes of STATUS.ERR (spec/60_exceptions.md R281); codes 7 to 15 are never produced and have no name. -/
inductive ErrCode where
  | none
  | illegalOp
  | badRange
  | decTruncated
  | decRowOverrun
  | decMissingEol
  | decShortRow
  deriving DecidableEq, Repr

/-- STATUS (spec/10_state.md R36) but for BUSY, which is the engine's state; its reserved bits have no storage, they read 0. -/
structure StatusReg where
  done : Bool
  ovf : Bool
  haz : Bool
  err : ErrCode
  deriving DecidableEq, Repr

/-! ### The engine -/

/-- `snap`, the operands captured at the command start (spec/10_state.md R48). -/
structure Snap where
  op : Word
  w : Word
  x : Word
  off : Word
  len : Word
  ptr : Word
  profile : Profile
  deriving DecidableEq, Repr

/-- The engine's working state inside a command (spec/10_state.md R50, spec/42_row_decoder.md R200). -/
structure Work where
  /-- The pixel index x: pixels encoded or decoded. -/
  x : Nat
  /-- The input index: p of the row decoder, i of the byte codec. -/
  p : Nat
  /-- The literal accumulator's pixel count, n of spec/40_pixel_access.md R147. -/
  litLen : Nat
  /-- The literal accumulator's packed bytes, data of spec/40_pixel_access.md R147. -/
  lit : List Byte
  /-- The output under construction: F, or the packed row R of the row decoder. -/
  out : List Byte
  /-- The code with which a decoder has ended, e of spec/42_row_decoder.md R200. -/
  stop : Option ErrCode
  deriving DecidableEq, Repr

/-- The engine (spec/10_state.md R47): IDLE (STATUS.BUSY = 0), or BUSY (STATUS.BUSY = 1) with a command in flight, whose
working state is there once the engine has begun on it. -/
inductive Engine where
  | idle
  | busy (snap : Snap) (work : Option Work)
  deriving DecidableEq, Repr

/-! ### The host's side -/

/-- The width of a bus access (spec/20_memory.md R76, R78). -/
inductive Width where
  | b8
  | b16
  | b32
  /-- Wider than 32 bits. -/
  | wider
  deriving DecidableEq, Repr

/-- What a bus access does; the data of an 8- or 16-bit write are the low bits. -/
inductive BusOp where
  | read
  | write (data : Word)
  deriving DecidableEq, Repr

/-- One host access: an address of the host's address space (log 18), a width, a read or a write. -/
structure Access where
  addr : Nat
  width : Width
  op : BusOp
  deriving DecidableEq, Repr

/-- The model's own: what the host got back from its last access. -/
inductive Response where
  /-- No access yet. -/
  | none
  /-- A read answered, zero-extended to 32 bits. -/
  | data (v : Word)
  /-- A write taken (it may have been an ignored one). -/
  | written
  /-- A bus error (spec/20_memory.md R78); a read returned no data. -/
  | busError
  /-- The address is outside the block's window; the platform answers (spec/20_memory.md R71). -/
  | outside
  deriving DecidableEq, Repr

/-- One turn of the interleaving (spec/20_memory.md R83): a host access, a hidden step of the engine's working state
(spec/10_state.md R50), the completion step (R49), or reset (spec/70_reset_and_hazards.md R320). -/
inductive Event where
  | host (a : Access)
  | work
  | complete
  | reset
  deriving DecidableEq, Repr

/-- The model's own: the faults the spec has a model record and never clear. -/
structure FaultMarks where
  /-- A bus error happened (spec/20_memory.md R78). -/
  busError : Bool
  /-- A command's input slice held a byte not written since reset (spec/70_reset_and_hazards.md R322 (b)). -/
  unwrittenSlice : Bool
  /-- The host wrote IN_BUF or OUT_BUF while BUSY (spec/70_reset_and_hazards.md R330). -/
  busyWrite : Bool
  deriving DecidableEq, Repr

/-! ### Memory -/

/-- A buffer's contents: the bytes written since reset as (offset, byte) pairs, offsets strictly rising. An offset that is
not listed has not been written since reset (the mark of spec/70_reset_and_hazards.md R322) and holds no value of its own. -/
abbrev Memory := List Host.Cell

/-- What an unlisted offset reads as: nothing (spec/70_reset_and_hazards.md R322); who reads one takes a free value. -/
def Memory.unlisted : Option Byte := none

/-- The canonical form: offsets strictly rising and below the buffer's size. (No entry can equal what an unlisted offset reads
as, since that is no byte.) -/
def Memory.wf (size : Nat) (m : Memory) : Bool :=
  decide (m.Pairwise (fun c d => c.1 < d.1)) && m.all (fun c => decide (c.1 < size))

/-! ### The state -/

/-- The whole machine (spec/10_state.md R31, R50, spec/20_memory.md R70). The last five fields are the model's own. -/
structure State where
  params : Params
  config : ConfigReg
  cmd : Word
  status : StatusReg
  width : Word
  pixX : Word
  inOff : Word
  inLen : Word
  outPtr : Word
  outLen : Word
  consumed : Word
  result : Word
  engine : Engine
  inBuf : Memory
  outBuf : Memory
  epoch : Nat
  draws : Nat
  resp : Response
  faults : FaultMarks
  schedule : List Event
  deriving DecidableEq, Repr

/-- The state after reset with the given build parameters (spec/10_state.md R53): every register at the reset value of R31,
the engine IDLE, no buffer byte written (spec/70_reset_and_hazards.md R322). The last five fields are the model's own
(log 13). -/
def State.resetWith (p : Params) : State :=
  { params := p
    config := ⟨.count, false⟩
    cmd := 0#32
    status := ⟨false, false, false, .none⟩
    width := 0#32
    pixX := 0#32
    inOff := 0#32
    inLen := 0#32
    outPtr := 0#32
    outLen := 0#32
    consumed := 0#32
    result := 0#32
    engine := .idle
    inBuf := []
    outBuf := []
    epoch := 0
    draws := 0
    resp := .none
    faults := ⟨false, false, false⟩
    schedule := [] }

/-- The machine right after reset, with the parameters of log 3. -/
def State.reset : State := State.resetWith Config.resetParams

end Sys2Proof.Machine
end

