-- ==== Sys2Proof/Machine/Ops.lean ====
section
/-! DEFINITION. The named operations over buffers and registers, and the three things every command shares: its start
(spec/10_state.md R48), its completion step with an outcome code, which is this block's exception entry
(R49, spec/60_exceptions.md R280, R288), and the output write rule (spec/20_memory.md R80). -/

namespace Sys2Proof.Machine

/-- What a meaning answers. -/
abbrev Outcome := Host.Outcome State Fault Refusal

/-! ### Nibbles -/

/-- Bits [7:4] of a byte: the pixel of even index (spec/20_memory.md R73). -/
def highNibble (b : Byte) : Nibble := b.extractLsb' 4 4

/-- Bits [3:0] of a byte: the pixel of odd index (spec/20_memory.md R73). -/
def lowNibble (b : Byte) : Nibble := b.extractLsb' 0 4

/-- `(h << 4) | l` (spec/20_memory.md R73). -/
def packNibbles (h l : Nibble) : Byte := h ++ l

/-! ### Buffers -/

/-- The byte at an offset, if it has been written since reset. -/
def Memory.get? : Memory → Nat → Option Byte
  | [], _ => Memory.unlisted
  | c :: m, a => if c.1 = a then some c.2 else Memory.get? m a

/-- Write one byte, keeping the canonical form. -/
def Memory.set : Memory → Nat → Byte → Memory
  | [], a, b => [(a, b)]
  | c :: m, a, b =>
    if a < c.1 then (a, b) :: c :: m
    else if a = c.1 then (a, b) :: m
    else c :: Memory.set m a b

/-- Write bytes at increasing offsets (spec/20_memory.md R74). -/
def Memory.setBytes (m : Memory) (a : Nat) : List Byte → Memory
  | [] => m
  | b :: bs => Memory.setBytes (m.set a b) (a + 1) bs

/-- The contents of one of the two buffers (spec/20_memory.md R70). -/
def memory (s : State) : Buffer → Memory
  | .inBuf => s.inBuf
  | .outBuf => s.outBuf

/-- Replace the contents of one of the two buffers. -/
def setMemory (s : State) : Buffer → Memory → State
  | .inBuf, m => { s with inBuf := m }
  | .outBuf, m => { s with outBuf := m }

/-- A byte of a buffer: the last one written since reset, else the free value of this reset
(spec/70_reset_and_hazards.md R322 (a); log 1). -/
def bufferByte (s : State) (buf : Buffer) (off : Nat) : Byte :=
  (Memory.get? (memory s buf) off).getD (Config.bufInit s.epoch buf off)

/-- Write bytes into a buffer. -/
def writeBuffer (s : State) (buf : Buffer) (off : Nat) (bytes : List Byte) : State :=
  setMemory s buf ((memory s buf).setBytes off bytes)

/-! ### The engine -/

/-- STATUS.BUSY (spec/10_state.md R36, R47). -/
def busy (s : State) : Bool :=
  match s.engine with
  | .idle => false
  | .busy _ _ => true

/-- The operands a command would capture now (spec/10_state.md R48). -/
def captureSnap (op : Word) (s : State) : Snap :=
  { op := op, w := s.width, x := s.pixX, off := s.inOff, len := s.inLen, ptr := s.outPtr, profile := s.config.profile }

/-- Command start (spec/10_state.md R48): CMD stores the word, the operands are captured, BUSY is set, DONE, OVF and ERR are
cleared; HAZ stays. -/
def startCommand (op : Word) (s : State) : State :=
  { s with
    cmd := op
    engine := .busy (captureSnap op s) none
    status := ⟨false, false, s.status.haz, .none⟩ }

/-- The part of the completion step that every command shares (spec/10_state.md R49): ERR takes the code, BUSY is cleared,
DONE is set; the captured operands and the working state end with the command (R50). -/
def complete (e : ErrCode) (s : State) : State :=
  { s with engine := .idle, status := { s.status with done := true, err := e } }

/-- "Raise ERR_e" (spec/00_scope.md R12, spec/60_exceptions.md R280): stop the command's computation and complete with the
code, nothing else being written (R283). There is no saved pc, no mode and no vector (R288). -/
def raise (e : ErrCode) (s : State) : State := complete e s

/-- The acknowledge of a completion (spec/60_exceptions.md R289), the block's return: DONE is cleared, ERR and OVF stay. -/
def acknowledge (s : State) : State :=
  { s with status := { s.status with done := false } }

/-- The hazard flag (spec/10_state.md R55, spec/60_exceptions.md R292). -/
def setHazard (s : State) : State :=
  { s with status := { s.status with haz := true } }

/-! ### The output write rule -/

/-- `|F| > room`, looking no further into F than it must. -/
def exceeds (bytes : List Byte) (room : Nat) : Bool := !(bytes.drop room).isEmpty

/-- The output write rule (spec/20_memory.md R80): the bytes of F that fit in OUT_BUF from PTR on are written, OUT_LEN and
OUT_PTR count them, OVF says whether some did not fit. -/
def writeOutput (ptr : Nat) (bytes : List Byte) (s : State) : State :=
  let room := s.params.outCap - ptr
  let written := bytes.take room
  { writeBuffer s .outBuf ptr written with
    outLen := BitVec.ofNat 32 written.length
    outPtr := BitVec.ofNat 32 (ptr + written.length)
    status := { s.status with ovf := exceeds bytes room } }

/-- CONSUMED, for the commands that write it (spec/10_state.md R43). -/
def writeConsumed (n : Option Nat) (s : State) : State :=
  match n with
  | some n => { s with consumed := BitVec.ofNat 32 n }
  | none => s

/-! ### Reset -/

/-- Reset of a running machine (spec/70_reset_and_hazards.md R320, R321, R323): every register at its reset value, the engine
IDLE and its command abandoned, no buffer byte written. The parameters stay; of the model's own fields the recorded faults
("never cleared"), the schedule, the last response and the counters stay, and the resets are counted (log 13, log 21). -/
def applyReset (s : State) : State :=
  { State.resetWith s.params with
    epoch := s.epoch + 1
    draws := s.draws
    resp := s.resp
    faults := s.faults
    schedule := s.schedule }

end Sys2Proof.Machine
end

