-- ==== Sys2Proof/Machine/Flags.lean ====
section
/-! DEFINITION. The flags: STATUS and CONFIG as register words, the outcome codes' numbers, the write-one-to-clear rule and
the `irq` output (spec/10_state.md R34, R36, R51; spec/60_exceptions.md R281, R290). -/

namespace Sys2Proof.Machine

/-- The number of an outcome code (spec/60_exceptions.md R281). -/
def errNumber : ErrCode → BitVec 4
  | .none => 0#4
  | .illegalOp => 1#4
  | .badRange => 2#4
  | .decTruncated => 3#4
  | .decRowOverrun => 4#4
  | .decMissingEol => 5#4
  | .decShortRow => 6#4

/-- STATUS as a word: [0] BUSY, [1] DONE, [2] OVF, [3] HAZ, [7:4] ERR, [31:8] zero (spec/10_state.md R36). -/
def statusWord (s : State) : Word :=
  0#24 ++ errNumber s.status.err ++ BitVec.ofBool s.status.haz ++ BitVec.ofBool s.status.ovf ++
    BitVec.ofBool s.status.done ++ BitVec.ofBool (busy s)

/-- A host write to STATUS (spec/10_state.md R36): bit 1 clears DONE, bit 3 clears HAZ, no other bit changes, BUSY or not. -/
def writeStatus (v : Word) (s : State) : State :=
  { s with status :=
    { s.status with
      done := s.status.done && !v.getLsbD 1
      haz := s.status.haz && !v.getLsbD 3 } }

/-- The number of a profile (spec/43_byte_rle.md R241). -/
def profileNumber : Profile → BitVec 1
  | .count => 0#1
  | .countM1 => 1#1

/-- CONFIG as a word: [0] PROFILE, [1] IRQ_EN, [31:2] zero (spec/10_state.md R34). -/
def configWord (c : ConfigReg) : Word :=
  0#30 ++ BitVec.ofBool c.irqEn ++ profileNumber c.profile

/-- CONFIG from a written word; the reserved bits store 0 (spec/10_state.md R34, R54). -/
def configOfWord (v : Word) : ConfigReg :=
  { profile := if v.getLsbD 0 then .countM1 else .count
    irqEn := v.getLsbD 1 }

/-- The `irq` output (spec/10_state.md R51, spec/60_exceptions.md R290): `STATUS.DONE & CONFIG.IRQ_EN`, with no state of its
own. -/
def State.irq (s : State) : Bool := s.status.done && s.config.irqEn

end Sys2Proof.Machine
end

