-- ==== Sys2Proof/Machine/Operands.lean ====
section
/-! DEFINITION. Where a command's operands come from (spec/30_encoding.md R103: only from `snap`), its range checks
(spec/60_exceptions.md R283), its input slice (spec/00_scope.md R13), and the shapes the commands share: a result command,
an output command, a record, an item. -/

namespace Sys2Proof.Machine

/-- `snap.OFF + snap.LEN <= IN_CAP`, the sum exact (spec/60_exceptions.md R283). -/
def inputInRange (sn : Snap) (s : State) : Bool :=
  decide (sn.off.toNat + sn.len.toNat ≤ s.params.inCap)

/-- `snap.PTR <= OUT_CAP` (spec/60_exceptions.md R283). -/
def outputInRange (sn : Snap) (s : State) : Bool :=
  decide (sn.ptr.toNat ≤ s.params.outCap)

/-- The input slice `IN[OFF .. OFF + LEN)`: ROW of the pixel commands and the encoder, S of the row decoder, B of the byte codec
(spec/00_scope.md R13). -/
def inputSlice (sn : Snap) (s : State) : List Byte :=
  (List.range sn.len.toNat).map fun i => bufferByte s .inBuf (sn.off.toNat + i)

/-- Every byte of the input slice has been written since reset (spec/70_reset_and_hazards.md R322 (b)). -/
def sliceWritten (sn : Snap) (s : State) : Bool :=
  (List.range sn.len.toNat).all fun i => (Memory.get? s.inBuf (sn.off.toNat + i)).isSome

/-- The test of spec/70_reset_and_hazards.md R322 (b), made at the completion step after the range checks, over the whole slice:
an unwritten byte is recorded, and the command computes with the free bytes of R322's `BUF_INIT` (log 2). -/
def noteSlice (sn : Snap) (s : State) : State :=
  { s with faults := { s.faults with unwrittenSlice := s.faults.unwrittenSlice || !sliceWritten sn s } }

/-- `RB = ceil(W/2)`: the bytes of a packed row (spec/00_scope.md R15, spec/42_row_decoder.md R200). -/
def rowBytes (w : Nat) : Nat := (w + 1) / 2

/-- The working state with which a command begins: nothing read or built, and for DEC_ROW the packed row all zero
(spec/10_state.md R50, spec/41_row_encoder.md R171, spec/42_row_decoder.md R200, spec/43_byte_rle.md R243, R247). -/
def beginWork (sn : Snap) : Work :=
  { x := 0, p := 0, litLen := 0, lit := []
    out := if decodeCommand sn.op = .decRow then List.replicate (rowBytes sn.w.toNat) 0#8 else []
    stop := none }

/-- The working state of the command in flight. -/
def workOf (sn : Snap) (w : Option Work) : Work := w.getD (beginWork sn)

/-- The shape of GETPIX, HASREP and SCAN (spec/40_pixel_access.md section 2): the input range check, then RESULT from the slice,
W and X. -/
def resultCommand (value : List Byte → Nat → Nat → Word) (s : State) : Outcome :=
  match s.engine with
  | .idle => .refused .engineIdle
  | .busy sn _ =>
    if inputInRange sn s then
      .next (complete .none { noteSlice sn s with result := value (inputSlice sn s) sn.w.toNat sn.x.toNat })
    else .next (raise .badRange s)

/-- What an output command computes: its full output F, the CONSUMED it writes if it writes one, its outcome code. -/
structure Output where
  bytes : List Byte
  consumed : Option Nat
  err : ErrCode
  deriving DecidableEq, Repr

/-- The completion of an output command: the output write rule (spec/20_memory.md R80), CONSUMED, the code. -/
def finishOutput (sn : Snap) (o : Output) (s : State) : State :=
  complete o.err (writeConsumed o.consumed (writeOutput sn.ptr.toNat o.bytes s))

/-- The shape of ENC_ROW, DEC_ROW, BRLE_ENC and BRLE_DEC: both range checks, in the order of spec/60_exceptions.md R283, then
the output of the slice, computed on from the working state. -/
def outputCommand (compute : Snap → List Byte → Work → Output) (s : State) : Outcome :=
  match s.engine with
  | .idle => .refused .engineIdle
  | .busy sn w =>
    if !inputInRange sn s then .next (raise .badRange s)
    else if !outputInRange sn s then .next (raise .badRange s)
    else .next (finishOutput sn (compute sn (inputSlice sn s) (workOf sn w)) (noteSlice sn s))

/-- Put the engine's working state. -/
def setWork (sn : Snap) (w : Work) (s : State) : State := { s with engine := .busy sn (some w) }

/-- The shape of a record's meaning: a step on the row decoder's working state, which is there while DEC_ROW is in flight and
has not ended (spec/42_row_decoder.md R200, R212). -/
def withRecord (k : Snap → Work → Outcome) (s : State) : Outcome :=
  match s.engine with
  | .idle => .refused .engineIdle
  | .busy sn w =>
    if decodeCommand sn.op ≠ .decRow then .refused .noRecordStream
    else if (workOf sn w).stop.isSome then .refused .streamEnded
    else k sn (workOf sn w)

/-- The shape of an item's meaning: a step on the byte decoder's working state, which is there while BRLE_DEC is in flight and
has not ended (spec/43_byte_rle.md R247). -/
def withItem (k : Snap → Work → Outcome) (s : State) : Outcome :=
  match s.engine with
  | .idle => .refused .engineIdle
  | .busy sn w =>
    if decodeCommand sn.op ≠ .brleDec then .refused .noItemStream
    else if (workOf sn w).stop.isSome then .refused .streamEnded
    else k sn (workOf sn w)

/-- Append bytes to the output under construction and advance the input index. -/
def advance (bytes : List Byte) (len : Nat) (w : Work) : Work :=
  { w with p := w.p + len, out := w.out ++ bytes }

end Sys2Proof.Machine
end

