-- ==== Sys2Proof/Machine/Bus.lean ====
section
/-! DEFINITION. The host's accesses: the register map (spec/10_state.md), the address map, widths, alignment, bus errors
(spec/20_memory.md), and what an access does while a command is in flight (spec/10_state.md R55, spec/70_reset_and_hazards.md
R330, R331). -/

namespace Sys2Proof.Machine

/-! ### Registers -/

/-- The fourteen registers (spec/10_state.md R31). -/
inductive Reg where
  | id | inCap | outCap | config | cmd | status | width | pixX | inOff | inLen | outPtr | outLen | consumed | result
  deriving DecidableEq, Repr

/-- A register's byte offset in the window (spec/10_state.md R31). -/
def regOffset : Reg → Nat
  | .id => 0x000
  | .inCap => 0x004
  | .outCap => 0x008
  | .config => 0x00C
  | .cmd => 0x010
  | .status => 0x014
  | .width => 0x018
  | .pixX => 0x01C
  | .inOff => 0x020
  | .inLen => 0x024
  | .outPtr => 0x028
  | .outLen => 0x02C
  | .consumed => 0x030
  | .result => 0x034

/-- The register at an offset; offsets 0x038 to 0xFFC are reserved (spec/10_state.md R31, R46). -/
def regAt (off : Nat) : Option Reg :=
  match off with
  | 0x000 => some .id
  | 0x004 => some .inCap
  | 0x008 => some .outCap
  | 0x00C => some .config
  | 0x010 => some .cmd
  | 0x014 => some .status
  | 0x018 => some .width
  | 0x01C => some .pixX
  | 0x020 => some .inOff
  | 0x024 => some .inLen
  | 0x028 => some .outPtr
  | 0x02C => some .outLen
  | 0x030 => some .consumed
  | 0x034 => some .result
  | _ => none

/-- ID reads "RLE4" in ASCII, high byte first, at all times (spec/10_state.md R32). -/
def idValue : Word := 0x524C4534#32

/-- A register's value (spec/10_state.md R32 to R44); reading has no side effect (spec/20_memory.md R81). -/
def regRead (s : State) : Reg → Word
  | .id => idValue
  | .inCap => BitVec.ofNat 32 s.params.inCap
  | .outCap => BitVec.ofNat 32 s.params.outCap
  | .config => configWord s.config
  | .cmd => s.cmd
  | .status => statusWord s
  | .width => s.width
  | .pixX => s.pixX
  | .inOff => s.inOff
  | .inLen => s.inLen
  | .outPtr => s.outPtr
  | .outLen => s.outLen
  | .consumed => s.consumed
  | .result => s.result

/-- A write that is taken while IDLE, and while BUSY is ignored and sets HAZ (spec/10_state.md R54, R55). -/
def whileIdle (s taken : State) : State := if busy s then setHazard s else taken

/-- A host write to a register (spec/10_state.md R35, R36, R46, R54, R55). -/
def regWrite (s : State) (v : Word) : Reg → State
  | .id => s
  | .inCap => s
  | .outCap => s
  | .config => whileIdle s { s with config := configOfWord v }
  | .cmd => whileIdle s (startCommand v s)
  | .status => writeStatus v s
  | .width => whileIdle s { s with width := v }
  | .pixX => whileIdle s { s with pixX := v }
  | .inOff => whileIdle s { s with inOff := v }
  | .inLen => whileIdle s { s with inLen := v }
  | .outPtr => whileIdle s { s with outPtr := v }
  | .outLen => s
  | .consumed => s
  | .result => s

/-! ### Address map -/

/-- What stands at a place of the window (spec/20_memory.md R71). -/
inductive Region where
  /-- Register space, at this byte offset. -/
  | register (off : Nat)
  /-- A buffer, at this byte offset in it. -/
  | buffer (buf : Buffer) (off : Nat)
  | hole
  deriving DecidableEq, Repr

/-- The size of the block's window (spec/20_memory.md R71). -/
def windowSize : Nat := 0x40000

/-- Where IN_BUF stands in the window (spec/20_memory.md R71). -/
def inBufStart : Nat := 0x10000

/-- Where OUT_BUF stands in the window (spec/20_memory.md R71). -/
def outBufStart : Nat := 0x20000

/-- The address map, by the offset in the window (spec/20_memory.md R71). -/
def regionAt (p : Params) (off : Nat) : Region :=
  if off < 0x1000 then .register off
  else if inBufStart ≤ off ∧ off < inBufStart + p.inCap then .buffer .inBuf (off - inBufStart)
  else if outBufStart ≤ off ∧ off < outBufStart + p.outCap then .buffer .outBuf (off - outBufStart)
  else .hole

/-- The bytes of an access of a supported width, none where it is wider than 32 bits (spec/20_memory.md R76, R78). -/
def widthBytes : Width → Option Nat
  | .b8 => some 1
  | .b16 => some 2
  | .b32 => some 4
  | .wider => none

/-- The supported accesses (spec/20_memory.md R76): register space takes 32 bits at multiples of 4, everything else 8, 16 or 32
bits at multiples of the width; all others get a bus error (R78). -/
def supported (region : Region) (width : Width) (off : Nat) : Bool :=
  match widthBytes width with
  | none => false
  | some n =>
    match region with
    | .register _ => n == 4 && off % n == 0
    | .buffer _ _ => off % n == 0
    | .hole => off % n == 0

/-! ### Data -/

/-- Bytes as a little-endian value (spec/20_memory.md R75, R77). -/
def wordOfLittle (bytes : List Byte) : Word :=
  bytes.foldr (fun b acc => (acc <<< 8) ||| b.setWidth 32) 0#32

/-- `MemRead(buf, off, n)` (spec/20_memory.md R77). -/
def bufferRead (s : State) (buf : Buffer) (off n : Nat) : Word :=
  wordOfLittle ((List.range n).map fun i => bufferByte s buf (off + i))

/-- A read of n bytes of OUT_BUF while BUSY: any value for every byte, drawn per read (spec/70_reset_and_hazards.md R331 (a);
log 9). -/
def busyRead (s : State) (n : Nat) : Word :=
  wordOfLittle ((List.range n).map fun i => Config.busyByte (s.draws + i))

/-- `MemWrite(buf, off, n, v)` (spec/20_memory.md R77). -/
def bufferWrite (s : State) (buf : Buffer) (off n : Nat) (v : Word) : State :=
  writeBuffer s buf off ((bytesOfWord v).take n)

/-- A host write of n bytes to a buffer while BUSY (spec/70_reset_and_hazards.md R330): HAZ is set, the fault is recorded, and the
bytes hold free values, since whether the write lands is not defined (log 8). -/
def collide (s : State) (buf : Buffer) (off n : Nat) : State :=
  let s' := writeBuffer s buf off ((List.range n).map fun i => Config.collisionByte (s.draws + i))
  setHazard { s' with draws := s.draws + n, faults := { s.faults with busyWrite := true } }

/-! ### An access -/

/-- What a read of n bytes answers (spec/20_memory.md R72, R75, spec/10_state.md R46, spec/70_reset_and_hazards.md R331). -/
def readValue (s : State) (region : Region) (n : Nat) : Word :=
  match region with
  | .register off => match regAt off with
    | some r => regRead s r
    | none => 0#32
  | .buffer .inBuf off => bufferRead s .inBuf off n
  | .buffer .outBuf off => if busy s then busyRead s n else bufferRead s .outBuf off n
  | .hole => 0#32

/-- The free bytes a read draws: only a read of OUT_BUF while BUSY draws any (spec/70_reset_and_hazards.md R331 (a)). -/
def readDraws (s : State) (region : Region) (n : Nat) : Nat :=
  match region with
  | .register _ => 0
  | .buffer .inBuf _ => 0
  | .buffer .outBuf _ => if busy s then n else 0
  | .hole => 0

/-- What a write of n bytes does (spec/20_memory.md R72, R75, spec/10_state.md R46, R54, R55, spec/70_reset_and_hazards.md
R330). -/
def writeValue (s : State) (region : Region) (n : Nat) (v : Word) : State :=
  match region with
  | .register off => match regAt off with
    | some r => regWrite s v r
    | none => s
  | .buffer buf off => if busy s then collide s buf off n else bufferWrite s buf off n v
  | .hole => s

/-- The bus-error response (spec/20_memory.md R78, spec/60_exceptions.md R293): the block's state does not change, HAZ is not set,
the fault is recorded (log 7). -/
def busErrorResponse (s : State) : State :=
  { s with resp := .busError, faults := { s.faults with busError := true } }

/-- An access inside the window, at this offset. -/
def windowAccess (s : State) (off : Nat) (width : Width) (op : BusOp) : State :=
  let region := regionAt s.params off
  if supported region width off then
    let n := (widthBytes width).getD 0
    match op with
    | .read => { s with resp := .data (readValue s region n), draws := s.draws + readDraws s region n }
    | .write v => { writeValue s region n v with resp := .written }
  else busErrorResponse s

/-- Whether an address is in the block's window (spec/20_memory.md R71). -/
def inWindow (p : Params) (addr : Nat) : Bool := decide (p.base ≤ addr) && decide (addr < p.base + windowSize)

/-- One host access. Outside the window the block is not addressed: nothing of it changes, and the platform answers (log 10). -/
def hostAccess (a : Access) (s : State) : State :=
  if inWindow s.params a.addr then windowAccess s (a.addr - s.params.base) a.width a.op
  else { s with resp := .outside }

end Sys2Proof.Machine
end

