-- ==== Sys2Proof/Machine/ByteRle.lean ====
section
/-! DEFINITION. The generic byte-RLE codec in its two profiles (spec/43_byte_rle.md): the encoder and its hidden step, the four
items as steps on the decoder's working state, and the commands BRLE_ENC and BRLE_DEC. -/

namespace Sys2Proof.Machine

/-! ### Encoder -/

/-- `ctrl(L, P)` (spec/43_byte_rle.md R242). -/
def runControl (p : Profile) (l : Nat) : Byte :=
  match p with
  | .count => BitVec.ofNat 8 (0xC0 + l)
  | .countM1 => BitVec.ofNat 8 (0xC0 + l - 1)

/-- How many of the first `cap` bytes are v, up to the first that is not. -/
def leadCount (v : Byte) : Nat → List Byte → Nat
  | 0, _ => 0
  | _ + 1, [] => 0
  | cap + 1, b :: bs => if b = v then leadCount v cap bs + 1 else 0

/-- The run length L at a byte v, capped at 63 (spec/43_byte_rle.md R243). -/
def byteRunLength (v : Byte) (rest : List Byte) : Nat := 1 + leadCount v 62 rest

/-- What the encoder emits for a run of length L of byte v (spec/43_byte_rle.md R243, spec/30_encoding.md R122). -/
def byteRunItem (p : Profile) (l : Nat) (v : Byte) : List Byte :=
  if 2 ≤ l then [runControl p l, v]
  else if 0xC0 ≤ v.toNat then [0xC1#8, v]
  else [v]

/-- The loop of spec/43_byte_rle.md R243 over the bytes from i on. -/
def brleEncodeFrom (p : Profile) : Nat → List Byte → List Byte
  | 0, _ => []
  | _ + 1, [] => []
  | fuel + 1, v :: rest =>
    byteRunItem p (byteRunLength v rest) v ++ brleEncodeFrom p fuel (rest.drop (byteRunLength v rest - 1))

/-- `brleEncode(B, P)` (spec/43_byte_rle.md R243). -/
def brleEncode (bytes : List Byte) (p : Profile) : List Byte := brleEncodeFrom p bytes.length bytes

/-- One hidden step of the encoder (spec/10_state.md R50; log 6): one run of R243's loop. -/
def brleEncodeStep (p : Profile) (bytes : List Byte) (wk : Work) : Work :=
  match bytes.drop wk.p with
  | [] => wk
  | v :: rest => advance (byteRunItem p (byteRunLength v rest) v) (byteRunLength v rest) wk

/-- BRLE_ENC's output from a working state; CONSUMED = N (spec/43_byte_rle.md R244). -/
def brleEncodeOutput (sn : Snap) (bytes : List Byte) (wk : Work) : Output :=
  { bytes := wk.out ++ brleEncode (bytes.drop wk.p) sn.profile, consumed := some bytes.length, err := .none }

/-- BRLE_ENC (spec/43_byte_rle.md R244). -/
def execBrleEnc (s : State) : Outcome := outputCommand brleEncodeOutput s

/-! ### Decoder -/

/-- `copies(c, P)` for the control byte with count field n (spec/43_byte_rle.md R246, spec/30_encoding.md R121). -/
def copies (p : Profile) (n : BitVec 6) : Nat :=
  match p with
  | .count => n.toNat
  | .countM1 => n.toNat + 1

/-- What a control pair decodes to (spec/43_byte_rle.md R247). -/
def controlBytes (p : Profile) (n : BitVec 6) (d : Byte) : List Byte := List.replicate (copies p n) d

/-- What an escape pair decodes to: the decoder treats it as a control pair with n = 1 (spec/30_encoding.md R122,
spec/43_byte_rle.md R249 (e)). -/
def escapeBytes (p : Profile) (d : BitVec 6) : List Byte := controlBytes p 1#6 (escapedByte d)

/-- The bytes an item emits and its length, or none where the decoder's loop ends: at the end of the stream and at a trailing
control byte, which is dropped (spec/43_byte_rle.md R247). Nothing but items is read from a byte-RLE stream. -/
def itemEffect (p : Profile) : Decoded → Option (List Byte × Nat)
  | .ok (.rawLo x) _ => some ([rawLoByte x], 1)
  | .ok (.rawHi x) _ => some ([rawHiByte x], 1)
  | .ok (.ctrl n d) _ => some (controlBytes p n d, 2)
  | .ok (.esc d) _ => some (escapeBytes p d, 2)
  | .ok .nop _ | .ok .getpix _ | .ok .hasrep _ | .ok .scan _ | .ok .encRow _ | .ok .decRow _ | .ok .emitEob _
  | .ok .brleEnc _ | .ok .brleDec _ | .ok (.illegal _) _ | .ok (.run _ _) _ | .ok .eol _ | .ok .eob _
  | .ok (.lit1 _ _) _ | .ok (.lit _ _ _) _ => none
  | .bad _ => none

/-- What the byte decoder reads next (spec/30_encoding.md R120). -/
def nextItem (bytes : List Byte) (i : Nat) : Decoded := decode .item (bytes.drop i)

/-- The loop of spec/43_byte_rle.md R247 from index i on: the bytes emitted and the final index. -/
def brleDecodeFrom (p : Profile) (bytes : List Byte) : Nat → Nat → List Byte × Nat
  | 0, i => ([], i)
  | fuel + 1, i =>
    match itemEffect p (nextItem bytes i) with
    | none => ([], i)
    | some (out, len) =>
      let r := brleDecodeFrom p bytes fuel (i + len)
      (out ++ r.1, r.2)

/-- `brleDecode(B, P)` (spec/43_byte_rle.md R247); every item has at least one byte, so one turn per byte is enough. -/
def brleDecode (bytes : List Byte) (p : Profile) : List Byte × Nat := brleDecodeFrom p bytes bytes.length 0

/-- The byte decoder's loop ends; it has no code but NONE (spec/43_byte_rle.md R248). -/
def endItems (wk : Work) : Work := { wk with stop := some .none }

/-- RAW_LO (spec/30_encoding.md R120, spec/43_byte_rle.md R247). -/
def execRawLo (x : BitVec 7) (s : State) : Outcome :=
  withItem (fun sn wk => .next (setWork sn (advance [rawLoByte x] 1 wk) s)) s

/-- RAW_HI (spec/30_encoding.md R120, spec/43_byte_rle.md R247). -/
def execRawHi (x : BitVec 6) (s : State) : Outcome :=
  withItem (fun sn wk => .next (setWork sn (advance [rawHiByte x] 1 wk) s)) s

/-- CTRL (spec/30_encoding.md R121, spec/43_byte_rle.md R246, R247). -/
def execCtrl (n : BitVec 6) (d : Byte) (s : State) : Outcome :=
  withItem (fun sn wk => .next (setWork sn (advance (controlBytes sn.profile n d) 2 wk) s)) s

/-- ESC (spec/30_encoding.md R122, spec/43_byte_rle.md R246, R249 (e)). -/
def execEsc (d : BitVec 6) (s : State) : Outcome :=
  withItem (fun sn wk => .next (setWork sn (advance (escapeBytes sn.profile d) 2 wk) s)) s

/-- BRLE_DEC's output from a working state; CONSUMED is the final index, the code is NONE (spec/43_byte_rle.md R248). -/
def brleDecodeOutput (sn : Snap) (bytes : List Byte) (wk : Work) : Output :=
  if wk.stop.isSome then { bytes := wk.out, consumed := some wk.p, err := .none }
  else
    let r := brleDecodeFrom sn.profile bytes bytes.length wk.p
    { bytes := wk.out ++ r.1, consumed := some r.2, err := .none }

/-- BRLE_DEC (spec/43_byte_rle.md R248). -/
def execBrleDec (s : State) : Outcome := outputCommand brleDecodeOutput s

end Sys2Proof.Machine
end

