-- ==== Sys2Proof/Machine/Control.lean ====
section
/-! DEFINITION. The control command and the illegal word (spec/44_control.md). -/

namespace Sys2Proof.Machine

/-- NOP (spec/44_control.md R270): no range check, no effect but the completion. -/
def execNop (s : State) : Outcome :=
  match s.engine with
  | .idle => .refused .engineIdle
  | .busy _ _ => .next (complete .none s)

/-- An illegal command word (spec/44_control.md R271, spec/30_encoding.md R102): ILLEGAL_OP, decided before any range check
(spec/60_exceptions.md R287). -/
def execIllegal (s : State) : Outcome :=
  match s.engine with
  | .idle => .refused .engineIdle
  | .busy _ _ => .next (raise .illegalOp s)

end Sys2Proof.Machine
end

