-- ==== Sys2Proof/Machine/RowDec.lean ====
section
/-! DEFINITION. The 4-bit RLE row decoder (spec/42_row_decoder.md): the five records as steps on its working state, decodeRow,
and the command DEC_ROW. -/

namespace Sys2Proof.Machine

/-- `setpix(x, v)` (spec/42_row_decoder.md R203). -/
def setPixel (row : List Byte) (x : Nat) (v : Nibble) : List Byte :=
  row.modify (x / 2) fun b =>
    if x % 2 = 0 then packNibbles v (lowNibble b) else packNibbles (highNibble b) v

/-- `for k in 0 .. n-1: setpix(x + k, pixel k)` (spec/42_row_decoder.md R201). -/
def setPixels (row : List Byte) (x n : Nat) (pixel : Nat → Nibble) : List Byte :=
  (List.range n).foldl (fun r k => setPixel r (x + k) (pixel k)) row

/-- Pixel k of a run with value byte v: the nibbles alternate, the high one first (spec/42_row_decoder.md R204). -/
def runPixel (v : Byte) (k : Nat) : Nibble := if k % 2 = 0 then highNibble v else lowNibble v

/-- Pixel k of a literal: a nibble of data byte k >> 1, the high one for even k (spec/42_row_decoder.md R205). -/
def literalPixel (data : List Byte) (k : Nat) : Nibble := runPixel (data.getD (k / 2) 0#8) k

/-- The decoder ends with a code, at the record it stands at (spec/42_row_decoder.md R207, R209, R210). -/
def stopDecoder (e : ErrCode) (wk : Work) : Work := { wk with stop := some e }

/-- The decoder consumes an EOL and ends with a code (spec/42_row_decoder.md R206, R208). -/
def stopAfterEol (e : ErrCode) (wk : Work) : Work := { wk with p := wk.p + 2, stop := some e }

/-- A record of n pixels and len bytes that is neither past a complete row (R207) nor past W (R209) writes its pixels and is
consumed (spec/42_row_decoder.md R201, R204, R205, R211). -/
def pixelRecord (w n len : Nat) (pixel : Nat → Nibble) (wk : Work) : Work :=
  if wk.x = w then stopDecoder .decMissingEol wk
  else if wk.x + n > w then stopDecoder .decRowOverrun wk
  else { wk with x := wk.x + n, p := wk.p + len, out := setPixels wk.out wk.x n pixel }

/-- Run record (spec/42_row_decoder.md R204). -/
def runRecord (w : Nat) (count value : Byte) (wk : Work) : Work :=
  pixelRecord w count.toNat 2 (runPixel value) wk

/-- End-of-line marker (spec/42_row_decoder.md R206, R208). -/
def eolRecord (w : Nat) (wk : Work) : Work :=
  stopAfterEol (if wk.x = w then .none else .decShortRow) wk

/-- End-of-bitmap marker once the row is complete: it is not the row's EOL (spec/42_row_decoder.md R207). -/
def eobRecord (wk : Work) : Work := stopDecoder .decMissingEol wk

/-- Literal record of n pixels; the pad and an unused low nibble are ignored (spec/42_row_decoder.md R205). -/
def literalRecord (w n : Nat) (data : List Byte) (wk : Work) : Work :=
  pixelRecord w n (2 + literalTrailerBytes n) (literalPixel data) wk

/-- Where no whole record stands (spec/42_row_decoder.md R210): a literal whose header alone shows a complete row or an overrun is
that (R207, R211), anything else is truncated. -/
def shortRecord (w : Nat) (e : DecodeError) (wk : Work) : Work :=
  match e with
  | .shortLiteral n =>
    if wk.x = w then stopDecoder .decMissingEol wk
    else if wk.x + n.toNat > w then stopDecoder .decRowOverrun wk
    else stopDecoder .decTruncated wk
  | .shortHeader => stopDecoder .decTruncated wk
  | .shortCommand => stopDecoder .decTruncated wk
  | .endOfItems => stopDecoder .decTruncated wk
  | .lastControl _ => stopDecoder .decTruncated wk

/-- What a decoded record does to the working state; nothing else is read from an RLE4 stream. -/
def recordEffect (w : Nat) : Instr → Work → Work
  | .run count value => runRecord w count value
  | .eol => eolRecord w
  | .eob => eobRecord
  | .lit1 d _ => literalRecord w 1 [d]
  | .lit n data _ => literalRecord w n.toNat data
  | .nop | .getpix | .hasrep | .scan | .encRow | .decRow | .emitEob | .brleEnc | .brleDec | .illegal _
  | .rawLo _ | .rawHi _ | .ctrl _ _ | .esc _ => id

/-- What the row decoder reads next: a record at p, in the context of spec/30_encoding.md R116. -/
def nextRecord (w : Nat) (stream : List Byte) (wk : Work) : Decoded :=
  decode (.record (wk.x == w)) (stream.drop wk.p)

/-- One turn of the loop of spec/42_row_decoder.md R201. -/
def decodeStep (w : Nat) (stream : List Byte) (wk : Work) : Work :=
  match nextRecord w stream wk with
  | .ok i _ => recordEffect w i wk
  | .bad e => shortRecord w e wk

/-- The loop of spec/42_row_decoder.md R201, until it exits. -/
def decodeLoop (w : Nat) (stream : List Byte) : Nat → Work → Work
  | 0, wk => wk
  | fuel + 1, wk => if wk.stop.isSome then wk else decodeLoop w stream fuel (decodeStep w stream wk)

/-- The loop run to its end: every turn but the last consumes at least two bytes, so one turn per byte and one more are enough. -/
def decodeRun (w : Nat) (stream : List Byte) (wk : Work) : Work := decodeLoop w stream (stream.length + 1) wk

/-- The working state with which `decodeRow` begins (spec/42_row_decoder.md R200, R201). -/
def decodeStart (w : Nat) : Work := ⟨0, 0, 0, [], List.replicate (rowBytes w) 0#8, none⟩

/-- `decodeRow(S, W)` (spec/42_row_decoder.md R201): the row R, the code e, the offset p. -/
def decodeRow (stream : List Byte) (w : Nat) : List Byte × ErrCode × Nat :=
  let wk := decodeRun w stream (decodeStart w)
  (wk.out, wk.stop.getD .none, wk.p)

/-- RUN (spec/30_encoding.md R111, spec/42_row_decoder.md R204). -/
def execRun (count value : Byte) (s : State) : Outcome :=
  withRecord (fun sn wk => .next (setWork sn (runRecord sn.w.toNat count value wk) s)) s

/-- EOL (spec/30_encoding.md R114, spec/42_row_decoder.md R206, R208). -/
def execEol (s : State) : Outcome :=
  withRecord (fun sn wk => .next (setWork sn (eolRecord sn.w.toNat wk) s)) s

/-- EOB (spec/30_encoding.md R115, R116, spec/42_row_decoder.md R207): met with the row complete it is a missing EOL; while
pixels are missing the bytes `00 01` are LIT1, and there is no EOB. -/
def execEob (s : State) : Outcome :=
  withRecord (fun sn wk =>
    if wk.x < sn.w.toNat then .refused .eobInsideRow else .next (setWork sn (eobRecord wk) s)) s

/-- LIT1 (spec/30_encoding.md R112, R116, spec/42_row_decoder.md R205). -/
def execLit1 (data : Byte) (s : State) : Outcome :=
  withRecord (fun sn wk => .next (setWork sn (literalRecord sn.w.toNat 1 [data] wk) s)) s

/-- LIT (spec/30_encoding.md R112, spec/42_row_decoder.md R205). -/
def execLit (length : Byte) (data : List Byte) (s : State) : Outcome :=
  withRecord (fun sn wk => .next (setWork sn (literalRecord sn.w.toNat length.toNat data wk) s)) s

/-- DEC_ROW's output from a working state: the whole row, error or not, CONSUMED = p, the code e (spec/42_row_decoder.md R202). -/
def decodeOutput (sn : Snap) (stream : List Byte) (wk : Work) : Output :=
  let done := decodeRun sn.w.toNat stream wk
  { bytes := done.out, consumed := some done.p, err := done.stop.getD .none }

/-- DEC_ROW (spec/42_row_decoder.md R202). -/
def execDecRow (s : State) : Outcome := outputCommand decodeOutput s

end Sys2Proof.Machine
end

