-- ==== Sys2Proof/Machine/Pixel.lean ====
section
/-! DEFINITION. The nibble pixel accessor and the run/literal scanner (spec/40_pixel_access.md): pix, hasRep, segment, rec, and
the commands GETPIX, HASREP and SCAN. -/

namespace Sys2Proof.Machine

/-- `pix(x)` (spec/40_pixel_access.md R141), total. -/
def pix (row : List Byte) (w x : Nat) : Nibble :=
  if w ≤ x then 0#4
  else if row.length ≤ x / 2 then 0#4
  else if x % 2 = 0 then highNibble (row.getD (x / 2) 0#8)
  else lowNibble (row.getD (x / 2) 0#8)

/-- `hasRep(x)` (spec/40_pixel_access.md R143). -/
def hasRep (row : List Byte) (w x : Nat) : Bool :=
  decide (x + 1 < w) && pix row w x == pix row w (x + 1)

/-- A segment (spec/40_pixel_access.md R145). -/
inductive Segment where
  | run (count : Nat) (pixel : Nibble)
  | literal (length : Nat) (data : List Byte)
  | single (pixel : Nibble)
  deriving DecidableEq, Repr

/-- The loop of spec/40_pixel_access.md R146: count on from c while the pixel at x + c is p, below W and below 255. -/
def runCountFrom (row : List Byte) (w x : Nat) (p : Nibble) : Nat → Nat → Nat
  | 0, c => c
  | fuel + 1, c =>
    if x + c < w ∧ c < 255 ∧ pix row w (x + c) = p then runCountFrom row w x p fuel (c + 1) else c

/-- Step 1 of spec/40_pixel_access.md R146; the loop's bound of 255 is enough fuel. -/
def runCount (row : List Byte) (w x : Nat) : Nat :=
  runCountFrom row w x (pix row w x) 255 1

/-- One turn of the loop of spec/40_pixel_access.md R147 at accumulated length n: the pixels it takes and their packed byte, or
none where the loop is left. (After a final single pixel the next turn finds `y >= W` and leaves.) -/
def literalTurn (row : List Byte) (w x n : Nat) : Option (Nat × Byte) :=
  let y := x + n
  if w ≤ y then none
  else if y + 1 < w then
    if hasRep row w y || hasRep row w (y + 1) then none
    else if n + 2 > 255 then none
    else some (2, packNibbles (pix row w y) (pix row w (y + 1)))
  else some (1, packNibbles (pix row w y) 0#4)

/-- The loop of spec/40_pixel_access.md R147, going on from an accumulator (n, data). -/
def literalFrom (row : List Byte) (w x : Nat) : Nat → Nat → List Byte → Nat × List Byte
  | 0, n, data => (n, data)
  | fuel + 1, n, data =>
    match literalTurn row w x n with
    | some (d, b) => literalFrom row w x fuel (n + d) (data ++ [b])
    | none => (n, data)

/-- The segment a literal accumulator ends in (spec/40_pixel_access.md R147). -/
def literalOrSingle (row : List Byte) (w x : Nat) (acc : Nat × List Byte) : Segment :=
  if 0 < acc.1 then .literal acc.1 acc.2 else .single (pix row w x)

/-- Step 3 of the segment (spec/40_pixel_access.md R147), going on from an accumulator; at most 127 pairs and one pixel fit under
the cap, so 256 turns are enough. -/
def literalSegment (row : List Byte) (w x n : Nat) (data : List Byte) : Segment :=
  literalOrSingle row w x (literalFrom row w x 256 n data)

/-- `segment(x)`, for x < W (spec/40_pixel_access.md R145 to R147). -/
def segmentAt (row : List Byte) (w x : Nat) : Segment :=
  if 2 ≤ runCount row w x then .run (runCount row w x) (pix row w x)
  else literalSegment row w x 0 []

/-- `len(seg)` in pixels (spec/40_pixel_access.md R145). -/
def segmentLength : Segment → Nat
  | .run c _ => c
  | .literal n _ => n
  | .single _ => 1

/-- The record of a segment, as an instruction of the RLE4 stream (spec/40_pixel_access.md R148, spec/30_encoding.md R111, R112);
a literal's pad byte is 0x00. -/
def segmentRecord : Segment → Instr
  | .run c p => .run (BitVec.ofNat 8 c) (packNibbles p p)
  | .single p => .run 1#8 (packNibbles p p)
  | .literal n data =>
    if n = 1 then .lit1 (data.getD 0 0#8) 0#8
    else .lit (BitVec.ofNat 8 n) data (if data.length % 2 = 1 then some 0#8 else none)

/-- `rec(seg)`, the record's bytes (spec/40_pixel_access.md R148). -/
def recordBytes : Segment → List Byte
  | .run c p => [BitVec.ofNat 8 c, packNibbles p p]
  | .single p => [1#8, packNibbles p p]
  | .literal n data => [0#8, BitVec.ofNat 8 n] ++ data ++ (if data.length % 2 = 1 then [0#8] else [])

/-- RESULT.KIND of a segment (spec/10_state.md R44): 1 = RUN, 2 = LITERAL, 3 = SINGLE. -/
def segmentKind : Segment → BitVec 2
  | .run _ _ => 1#2
  | .literal _ _ => 2#2
  | .single _ => 3#2

/-- SCAN's RESULT for x < W: `{ RECLEN, PIXEL, 0b00, KIND, LEN }` (spec/40_pixel_access.md R152, spec/10_state.md R44). -/
def scanWord (row : List Byte) (w x : Nat) : Word :=
  BitVec.ofNat 16 (recordBytes (segmentAt row w x)).length ++ pix row w x ++ 0#2 ++ segmentKind (segmentAt row w x) ++
    BitVec.ofNat 8 (segmentLength (segmentAt row w x))

/-- GETPIX's RESULT (spec/40_pixel_access.md R150). -/
def getpixResult (row : List Byte) (w x : Nat) : Word := (pix row w x).setWidth 32

/-- HASREP's RESULT (spec/40_pixel_access.md R151). -/
def hasrepResult (row : List Byte) (w x : Nat) : Word := if hasRep row w x then 1#32 else 0#32

/-- SCAN's RESULT (spec/40_pixel_access.md R152). -/
def scanResult (row : List Byte) (w x : Nat) : Word := if w ≤ x then 0#32 else scanWord row w x

/-- GETPIX (spec/40_pixel_access.md R150). -/
def execGetpix (s : State) : Outcome := resultCommand getpixResult s

/-- HASREP (spec/40_pixel_access.md R151). -/
def execHasrep (s : State) : Outcome := resultCommand hasrepResult s

/-- SCAN (spec/40_pixel_access.md R152). -/
def execScan (s : State) : Outcome := resultCommand scanResult s

end Sys2Proof.Machine
end

