-- ==== Sys2Proof/Machine/RowEnc.lean ====
section
/-! DEFINITION. The 4-bit RLE row encoder and the end-of-bitmap marker (spec/41_row_encoder.md): encodeRow, the encoder's hidden
step, and the commands ENC_ROW and EMIT_EOB. -/

namespace Sys2Proof.Machine

/-- The End-of-line marker (spec/41_row_encoder.md R171). -/
def eolBytes : List Byte := [0x00#8, 0x00#8]

/-- The End-of-bitmap marker (spec/41_row_encoder.md R180). -/
def eobBytes : List Byte := [0x00#8, 0x01#8]

/-- The loop of spec/41_row_encoder.md R171 from pixel x on, and the marker after it; W - x turns are enough, since every segment
has at least one pixel. -/
def encodeFrom (row : List Byte) (w : Nat) : Nat → Nat → List Byte
  | 0, _ => eolBytes
  | fuel + 1, x =>
    if x < w then
      recordBytes (segmentAt row w x) ++ encodeFrom row w fuel (x + segmentLength (segmentAt row w x))
    else eolBytes

/-- `encodeRow(ROW, W)` (spec/41_row_encoder.md R171). -/
def encodeRow (row : List Byte) (w : Nat) : List Byte := encodeFrom row w w 0

/-- Append a finished segment's record (spec/41_row_encoder.md R172 to R174) and empty the literal accumulator. -/
def emitSegment (seg : Segment) (wk : Work) : Work :=
  { wk with x := wk.x + segmentLength seg, litLen := 0, lit := [], out := wk.out ++ recordBytes seg }

/-- One hidden step of the encoder (spec/10_state.md R50; log 6): a run is emitted at once, a literal is accumulated by one turn of
spec/40_pixel_access.md R147's loop and emitted when the loop is left; with the row consumed nothing is left to do. -/
def encodeStep (row : List Byte) (w : Nat) (wk : Work) : Work :=
  if w ≤ wk.x then wk
  else if wk.litLen = 0 ∧ 2 ≤ runCount row w wk.x then emitSegment (segmentAt row w wk.x) wk
  else match literalTurn row w wk.x wk.litLen with
    | some (d, b) => { wk with litLen := wk.litLen + d, lit := wk.lit ++ [b] }
    | none => emitSegment (literalOrSingle row w wk.x (wk.litLen, wk.lit)) wk

/-- What is still to be emitted from a working state: the rest of an accumulated literal, then the rest of the row. -/
def encodeRest (row : List Byte) (w : Nat) (wk : Work) : List Byte :=
  if wk.litLen = 0 ∨ w ≤ wk.x then encodeFrom row w (w - wk.x) wk.x
  else
    let seg := literalSegment row w wk.x wk.litLen wk.lit
    recordBytes seg ++ encodeFrom row w (w - wk.x) (wk.x + segmentLength seg)

/-- ENC_ROW's output from a working state; CONSUMED is not written, the code is NONE (spec/41_row_encoder.md R175). -/
def encodeOutput (sn : Snap) (row : List Byte) (wk : Work) : Output :=
  { bytes := wk.out ++ encodeRest row sn.w.toNat wk, consumed := none, err := .none }

/-- ENC_ROW (spec/41_row_encoder.md R175). -/
def execEncRow (s : State) : Outcome := outputCommand encodeOutput s

/-- EMIT_EOB (spec/41_row_encoder.md R180): reads no input, so only the output range is checked. -/
def execEmitEob (s : State) : Outcome :=
  match s.engine with
  | .idle => .refused .engineIdle
  | .busy sn _ =>
    if outputInRange sn s then .next (finishOutput sn ⟨eobBytes, none, .none⟩ s)
    else .next (raise .badRange s)

end Sys2Proof.Machine
end

