-- ==== Sys2Proof/Machine/Dispatch.lean ====
section
/-! DEFINITION. One arm per instruction: the dispatch of spec/30_encoding.md R101 for the commands, and of the records and items of
R110 and R120. -/

namespace Sys2Proof.Machine

def exec (i : Instr) (s : State) : Host.Outcome State Fault Refusal :=
  match i with
  | .nop => Sys2Proof.Machine.execNop s
  | .getpix => Sys2Proof.Machine.execGetpix s
  | .hasrep => Sys2Proof.Machine.execHasrep s
  | .scan => Sys2Proof.Machine.execScan s
  | .encRow => Sys2Proof.Machine.execEncRow s
  | .decRow => Sys2Proof.Machine.execDecRow s
  | .emitEob => Sys2Proof.Machine.execEmitEob s
  | .brleEnc => Sys2Proof.Machine.execBrleEnc s
  | .brleDec => Sys2Proof.Machine.execBrleDec s
  | .illegal _ => Sys2Proof.Machine.execIllegal s
  | .run count value => Sys2Proof.Machine.execRun count value s
  | .eol => Sys2Proof.Machine.execEol s
  | .eob => Sys2Proof.Machine.execEob s
  | .lit1 data _ => Sys2Proof.Machine.execLit1 data s
  | .lit length data _ => Sys2Proof.Machine.execLit length data s
  | .rawLo x => Sys2Proof.Machine.execRawLo x s
  | .rawHi x => Sys2Proof.Machine.execRawHi x s
  | .ctrl n d => Sys2Proof.Machine.execCtrl n d s
  | .esc d => Sys2Proof.Machine.execEsc d s

end Sys2Proof.Machine
end

