-- ==== Sys2Proof/Machine/Engine.lean ====
section
/-! DEFINITION. The engine's steps and the turns of the interleaving: the completion step (spec/10_state.md R49), the hidden steps
on the working state (R50; log 6), and one event of the schedule (spec/20_memory.md R83). Also where an instruction is placed so
that the next step fetches it (log 5). -/

namespace Sys2Proof.Machine

/-- The completion step (spec/10_state.md R49): the command word captured in `snap` is decoded and run (spec/30_encoding.md
R101). In IDLE the engine takes no step (spec/10_state.md R47). -/
def completionStep (s : State) : Outcome :=
  match s.engine with
  | .idle => .next s
  | .busy sn _ => exec (decodeCommand sn.op) s

/-- A hidden step of DEC_ROW: fetch the next record of the stream and run it; where no whole record stands the decoder ends
(spec/42_row_decoder.md R201, R210); a decoder that has ended reads nothing more (R212). -/
def recordStep (sn : Snap) (w : Option Work) (s : State) : Outcome :=
  if (workOf sn w).stop.isSome then .next s
  else match nextRecord sn.w.toNat (inputSlice sn s) (workOf sn w) with
    | .ok i _ => exec i s
    | .bad e => .next (setWork sn (shortRecord sn.w.toNat e (workOf sn w)) s)

/-- A hidden step of BRLE_DEC: fetch the next item of the stream and run it; at the end of the stream and at a trailing control
byte the loop ends (spec/43_byte_rle.md R247). -/
def itemStep (sn : Snap) (w : Option Work) (s : State) : Outcome :=
  if (workOf sn w).stop.isSome then .next s
  else match nextItem (inputSlice sn s) (workOf sn w).p with
    | .ok i _ => exec i s
    | .bad _ => .next (setWork sn (endItems (workOf sn w)) s)

/-- The hidden steps of a command in flight, by its operation: only the two encoders and the two decoders have any. -/
def commandStep (sn : Snap) (w : Option Work) (s : State) : Instr → Outcome
  | .encRow => .next (setWork sn (encodeStep (inputSlice sn s) sn.w.toNat (workOf sn w)) s)
  | .decRow => recordStep sn w s
  | .brleEnc => .next (setWork sn (brleEncodeStep sn.profile (inputSlice sn s) (workOf sn w)) s)
  | .brleDec => itemStep sn w s
  | .nop | .getpix | .hasrep | .scan | .emitEob | .illegal _
  | .run _ _ | .eol | .eob | .lit1 _ _ | .lit _ _ _ | .rawLo _ | .rawHi _ | .ctrl _ _ | .esc _ => .next s

/-- A hidden step (spec/10_state.md R50; log 6): while BUSY, and only where the range checks of spec/60_exceptions.md R283 pass,
so that no byte outside the slice is read (spec/20_memory.md R79); else nothing happens. -/
def hiddenStep (s : State) : Outcome :=
  match s.engine with
  | .idle => .next s
  | .busy sn w =>
    if inputInRange sn s && outputInRange sn s then commandStep sn w s (decodeCommand sn.op) else .next s

/-- One event of the schedule. -/
def runEvent (s : State) : Event → Outcome
  | .host a => .next (hostAccess a s)
  | .work => hiddenStep s
  | .complete => completionStep s
  | .reset => .next (applyReset s)

/-- One turn of the machine (log 4): the schedule's next event; with the schedule exhausted a command in flight completes (the weak
fairness of spec/10_state.md R49) and an IDLE engine does nothing (R47). -/
def turn (s : State) : Outcome :=
  match s.schedule with
  | [] => completionStep s
  | e :: rest => runEvent { s with schedule := rest } e

/-! ### Placing an instruction where the next step fetches it (log 5) -/

/-- Place a command: the engine is made IDLE, the word is written to CMD as the host's write would (spec/10_state.md R48), and the
completion step is the next event. -/
def placeCommand (w : Word) (s : State) : State :=
  { startCommand w { s with engine := .idle } with
    faults := { s.faults with busyWrite := false }
    schedule := .complete :: s.schedule }

/-- Place a stream: its bytes are loaded into IN_BUF from offset 0, the operand registers are set to that slice, the decoding
command is started, and a hidden step is the next event. -/
def placeStream (op width : Word) (bytes : List Byte) (s : State) : State :=
  let loaded := writeBuffer { s with engine := .idle } .inBuf 0 bytes
  let ready := { loaded with width := width, inOff := 0#32, inLen := BitVec.ofNat 32 bytes.length, outPtr := 0#32 }
  { startCommand op ready with
    faults := { s.faults with busyWrite := false }
    schedule := .work :: s.schedule }

/-- The row width that lets a record stand as the first of its row: its pixel count. EOL and EOB stand at the end of a row, so
their row has none. -/
def recordPixels : Instr → Word
  | .run c _ => c.setWidth 32
  | .lit1 _ _ => 1#32
  | .lit n _ _ => n.setWidth 32
  | .eol | .eob | .nop | .getpix | .hasrep | .scan | .encRow | .decRow | .emitEob | .brleEnc | .brleDec | .illegal _
  | .rawLo _ | .rawHi _ | .ctrl _ _ | .esc _ => 0#32

/-- Place an instruction of `nbits` table bits `w` (spec/opcode_table.json), every later bit 0: a command word in CMD, a record or
an item as the whole stream of its decoder. The bytes placed are the table word's own; the decoded instruction says only where
they go and how many zeros follow. -/
def placeWord (nbits w : Nat) (i : Instr) (s : State) : State :=
  match i.format with
  | .command => placeCommand (BitVec.ofNat 32 w) s
  | .record _ => placeStream 5#32 (recordPixels i) ((tableBytes nbits w ++ tableTrailer).take (encode i).length) s
  | .item => placeStream 8#32 s.width ((tableBytes nbits w ++ tableTrailer).take (encode i).length) s

end Sys2Proof.Machine
end

