-- ==== Sys2Proof/Machine/Step.lean ====
section
/-! DEFINITION. The step. -/

namespace Sys2Proof.Machine

/-- One step: a machine that carries the mark of a buffer write while BUSY has stopped (spec/70_reset_and_hazards.md R330);
every other takes one turn of its interleaving. -/
def step (s : State) : Host.Outcome State Fault Refusal :=
  if s.faults.busyWrite then .fault .bufferWriteWhileBusy else turn s

/-- The state with the instruction of a table word placed where `step` fetches its next instruction (log 5); a word that is no
instruction changes nothing. -/
def State.withFetchWord (s : State) (nbits w : Nat) : State :=
  match decodeTableWord nbits w with
  | some i => placeWord nbits w i s
  | none => s

end Sys2Proof.Machine
end

