-- ==== Sys2Proof/Machine/HostAsm.lean ====
section
/-! DEFINITION. The host assembly of spec/30_encoding.md R125 to R128: its lines, the bus accesses they encode to, and its macros as
lines. Machine/HostAgent.lean runs them. -/

namespace Sys2Proof.Machine

/-- The command mnemonics (spec/30_encoding.md R126). -/
inductive Mnemonic where
  | nop | getpix | hasrep | scan | encRow | decRow | emitEob | brleEnc | brleDec
  deriving DecidableEq, Repr

/-- The CMD word of a mnemonic (spec/30_encoding.md R126). -/
def mnemonicWord : Mnemonic → Word
  | .nop => 0x00000000#32
  | .getpix => 0x00000001#32
  | .hasrep => 0x00000002#32
  | .scan => 0x00000003#32
  | .encRow => 0x00000004#32
  | .decRow => 0x00000005#32
  | .emitEob => 0x00000006#32
  | .brleEnc => 0x00000007#32
  | .brleDec => 0x00000008#32

/-! ### Values -/

/-- A name the host gives a value, or a label; names are numbered. -/
abbrev HostName := Nat

/-- The host's arithmetic on values it has read (spec/30_encoding.md R125), on natural numbers (log 16). -/
inductive HostExpr where
  | lit (n : Nat)
  | name (x : HostName)
  | add (a b : HostExpr)
  /-- Stops at 0. -/
  | sub (a b : HostExpr)
  | mul (a b : HostExpr)
  /-- `v[hi:lo]`. -/
  | bits (v : HostExpr) (hi lo : Nat)
  deriving DecidableEq, Repr

/-- The conditions the host branches on (spec/30_encoding.md R125). -/
inductive HostCond where
  /-- `goto` with no `if`. -/
  | always
  | eq (a b : HostExpr)
  | ne (a b : HostExpr)
  | lt (a b : HostExpr)
  | and (c d : HostCond)
  | or (c d : HostCond)
  deriving DecidableEq, Repr

/-- The values the host's earlier lines have given names, the latest first. -/
abbrev HostEnv := List (HostName × Nat)

/-- A name's value; a name no line has given one has 0 (log 16). -/
def HostEnv.get (env : HostEnv) (x : HostName) : Nat :=
  match env with
  | [] => 0
  | (y, v) :: rest => if y = x then v else HostEnv.get rest x

/-- The value of an expression (log 16). -/
def HostExpr.eval (env : HostEnv) : HostExpr → Nat
  | .lit n => n
  | .name x => env.get x
  | .add a b => a.eval env + b.eval env
  | .sub a b => a.eval env - b.eval env
  | .mul a b => a.eval env * b.eval env
  | .bits v hi lo => v.eval env / 2 ^ lo % 2 ^ (hi + 1 - lo)

/-- Whether a branch is taken (spec/30_encoding.md R125). -/
def HostCond.holds (env : HostEnv) : HostCond → Bool
  | .always => true
  | .eq a b => a.eval env == b.eval env
  | .ne a b => a.eval env != b.eval env
  | .lt a b => decide (a.eval env < b.eval env)
  | .and c d => c.holds env && d.holds env
  | .or c d => c.holds env || d.holds env

/-! ### Lines -/

/-- The lines of spec/30_encoding.md R125 and R126. A number may be a name, so operands are expressions; a read may name the value
it returns. -/
inductive HostLine where
  /-- `WR <REG>, <imm32>` -/
  | wr (r : Reg) (imm : HostExpr)
  /-- `RD <REG>`, `v <- RD <REG>` -/
  | rd (r : Reg) (into : Option HostName)
  /-- `WB IN+<off>, <b0> <b1> ...` -/
  | wb (off : HostExpr) (bytes : List HostExpr)
  /-- `WW IN+<off>, <imm32>` -/
  | ww (off imm : HostExpr)
  /-- `RB OUT+<off>` -/
  | rbOut (off : HostExpr) (into : Option HostName)
  /-- `RB IN+<off>` -/
  | rbIn (off : HostExpr) (into : Option HostName)
  /-- `<MNEMONIC>` -/
  | start (m : Mnemonic)
  /-- `CMD <imm32>` -/
  | cmd (imm : HostExpr)
  /-- `host: x <- v` -/
  | assign (x : HostName) (v : HostExpr)
  /-- `host: if <condition> goto <label>` -/
  | branch (c : HostCond) (target : HostName)
  /-- `<label>:` -/
  | label (l : HostName)
  deriving DecidableEq, Repr

/-- The 32-bit access to a register (spec/30_encoding.md R125). -/
def regAccess (p : Params) (r : Reg) (op : BusOp) : Access := ⟨p.base + regOffset r, .b32, op⟩

/-- The byte writes of `WB`, one 8-bit write per byte (spec/30_encoding.md R125). -/
def byteWrites (addr : Nat) : List Byte → List Access
  | [] => []
  | b :: bs => ⟨addr, .b8, .write (b.setWidth 32)⟩ :: byteWrites (addr + 1) bs

/-- A host value as the data of a 32-bit write. -/
def HostExpr.word (env : HostEnv) (e : HostExpr) : Word := BitVec.ofNat 32 (e.eval env)

/-- The accesses a line encodes to (spec/30_encoding.md R125, R126). -/
def lineAccesses (p : Params) (env : HostEnv) : HostLine → List Access
  | .wr r imm => [regAccess p r (.write (imm.word env))]
  | .rd r _ => [regAccess p r .read]
  | .wb off bytes => byteWrites (p.base + inBufStart + off.eval env) (bytes.map fun b => BitVec.ofNat 8 (b.eval env))
  | .ww off imm => [⟨p.base + inBufStart + off.eval env, .b32, .write (imm.word env)⟩]
  | .rbOut off _ => [⟨p.base + outBufStart + off.eval env, .b8, .read⟩]
  | .rbIn off _ => [⟨p.base + inBufStart + off.eval env, .b8, .read⟩]
  | .start m => [regAccess p .cmd (.write (mnemonicWord m))]
  | .cmd imm => [regAccess p .cmd (.write (imm.word env))]
  | .assign _ _ => []
  | .branch _ _ => []
  | .label _ => []

/-- The name a line gives the value it reads. -/
def HostLine.into : HostLine → Option HostName
  | .rd _ into => into
  | .rbOut _ into => into
  | .rbIn _ into => into
  | .wr _ _ | .wb _ _ | .ww _ _ | .start _ | .cmd _ | .assign _ _ | .branch _ _ | .label _ => none

/-! ### Macros (spec/30_encoding.md R128)

Each takes the first of the names and labels that it uses for itself. -/

/-- `WAIT`: `RD STATUS` repeated until bit 1 (DONE) reads 1. It uses the name and the label `fresh`. -/
def waitLines (fresh : HostName) : List HostLine :=
  [.label fresh, .rd .status (some fresh), .branch (.eq (.bits (.name fresh) 1 1) (.lit 0)) fresh]

/-- `ACK`. -/
def ackLines : List HostLine := [.wr .status (.lit 0x2)]

/-- `RUNCMD <MNEMONIC>`. It uses the name and the label `fresh`. -/
def runCommandLines (fresh : HostName) (m : Mnemonic) : List HostLine := .start m :: waitLines fresh ++ ackLines

/-- `SETROW off, len, w`. -/
def setRowLines (off len w : HostExpr) : List HostLine := [.wr .inOff off, .wr .inLen len, .wr .width w]

/-- The rows of `ENCODE_BITMAP`, h of them, from row r on. They use the labels from `fresh` on. -/
def encodeRowsLines (off0 stride rowlen w : HostExpr) : HostName → Nat → Nat → List HostLine
  | _, _, 0 => []
  | fresh, r, h + 1 =>
    setRowLines (.add off0 (.mul (.lit r) stride)) rowlen w ++ runCommandLines fresh .encRow ++
      encodeRowsLines off0 stride rowlen w (fresh + 1) (r + 1) h

/-- `ENCODE_BITMAP off0, stride, rowlen, w, h`. It uses the names and labels `fresh` to `fresh + h`. -/
def encodeBitmapLines (fresh : HostName) (off0 stride rowlen w : HostExpr) (h : Nat) : List HostLine :=
  .wr .outPtr (.lit 0) :: encodeRowsLines off0 stride rowlen w fresh 0 h ++ runCommandLines (fresh + h) .emitEob

/-- One row of `DECODE_ROWS`: IN_LEN takes the bytes left up to `streamEnd`, the command runs, and IN_OFF takes IN_OFF + CONSUMED, two
reads then a write. It uses the names `off` and `off + 1` and the label `fresh`. -/
def decodeRowLines (off : HostName) (fresh : HostName) (streamEnd w : HostExpr) : List HostLine :=
  [.wr .inLen (.sub streamEnd (.name off)), .wr .width w] ++ runCommandLines fresh .decRow ++
    [.rd .inOff (some off), .rd .consumed (some (off + 1)), .assign off (.add (.name off) (.name (off + 1))),
      .wr .inOff (.name off)]

/-- The rows of `DECODE_ROWS`, h of them. -/
def decodeRowsFrom (off : HostName) (streamEnd w : HostExpr) : HostName → Nat → List HostLine
  | _, 0 => []
  | fresh, h + 1 => decodeRowLines off fresh streamEnd w ++ decodeRowsFrom off streamEnd w (fresh + 1) h

/-- The check at the end of `DECODE_ROWS`: the next two stream bytes are `00 01` (EOB). The name `off + 4` then holds 1, else 0. It
uses the names `off + 2` to `off + 4` and the label `off`. -/
def eobCheckLines (off : HostName) : List HostLine :=
  [.rbIn (.name off) (some (off + 2)), .rbIn (.add (.name off) (.lit 1)) (some (off + 3)), .assign (off + 4) (.lit 1),
    .branch (.and (.eq (.name (off + 2)) (.lit 0)) (.eq (.name (off + 3)) (.lit 1))) off, .assign (off + 4) (.lit 0), .label off]

/-- `DECODE_ROWS off0, w, h, dst`. `streamEnd` is the offset where the stream the host has loaded ends, from which it knows the bytes
left (log 16). It uses the names and labels `fresh` to `fresh + 5 + h`; the name `fresh + 4` ends as 1 where the EOB stands, else 0. -/
def decodeRowsLines (fresh : HostName) (off0 w : HostExpr) (h : Nat) (dst streamEnd : HostExpr) : List HostLine :=
  [.wr .outPtr dst, .wr .inOff off0, .assign fresh off0] ++ decodeRowsFrom fresh streamEnd w (fresh + 5) h ++
    eobCheckLines fresh

end Sys2Proof.Machine
end

