-- ==== Sys2Proof/Safety.lean ====
section
/-! DEFINITION. The terms claims use: the invariant of the machine, what a safe run is, and the effects that several commands
share, each said through what can be read. -/

namespace Sys2Proof.Machine

/-! ### The invariant -/

/-- The working state of a command in flight (spec/10_state.md R50) stays inside the row and the slice; the literal accumulator
is empty or holds the bytes of its pixels, an odd number only at the row's end (spec/40_pixel_access.md R147, R149 (b)), and only
the encoder uses it; a row decoder's row keeps its length (spec/42_row_decoder.md R200), and it ends with no code but those of
spec/60_exceptions.md R282. -/
def Work.Ok (sn : Snap) (wk : Work) : Prop :=
  wk.x ≤ sn.w.toNat ∧
  wk.p ≤ sn.len.toNat ∧
  wk.x + wk.litLen ≤ sn.w.toNat ∧
  wk.litLen ≤ 255 ∧
  (wk.litLen % 2 = 1 → wk.x + wk.litLen = sn.w.toNat) ∧
  wk.lit.length = literalDataBytes wk.litLen ∧
  (decodeCommand sn.op ≠ .encRow → wk.litLen = 0) ∧
  (decodeCommand sn.op = .decRow → wk.out.length = rowBytes sn.w.toNat) ∧
  wk.stop ≠ some .illegalOp ∧ wk.stop ≠ some .badRange

/-- While BUSY the captured operands are the registers' values (spec/10_state.md R48), DONE, OVF and ERR are clear (R48), and the
working state is in order. -/
def EngineOk (s : State) : Prop :=
  match s.engine with
  | .idle => True
  | .busy sn w =>
    sn = captureSnap s.cmd s ∧ s.status.done = false ∧ s.status.ovf = false ∧ s.status.err = .none ∧
      Work.Ok sn (workOf sn w)

/-- The result registers stay in their bounds (spec/10_state.md R44, R45): OUT_LEN at most OUT_CAP, CONSUMED at most IN_CAP,
RESULT[31:16] at most 130, RESULT[11:10] zero. -/
def ResultsOk (s : State) : Prop :=
  s.outLen.toNat ≤ s.params.outCap ∧
  s.consumed.toNat ≤ s.params.inCap ∧
  (s.result.extractLsb' 16 16).toNat ≤ 130 ∧
  s.result.extractLsb' 10 2 = 0#2

/-- The invariant of the machine: legal parameters (spec/00_scope.md R8), buffers in canonical form and inside their sizes, the
engine's operands and working state in order, result registers in their bounds, no OVF beside ILLEGAL_OP or BAD_RANGE
(spec/60_exceptions.md R287). -/
def State.Inv (s : State) : Prop :=
  s.params.Valid ∧
  Memory.wf s.params.inCap s.inBuf = true ∧
  Memory.wf s.params.outCap s.outBuf = true ∧
  EngineOk s ∧
  ResultsOk s ∧
  (s.status.ovf = true → s.status.err ≠ .illegalOp ∧ s.status.err ≠ .badRange)

/-- A run is safe while it has recorded none of the faults of spec/93_implementation_defined.md items 5, 8 and 9. -/
def State.Safe (s : State) : Prop :=
  s.faults.busError = false ∧ s.faults.unwrittenSlice = false ∧ s.faults.busyWrite = false

/-- The instructions that are commands, and so run in a completion step; the others are read from a stream. -/
def isCommand (i : Instr) : Bool := i.format == .command

/-! ### Effects, said through what can be read -/

/-- The output write rule (spec/20_memory.md R80) for a full output F at PTR: with `room = OUT_CAP - PTR` and
`k = min(|F|, room)`, OUT_LEN is k, OUT_PTR is PTR + k, OVF is `|F| > room`, the bytes [PTR, PTR + k) of OUT_BUF are the
first k of F, and every other byte of OUT_BUF is as before. -/
def WritesOutput (ptr : Nat) (bytes : List Byte) (s t : State) : Prop :=
  let room := s.params.outCap - ptr
  let k := min bytes.length room
  t.outLen.toNat = k ∧
  t.outPtr.toNat = ptr + k ∧
  (t.status.ovf = true ↔ room < bytes.length) ∧
  (∀ i, i < k → Memory.get? t.outBuf (ptr + i) = bytes[i]?) ∧
  (∀ a, ¬(ptr ≤ a ∧ a < ptr + k) → Memory.get? t.outBuf a = Memory.get? s.outBuf a)

/-- The completion (spec/10_state.md R49): the engine is IDLE, DONE is set, ERR is the code; HAZ is as before. -/
def Completes (e : ErrCode) (s t : State) : Prop :=
  t.engine = .idle ∧ t.status.done = true ∧ t.status.err = e ∧ t.status.haz = s.status.haz

/-- What no command writes: the parameters, CONFIG, CMD, the operand registers WIDTH, PIX_X, IN_OFF and IN_LEN
(spec/10_state.md R31), all of IN_BUF (spec/20_memory.md R79), and of the model's own fields the counters, the last response,
the schedule and the marks of host faults. -/
def KeepsInputs (s t : State) : Prop :=
  t.params = s.params ∧ t.config = s.config ∧ t.cmd = s.cmd ∧ t.width = s.width ∧ t.pixX = s.pixX ∧
  t.inOff = s.inOff ∧ t.inLen = s.inLen ∧ t.inBuf = s.inBuf ∧ t.epoch = s.epoch ∧ t.draws = s.draws ∧
  t.resp = s.resp ∧ t.schedule = s.schedule ∧ t.faults.busError = s.faults.busError ∧
  t.faults.busyWrite = s.faults.busyWrite

/-- What a command that produces no output leaves: OUT_BUF, OUT_PTR, OUT_LEN and OVF. -/
def KeepsOutput (s t : State) : Prop :=
  t.outBuf = s.outBuf ∧ t.outPtr = s.outPtr ∧ t.outLen = s.outLen ∧ t.status.ovf = s.status.ovf

/-- The mark of spec/70_reset_and_hazards.md R322 (b): set when the slice holds a byte not written since reset, else kept. -/
def MarksSlice (sn : Snap) (s t : State) : Prop :=
  t.faults.unwrittenSlice = (s.faults.unwrittenSlice || !sliceWritten sn s)

/-- Pixel x of the command's row, read from IN_BUF: 0 at or past W and past the slice, else a nibble of byte x >> 1, the high one
for even x (spec/40_pixel_access.md R141). -/
def slicePixel (sn : Snap) (s : State) (x : Nat) : Nibble :=
  if sn.w.toNat ≤ x then 0#4
  else if sn.len.toNat ≤ x / 2 then 0#4
  else if x % 2 = 0 then highNibble (bufferByte s .inBuf (sn.off.toNat + x / 2))
  else lowNibble (bufferByte s .inBuf (sn.off.toNat + x / 2))

/-- Pixel j of a packed row, its pad nibble included (spec/20_memory.md R73). -/
def rowPixel (row : List Byte) (j : Nat) : Nibble :=
  if j % 2 = 0 then highNibble (row.getD (j / 2) 0#8) else lowNibble (row.getD (j / 2) 0#8)

/-- The commands that read the input slice (spec/60_exceptions.md R283, `reads_in`). -/
def readsIn : Instr → Bool
  | .getpix | .hasrep | .scan | .encRow | .decRow | .brleEnc | .brleDec => true
  | .nop | .emitEob | .illegal _ | .run _ _ | .eol | .eob | .lit1 _ _ | .lit _ _ _ | .rawLo _ | .rawHi _ | .ctrl _ _
  | .esc _ => false

/-- The commands that write output (spec/60_exceptions.md R283, `writes_out`). -/
def writesOut : Instr → Bool
  | .encRow | .decRow | .emitEob | .brleEnc | .brleDec => true
  | .nop | .getpix | .hasrep | .scan | .illegal _ | .run _ _ | .eol | .eob | .lit1 _ _ | .lit _ _ _ | .rawLo _
  | .rawHi _ | .ctrl _ _ | .esc _ => false

/-- One of the command's range checks fails (spec/60_exceptions.md R283). -/
def rangeFails (i : Instr) (sn : Snap) (s : State) : Prop :=
  (readsIn i = true ∧ s.params.inCap < sn.off.toNat + sn.len.toNat) ∨
  (writesOut i = true ∧ s.params.outCap < sn.ptr.toNat)

/-- The end of a command whose range checks fail (spec/60_exceptions.md R283): it completes with BAD_RANGE, touches no buffer and
writes no register except STATUS. -/
def EndsBadRange (i : Instr) (s : State) : Prop :=
  exec i s = .next { s with engine := .idle, status := { s.status with done := true, err := .badRange } }

/-- DEC_ROW is in flight with this working state, and has not ended. -/
def DecodingRow (sn : Snap) (wk : Work) (s : State) : Prop :=
  ∃ w, s.engine = .busy sn w ∧ workOf sn w = wk ∧ decodeCommand sn.op = .decRow ∧ wk.stop = none

/-- BRLE_DEC is in flight with this working state, and has not ended. -/
def DecodingItems (sn : Snap) (wk : Work) (s : State) : Prop :=
  ∃ w, s.engine = .busy sn w ∧ workOf sn w = wk ∧ decodeCommand sn.op = .brleDec ∧ wk.stop = none

/-- A pixel record's effect on the row decoder (spec/42_row_decoder.md R204, R205): n pixels from x on take their values, every
other pixel and the pad nibble stay, x advances by n and p by len; the accumulator stays and the decoder has not ended. -/
def WritesPixels (n len : Nat) (pixel : Nat → Nibble) (wk wk' : Work) : Prop :=
  wk'.x = wk.x + n ∧ wk'.p = wk.p + len ∧ wk'.stop = none ∧ wk'.litLen = wk.litLen ∧ wk'.lit = wk.lit ∧
  wk'.out.length = wk.out.length ∧
  (∀ k, k < n → rowPixel wk'.out (wk.x + k) = pixel k) ∧
  (∀ j, ¬(wk.x ≤ j ∧ j < wk.x + n) → rowPixel wk'.out j = rowPixel wk.out j)

/-! ### Codec terms -/

/-- The first `n` bytes of a row, zero-extended (spec/42_row_decoder.md R213). -/
def rowResized (n : Nat) (row : List Byte) : List Byte :=
  (row ++ List.replicate n 0#8).take n

/-- R' of spec/42_row_decoder.md R213: the first RB bytes of the row, zero-extended, the pad nibble cleared when W is odd. -/
def normalRow (row : List Byte) (w : Nat) : List Byte :=
  if w % 2 = 1 then
    (rowResized (rowBytes w) row).modify (rowBytes w - 1) (fun b => packNibbles (highNibble b) 0#4)
  else rowResized (rowBytes w) row

/-- Some segment of the run partition of spec/43_byte_rle.md R243 has length 1 and value >= 0xC0 (R250). -/
def hasLoneControl : Nat → List Byte → Bool
  | 0, _ => false
  | _ + 1, [] => false
  | fuel + 1, v :: rest =>
    (byteRunLength v rest == 1 && decide (0xC0 ≤ v.toNat)) ||
      hasLoneControl fuel (rest.drop (byteRunLength v rest - 1))

/-- The positions of the host's walk of spec/41_row_encoder.md R176: PIX_X at 0, then advanced by RESULT.LEN, until RESULT.LEN is
0. -/
def scanPositions (row : List Byte) (w : Nat) : Nat → Nat → List Nat
  | 0, _ => []
  | fuel + 1, x =>
    let r := scanResult row w x
    if r.extractLsb' 0 8 = 0#8 then []
    else x :: scanPositions row w fuel (x + (r.extractLsb' 0 8).toNat)

/-- The host's walk of spec/41_row_encoder.md R176: the sum of RESULT.RECLEN over SCANs at x, x + RESULT.LEN, ..., until
RESULT.LEN is 0. -/
def scanWalk (row : List Byte) (w : Nat) : Nat → Nat → Nat
  | 0, _ => 0
  | fuel + 1, x =>
    let r := scanResult row w x
    if r.extractLsb' 0 8 = 0#8 then 0
    else (r.extractLsb' 16 16).toNat + scanWalk row w fuel (x + (r.extractLsb' 0 8).toNat)

end Sys2Proof.Machine
end

