-- ==== Sys2Proof/Certificates/Slice0/Obligations.lean ====
section
/-! DEFINITION. The statements for the provers, each from the numbered rules of spec/. -/

open Sys2Proof Sys2Proof.Machine

/-! ### Encoding -/

/-- spec/30_encoding.md R101, R110, R112, R116, R120 to R122: words written out from the tables decode to the instructions they
stand for. -/
def Obligations.ListedWordsDecode : Prop :=
  decodeCommand 0x00000000#32 = .nop ∧ decodeCommand 0x00000001#32 = .getpix ∧
  decodeCommand 0x00000002#32 = .hasrep ∧ decodeCommand 0x00000003#32 = .scan ∧
  decodeCommand 0x00000004#32 = .encRow ∧ decodeCommand 0x00000005#32 = .decRow ∧
  decodeCommand 0x00000006#32 = .emitEob ∧ decodeCommand 0x00000007#32 = .brleEnc ∧
  decodeCommand 0x00000008#32 = .brleDec ∧ decodeCommand 0x00000014#32 = .illegal 0x00000014#32 ∧
  decode (.record false) [0x04#8, 0x55#8] = .ok (.run 0x04#8 0x55#8) [] ∧
  decode (.record true) [0x00#8, 0x00#8] = .ok .eol [] ∧
  decode (.record true) [0x00#8, 0x01#8] = .ok .eob [] ∧
  decode (.record false) [0x00#8, 0x01#8, 0x70#8, 0x00#8] = .ok (.lit1 0x70#8 0x00#8) [] ∧
  decode (.record false) [0x00#8, 0x05#8, 0x12#8, 0x34#8, 0x50#8, 0x00#8] =
    .ok (.lit 0x05#8 [0x12#8, 0x34#8, 0x50#8] (some 0x00#8)) [] ∧
  decode .item [0x41#8] = .ok (.rawLo 0x41#7) [] ∧
  decode .item [0xBF#8] = .ok (.rawHi 0x3F#6) [] ∧
  decode .item [0xC3#8, 0x41#8] = .ok (.ctrl 0x03#6 0x41#8) [] ∧
  decode .item [0xC1#8, 0xC0#8] = .ok (.esc 0x00#6) []

/-- spec/30_encoding.md R102: a word with `word[31:4] != 0`, or with `word[3:0]` in 0x9 to 0xF, and no other, is illegal. -/
def Obligations.IllegalWordsAreTheReservedOnes : Prop :=
  ∀ w : Word, decodeCommand w = .illegal w ↔ (w.extractLsb' 4 28 ≠ 0#28 ∨ 9 ≤ (w.extractLsb' 0 4).toNat)

/-- Decode after encode: no bit of any well-formed instruction's encoding is dropped. -/
def Obligations.DecodeOfEncode : Prop :=
  ∀ (i : Instr) (rest : List Byte), i.wf = true → decode i.format (encode i ++ rest) = .ok i rest

/-- Encode after decode: what the decoder accepts is well-formed, and its encoding is exactly the bytes consumed. -/
def Obligations.EncodeOfDecode : Prop :=
  ∀ (f : Format) (bytes : List Byte) (i : Instr) (rest : List Byte),
    decode f bytes = .ok i rest → i.wf = true ∧ encode i ++ rest = bytes

/-! ### A step runs the decoded instruction -/

/-- spec/10_state.md R49, spec/30_encoding.md R101: with a command in flight, a turn for the completion step runs the
instruction that the captured word decodes to; so does a turn with the schedule exhausted (the model's choice, log 4). -/
def Obligations.StepRunsTheCommandInFlight : Prop :=
  ∀ (s : State) (sn : Snap) (w : Option Work), s.faults.busyWrite = false → s.engine = .busy sn w →
    (∀ rest, s.schedule = .complete :: rest →
      step s = exec (decodeCommand sn.op) { s with schedule := rest }) ∧
    (s.schedule = [] → step s = exec (decodeCommand sn.op) s)

/-- spec/00_scope.md R2: a turn for a hidden step of a decoder runs the record or item decoded from the stream at the input index
(hidden steps are the model's choice, log 6). -/
def Obligations.StepRunsTheRecordOrItem : Prop :=
  ∀ (s : State) (sn : Snap) (wk : Work) (events : List Event) (i : Instr) (rest : List Byte),
    s.faults.busyWrite = false → s.schedule = .work :: events →
    sn.off.toNat + sn.len.toNat ≤ s.params.inCap → sn.ptr.toNat ≤ s.params.outCap →
    (DecodingRow sn wk s →
      decode (.record (wk.x == sn.w.toNat)) ((inputSlice sn s).drop wk.p) = .ok i rest →
      step s = exec i { s with schedule := events }) ∧
    (DecodingItems sn wk s →
      decode .item ((inputSlice sn s).drop wk.p) = .ok i rest →
      step s = exec i { s with schedule := events })

/-! ### Commands -/

/-- spec/44_control.md R270: the word 0x00000000 is NOP; it completes with ERR 0, no range check made; every register except STATUS
(CMD was written at the start) and every buffer is unchanged, OVF stays; `irq` rises when IRQ_EN is 1; without a hazard STATUS
reads 0x00000002. -/
def Obligations.NopCompletes : Prop :=
  ∀ (s : State) (sn : Snap) (w : Option Work), s.engine = .busy sn w →
    decodeCommand 0x00000000#32 = .nop ∧
    ∃ t, exec .nop s = .next t ∧
      t = { s with engine := .idle, status := { s.status with done := true, err := .none } } ∧
      State.irq t = s.config.irqEn ∧
      (s.status.ovf = false → s.status.haz = false → statusWord t = 0x00000002#32)

/-- spec/44_control.md R271: an illegal word written to CMD while IDLE is stored and starts a command like any other; its completion
step sets ERR = 1 (ILLEGAL_OP), clears BUSY, sets DONE, and changes nothing else; without a hazard STATUS then reads 0x00000012, as
for the words 0x00000009 and 0x00000014. -/
def Obligations.IllegalWordCompletes : Prop :=
  (∀ (s : State) (sn : Snap) (w : Option Work) (word : Word), s.engine = .busy sn w →
    ∃ t, exec (.illegal word) s = .next t ∧
      t = { s with engine := .idle, status := { s.status with done := true, err := .illegalOp } } ∧
      (s.status.ovf = false → s.status.haz = false → statusWord t = 0x00000012#32)) ∧
  (∀ (s : State) (word : Word), s.engine = .idle → decodeCommand word = .illegal word →
    busy (hostAccess (regAccess s.params .cmd (.write word)) s) = true ∧
    (hostAccess (regAccess s.params .cmd (.write word)) s).cmd = word ∧
    completionStep (hostAccess (regAccess s.params .cmd (.write word)) s) =
      exec (.illegal word) (hostAccess (regAccess s.params .cmd (.write word)) s)) ∧
  decodeCommand 0x00000009#32 = .illegal 0x00000009#32 ∧ decodeCommand 0x00000014#32 = .illegal 0x00000014#32

/-- spec/40_pixel_access.md R150: GETPIX (word 0x00000001) writes the pixel, zero-extended, into RESULT, and leaves everything else
but STATUS; a slice out of range is BAD_RANGE. Marking a slice that holds bytes not written since reset, and computing with its free
bytes, is the model's choice (spec/70_reset_and_hazards.md R322, log 2). -/
def Obligations.GetpixCompletes : Prop :=
  ∀ (s : State) (sn : Snap) (w : Option Work), s.engine = .busy sn w →
    decodeCommand 0x00000001#32 = .getpix ∧
    (s.params.inCap < sn.off.toNat + sn.len.toNat → EndsBadRange .getpix s) ∧
    (sn.off.toNat + sn.len.toNat ≤ s.params.inCap →
      ∃ t, exec .getpix s = .next t ∧ t.result = (slicePixel sn s sn.x.toNat).setWidth 32 ∧
        Completes .none s t ∧ KeepsInputs s t ∧ KeepsOutput s t ∧ t.consumed = s.consumed ∧ MarksSlice sn s t)

/-- spec/40_pixel_access.md R151: HASREP (word 0x00000002) writes 1 when `x + 1 < W` (exact) and pixels x and x + 1 are equal, else
0, and leaves everything else but STATUS; a slice out of range is BAD_RANGE. Marking a slice that holds bytes not written since
reset, and computing with its free bytes, is the model's choice (spec/70_reset_and_hazards.md R322, log 2). -/
def Obligations.HasrepCompletes : Prop :=
  ∀ (s : State) (sn : Snap) (w : Option Work), s.engine = .busy sn w →
    decodeCommand 0x00000002#32 = .hasrep ∧
    (s.params.inCap < sn.off.toNat + sn.len.toNat → EndsBadRange .hasrep s) ∧
    (sn.off.toNat + sn.len.toNat ≤ s.params.inCap →
      ∃ t, exec .hasrep s = .next t ∧
        t.result = (if sn.x.toNat + 1 < sn.w.toNat ∧ slicePixel sn s sn.x.toNat = slicePixel sn s (sn.x.toNat + 1)
          then 1#32 else 0#32) ∧
        Completes .none s t ∧ KeepsInputs s t ∧ KeepsOutput s t ∧ t.consumed = s.consumed ∧ MarksSlice sn s t)

/-- spec/40_pixel_access.md R152, spec/10_state.md R44: SCAN (word 0x00000003) writes 0 for `x >= W`, else RECLEN, PIXEL, 00,
KIND and LEN of `segment(x)` in their places, and leaves everything else but STATUS; a slice out of range is BAD_RANGE. Marking
a slice that holds bytes not written since reset, and computing with its free bytes, is the model's choice
(spec/70_reset_and_hazards.md R322, log 2). -/
def Obligations.ScanCompletes : Prop :=
  ∀ (s : State) (sn : Snap) (w : Option Work), s.engine = .busy sn w →
    decodeCommand 0x00000003#32 = .scan ∧
    (s.params.inCap < sn.off.toNat + sn.len.toNat → EndsBadRange .scan s) ∧
    (sn.off.toNat + sn.len.toNat ≤ s.params.inCap →
      ∃ t, exec .scan s = .next t ∧
        (sn.w.toNat ≤ sn.x.toNat → t.result = 0#32) ∧
        (sn.x.toNat < sn.w.toNat →
          (t.result.extractLsb' 16 16).toNat =
            (recordBytes (segmentAt (inputSlice sn s) sn.w.toNat sn.x.toNat)).length ∧
          t.result.extractLsb' 12 4 = slicePixel sn s sn.x.toNat ∧
          t.result.extractLsb' 10 2 = 0#2 ∧
          t.result.extractLsb' 8 2 = segmentKind (segmentAt (inputSlice sn s) sn.w.toNat sn.x.toNat) ∧
          (t.result.extractLsb' 0 8).toNat = segmentLength (segmentAt (inputSlice sn s) sn.w.toNat sn.x.toNat)) ∧
        Completes .none s t ∧ KeepsInputs s t ∧ KeepsOutput s t ∧ t.consumed = s.consumed ∧ MarksSlice sn s t)

/-- spec/41_row_encoder.md R175: ENC_ROW (word 0x00000004) writes encodeRow of its slice by the output write rule, and leaves
CONSUMED, RESULT and the inputs; a slice or a pointer out of range is BAD_RANGE. (From a working state begun by hidden steps:
HiddenStepKeepsTheCompletion.) Marking a slice that holds bytes not written since reset, and computing with its free bytes, is
the model's choice (spec/70_reset_and_hazards.md R322, log 2). -/
def Obligations.EncRowCompletes : Prop :=
  ∀ (s : State) (sn : Snap), s.params.Valid → s.engine = .busy sn none → decodeCommand sn.op = .encRow →
    decodeCommand 0x00000004#32 = .encRow ∧
    (rangeFails .encRow sn s → EndsBadRange .encRow s) ∧
    (¬rangeFails .encRow sn s →
      ∃ t, exec .encRow s = .next t ∧
        WritesOutput sn.ptr.toNat (encodeRow (inputSlice sn s) sn.w.toNat) s t ∧
        Completes .none s t ∧ KeepsInputs s t ∧ t.consumed = s.consumed ∧ t.result = s.result ∧ MarksSlice sn s t)

/-- spec/42_row_decoder.md R202: DEC_ROW (word 0x00000005) writes the whole row of decodeRow, error or not, by the output write
rule, CONSUMED the record offset where it stopped, ERR its code, and leaves RESULT and the inputs; a slice or a pointer out of
range is BAD_RANGE. (From a working state begun by hidden steps: HiddenStepKeepsTheCompletion.) Marking a slice that holds bytes
not written since reset, and computing with its free bytes, is the model's choice (spec/70_reset_and_hazards.md R322, log 2). -/
def Obligations.DecRowCompletes : Prop :=
  ∀ (s : State) (sn : Snap), s.params.Valid → s.engine = .busy sn none → decodeCommand sn.op = .decRow →
    decodeCommand 0x00000005#32 = .decRow ∧
    (rangeFails .decRow sn s → EndsBadRange .decRow s) ∧
    (¬rangeFails .decRow sn s →
      ∃ t, exec .decRow s = .next t ∧
        WritesOutput sn.ptr.toNat (decodeRow (inputSlice sn s) sn.w.toNat).1 s t ∧
        Completes (decodeRow (inputSlice sn s) sn.w.toNat).2.1 s t ∧
        t.consumed.toNat = (decodeRow (inputSlice sn s) sn.w.toNat).2.2 ∧
        KeepsInputs s t ∧ t.result = s.result ∧ MarksSlice sn s t)

/-- spec/41_row_encoder.md R180: EMIT_EOB (word 0x00000006) writes `00 01` by the output write rule, whatever IN_OFF and IN_LEN are;
with one byte of room only `00`, with none nothing, and OVF set; it leaves CONSUMED, RESULT and the inputs; a pointer out of range
is BAD_RANGE. -/
def Obligations.EmitEobCompletes : Prop :=
  ∀ (s : State) (sn : Snap) (w : Option Work), s.params.Valid → s.engine = .busy sn w →
    decodeCommand 0x00000006#32 = .emitEob ∧
    (s.params.outCap < sn.ptr.toNat → EndsBadRange .emitEob s) ∧
    (sn.ptr.toNat ≤ s.params.outCap →
      ∃ t, exec .emitEob s = .next t ∧ WritesOutput sn.ptr.toNat [0x00#8, 0x01#8] s t ∧
        Completes .none s t ∧ KeepsInputs s t ∧ t.consumed = s.consumed ∧ t.result = s.result ∧ t.faults = s.faults)

/-- spec/43_byte_rle.md R244: BRLE_ENC (word 0x00000007) writes brleEncode of its slice in the captured profile by the output
write rule, CONSUMED the slice's length, and leaves RESULT and the inputs; a slice or a pointer out of range is BAD_RANGE. (From
a working state begun by hidden steps: HiddenStepKeepsTheCompletion.) Marking a slice that holds bytes not written since reset,
and computing with its free bytes, is the model's choice (spec/70_reset_and_hazards.md R322, log 2). -/
def Obligations.BrleEncCompletes : Prop :=
  ∀ (s : State) (sn : Snap), s.params.Valid → s.engine = .busy sn none → decodeCommand sn.op = .brleEnc →
    decodeCommand 0x00000007#32 = .brleEnc ∧
    (rangeFails .brleEnc sn s → EndsBadRange .brleEnc s) ∧
    (¬rangeFails .brleEnc sn s →
      ∃ t, exec .brleEnc s = .next t ∧
        WritesOutput sn.ptr.toNat (brleEncode (inputSlice sn s) sn.profile) s t ∧
        Completes .none s t ∧ t.consumed = sn.len ∧ KeepsInputs s t ∧ t.result = s.result ∧ MarksSlice sn s t)

/-- spec/43_byte_rle.md R248: BRLE_DEC (word 0x00000008) writes brleDecode of its slice in the captured profile by the output
write rule, CONSUMED the final index, and leaves RESULT and the inputs; a slice or a pointer out of range is BAD_RANGE. (From a
working state begun by hidden steps: HiddenStepKeepsTheCompletion.) Marking a slice that holds bytes not written since reset,
and computing with its free bytes, is the model's choice (spec/70_reset_and_hazards.md R322, log 2). -/
def Obligations.BrleDecCompletes : Prop :=
  ∀ (s : State) (sn : Snap), s.params.Valid → s.engine = .busy sn none → decodeCommand sn.op = .brleDec →
    decodeCommand 0x00000008#32 = .brleDec ∧
    (rangeFails .brleDec sn s → EndsBadRange .brleDec s) ∧
    (¬rangeFails .brleDec sn s →
      ∃ t, exec .brleDec s = .next t ∧
        WritesOutput sn.ptr.toNat (brleDecode (inputSlice sn s) sn.profile).1 s t ∧
        Completes .none s t ∧ t.consumed.toNat = (brleDecode (inputSlice sn s) sn.profile).2 ∧
        KeepsInputs s t ∧ t.result = s.result ∧ MarksSlice sn s t)

/-- spec/60_exceptions.md R283: a command whose range checks fail completes with BAD_RANGE, touches no buffer and writes no register
except STATUS; a command whose checks pass does not complete with BAD_RANGE. (The working state's own code is that of the
invariant.) -/
def Obligations.BadRangeExactlyOnFailedChecks : Prop :=
  ∀ (i : Instr) (s : State) (sn : Snap) (w : Option Work), isCommand i = true → (∀ word, i ≠ .illegal word) →
    s.engine = .busy sn w → Work.Ok sn (workOf sn w) →
    (rangeFails i sn s → EndsBadRange i s) ∧
    (¬rangeFails i sn s → ∃ t, exec i s = .next t ∧ t.status.err ≠ .badRange)

/-- spec/44_control.md R274, spec/60_exceptions.md R280: every command in flight, legal or not, on any operands, completes in its
completion step. -/
def Obligations.EveryCommandCompletes : Prop :=
  ∀ (i : Instr) (s : State) (sn : Snap) (w : Option Work), isCommand i = true → s.engine = .busy sn w →
    ∃ t, exec i s = .next t ∧ t.engine = .idle ∧ t.status.done = true

/-- spec/60_exceptions.md R282: the codes each command can end with; DEC_ROW any but ILLEGAL_OP. -/
def Obligations.CodesPerCommand : Prop :=
  ∀ (i : Instr) (s t : State) (sn : Snap) (w : Option Work), isCommand i = true →
    s.engine = .busy sn w → Work.Ok sn (workOf sn w) → exec i s = .next t →
    (i = .nop → t.status.err = .none) ∧
    (i = .getpix ∨ i = .hasrep ∨ i = .scan ∨ i = .encRow ∨ i = .emitEob ∨ i = .brleEnc ∨ i = .brleDec →
      t.status.err = .none ∨ t.status.err = .badRange) ∧
    (i = .decRow → t.status.err ≠ .illegalOp) ∧
    (∀ word, i = .illegal word → t.status.err = .illegalOp)

/-- spec/10_state.md R31 ("written by engine: never"), spec/20_memory.md R79: no instruction writes CONFIG, CMD, WIDTH, PIX_X,
IN_OFF, IN_LEN or any byte of IN_BUF. -/
def Obligations.NoInstructionWritesItsInputs : Prop :=
  ∀ (i : Instr) (s t : State), exec i s = .next t → KeepsInputs s t

/-! ### Records -/

/-- spec/42_row_decoder.md R204: a run record that fits writes its pixels, high nibble at even k, low nibble at odd k, advances x by
c and p by 2, and changes nothing else. -/
def Obligations.RunRecordWritesPixels : Prop :=
  ∀ (s : State) (sn : Snap) (wk : Work) (c v : Byte), DecodingRow sn wk s →
    wk.out.length = rowBytes sn.w.toNat → c ≠ 0#8 → wk.x < sn.w.toNat → wk.x + c.toNat ≤ sn.w.toNat →
    ∃ wk', exec (.run c v) s = .next { s with engine := .busy sn (some wk') } ∧
      WritesPixels c.toNat 2 (fun k => if k % 2 = 0 then highNibble v else lowNibble v) wk wk'

/-- spec/42_row_decoder.md R205: a literal record of n pixels that fits, the one-pixel literal included, writes pixel k from data
byte k >> 1, high nibble first, whatever the pad and an unused nibble hold, advances x by n and p by `2 + nb + (nb mod 2)`, and
changes nothing else; inside a row the bytes `00 01 d pad` are the one-pixel literal, not EOB. -/
def Obligations.LiteralRecordWritesPixels : Prop :=
  (∀ (s : State) (sn : Snap) (wk : Work), DecodingRow sn wk s → wk.out.length = rowBytes sn.w.toNat →
    wk.x < sn.w.toNat →
    (∀ d pad : Byte,
      ∃ wk', exec (.lit1 d pad) s = .next { s with engine := .busy sn (some wk') } ∧
        WritesPixels 1 4 (fun _ => highNibble d) wk wk') ∧
    (∀ (n : Byte) (data : List Byte) (pad : Option Byte), (Instr.lit n data pad).wf = true →
      wk.x + n.toNat ≤ sn.w.toNat →
      ∃ wk', exec (.lit n data pad) s = .next { s with engine := .busy sn (some wk') } ∧
        WritesPixels n.toNat (2 + (n.toNat + 1) / 2 + (n.toNat + 1) / 2 % 2) (rowPixel data) wk wk')) ∧
  (∀ (d pad : Byte) (rest : List Byte),
    decode (.record false) (0x00#8 :: 0x01#8 :: d :: pad :: rest) = .ok (.lit1 d pad) rest)

/-- spec/42_row_decoder.md R206, R208: EOL is consumed and ends the decoder, with NONE when the row is complete and with
DEC_SHORT_ROW otherwise; nothing else changes. -/
def Obligations.EolRecordEndsTheRow : Prop :=
  ∀ (s : State) (sn : Snap) (wk : Work), DecodingRow sn wk s →
    exec .eol s = .next { s with engine := .busy sn (some { wk with
      p := wk.p + 2, stop := some (if wk.x = sn.w.toNat then .none else .decShortRow) }) }

/-- spec/42_row_decoder.md R207, spec/30_encoding.md R116: EOB at a complete row ends the decoder with DEC_MISSING_EOL, nothing
being consumed or written. -/
def Obligations.EobRecordIsAMissingEol : Prop :=
  ∀ (s : State) (sn : Snap) (wk : Work), DecodingRow sn wk s → wk.x = sn.w.toNat →
    exec .eob s = .next { s with engine := .busy sn (some { wk with stop := some .decMissingEol }) }

/-- spec/42_row_decoder.md R207, R209: a run or literal at a complete row ends the decoder with DEC_MISSING_EOL, and one that would
carry x past W with DEC_ROW_OVERRUN; in both cases nothing is written and nothing consumed. -/
def Obligations.PixelRecordTraps : Prop :=
  ∀ (s : State) (sn : Snap) (wk : Work) (i : Instr) (n : Nat), DecodingRow sn wk s →
    ((∃ c v, i = .run c v ∧ n = c.toNat) ∨ (∃ d pad, i = .lit1 d pad ∧ n = 1) ∨
      (∃ l data pad, i = .lit l data pad ∧ n = l.toNat)) →
    (wk.x = sn.w.toNat →
      exec i s = .next { s with engine := .busy sn (some { wk with stop := some .decMissingEol }) }) ∧
    (wk.x ≠ sn.w.toNat → sn.w.toNat < wk.x + n →
      exec i s = .next { s with engine := .busy sn (some { wk with stop := some .decRowOverrun }) })

/-- spec/42_row_decoder.md R206 to R211: from the bytes that stand at the record offset, when the decoder ends, with which code, and
what it consumes; in every such case no pixel is written. N is the stream's length. -/
def Obligations.DecoderEndsByTheBytes : Prop :=
  ∀ (w : Nat) (stream : List Byte) (wk : Work), wk.x ≤ w →
    (stream.length < wk.p + 2 → decodeStep w stream wk = { wk with stop := some .decTruncated }) ∧
    (∀ (b0 b1 : Byte) (rest : List Byte), stream.drop wk.p = b0 :: b1 :: rest →
      (wk.x = w → b0 = 0#8 → b1 = 0#8 →
        decodeStep w stream wk = { wk with p := wk.p + 2, stop := some .none }) ∧
      (wk.x = w → ¬(b0 = 0#8 ∧ b1 = 0#8) →
        decodeStep w stream wk = { wk with stop := some .decMissingEol }) ∧
      (wk.x < w → b0 = 0#8 → b1 = 0#8 →
        decodeStep w stream wk = { wk with p := wk.p + 2, stop := some .decShortRow }) ∧
      (wk.x < w → b0 ≠ 0#8 → w < wk.x + b0.toNat →
        decodeStep w stream wk = { wk with stop := some .decRowOverrun }) ∧
      (wk.x < w → b0 = 0#8 → b1 ≠ 0#8 → w < wk.x + b1.toNat →
        decodeStep w stream wk = { wk with stop := some .decRowOverrun }) ∧
      (wk.x < w → b0 = 0#8 → b1 ≠ 0#8 → wk.x + b1.toNat ≤ w →
        stream.length < wk.p + (2 + (b1.toNat + 1) / 2 + (b1.toNat + 1) / 2 % 2) →
        decodeStep w stream wk = { wk with stop := some .decTruncated })) ∧
    decodeRow [] w = (List.replicate ((w + 1) / 2) 0#8, .decTruncated, 0)

/-! ### Items -/

/-- spec/30_encoding.md R120, spec/43_byte_rle.md R247: a plain byte stands for itself and is one byte long. -/
def Obligations.PlainItemsStandForThemselves : Prop :=
  ∀ (s : State) (sn : Snap) (wk : Work), DecodingItems sn wk s →
    (∀ x : BitVec 7, exec (.rawLo x) s = .next { s with engine := .busy sn (some { wk with
      p := wk.p + 1, out := wk.out ++ [BitVec.ofNat 8 x.toNat] }) }) ∧
    (∀ x : BitVec 6, exec (.rawHi x) s = .next { s with engine := .busy sn (some { wk with
      p := wk.p + 1, out := wk.out ++ [BitVec.ofNat 8 (0x80 + x.toNat)] }) })

/-- spec/43_byte_rle.md R246, R247, spec/30_encoding.md R122: a control pair emits its data byte n times under COUNT and n + 1 times
under COUNT_M1, n from 0 to 63; an escape pair is one with n = 1; both are two bytes long. -/
def Obligations.ControlItemsRepeatTheirByte : Prop :=
  ∀ (s : State) (sn : Snap) (wk : Work), DecodingItems sn wk s →
    (∀ (n : BitVec 6) (d : Byte), exec (.ctrl n d) s = .next { s with engine := .busy sn (some { wk with
      p := wk.p + 2
      out := wk.out ++ List.replicate (if sn.profile = .count then n.toNat else n.toNat + 1) d }) }) ∧
    (∀ d : BitVec 6, exec (.esc d) s = .next { s with engine := .busy sn (some { wk with
      p := wk.p + 2
      out := wk.out ++ List.replicate (if sn.profile = .count then 1 else 2) (BitVec.ofNat 8 (0xC0 + d.toNat)) }) })

/-! ### The codecs -/

/-- spec/42_row_decoder.md R213: the row decoder gives back what the row encoder read: for any row, R' with NONE, all consumed; for
a packed row of RB bytes with a clear pad nibble, the row itself. -/
def Obligations.RowRoundTrip : Prop :=
  ∀ (row : List Byte) (w : Nat),
    decodeRow (encodeRow row w) w = (normalRow row w, .none, (encodeRow row w).length) ∧
    (row.length = rowBytes w → (w % 2 = 1 → lowNibble (row.getD (rowBytes w - 1) 0#8) = 0#4) →
      normalRow row w = row)

/-- spec/43_byte_rle.md R250, first point: under COUNT the round trip holds for every byte sequence. -/
def Obligations.ByteRoundTripUnderCount : Prop :=
  ∀ bytes : List Byte,
    brleDecode (brleEncode bytes .count) .count = (bytes, (brleEncode bytes .count).length)

/-- spec/43_byte_rle.md R250, second point: under COUNT_M1 the round trip holds exactly when no segment of the run partition has
length 1 and value >= 0xC0. -/
def Obligations.ByteRoundTripUnderCountM1 : Prop :=
  ∀ bytes : List Byte,
    brleDecode (brleEncode bytes .countM1) .countM1 = (bytes, (brleEncode bytes .countM1).length) ↔
      hasLoneControl bytes.length bytes = false

/-- spec/41_row_encoder.md R177: the encoder's output is even, at least 4 bytes for W >= 1, at most `2W + 4`, and W = 1 reaches the
bound. -/
def Obligations.EncodedRowSize : Prop :=
  ∀ (row : List Byte) (w : Nat),
    (encodeRow row w).length % 2 = 0 ∧ (1 ≤ w → 4 ≤ (encodeRow row w).length) ∧
      (encodeRow row w).length ≤ 2 * w + 4 ∧ (encodeRow row 1).length = 2 * 1 + 4

/-- spec/41_row_encoder.md R178: a row of W identical pixels: `floor(W/255)` runs of 255, then a run of `W mod 255` when that is
>= 2, or a literal of length 1 when it is 1, then EOL; so for 2 <= W <= 255 exactly one run, and for W = 1 a literal. -/
def Obligations.UniformRows : Prop :=
  ∀ (row : List Byte) (w : Nat) (p : Nibble), 1 ≤ w → (∀ x, x < w → pix row w x = p) →
    encodeRow row w =
      (List.replicate (w / 255) [0xFF#8, packNibbles p p]).flatten ++
      (if w % 255 = 0 then [] else if w % 255 = 1 then [0x00#8, 0x01#8, packNibbles p 0#4, 0x00#8]
        else [BitVec.ofNat 8 (w % 255), packNibbles p p]) ++ [0x00#8, 0x00#8]

/-- spec/41_row_encoder.md R179: when no two adjacent pixels below W are equal, hasRep is false everywhere, every segment is a
literal, of length 254 mid-row or at most 255 at the row end, and the output is the records of literals, which are the segments of
the walk through the row, and EOL. -/
def Obligations.NonRepeatingRows : Prop :=
  ∀ (row : List Byte) (w : Nat), (∀ x, x + 1 < w → pix row w x ≠ pix row w (x + 1)) →
    (∀ x, hasRep row w x = false) ∧
    (∀ x, x < w → ∃ n data, segmentAt row w x = .literal n data ∧ (n = 254 ∨ (x + n = w ∧ n ≤ 255))) ∧
    (∀ g ∈ (scanPositions row w (w + 1) 0).map (segmentAt row w),
      ∃ n data, g = .literal n data ∧ 1 ≤ n ∧ n ≤ 255 ∧ data.length = (n + 1) / 2) ∧
    encodeRow row w =
      ((scanPositions row w (w + 1) 0).map (segmentAt row w)).flatMap recordBytes ++ [0x00#8, 0x00#8]

/-- spec/40_pixel_access.md R146, R147, R149: progress and bounds; a segment is a run exactly where the pixel repeats, of equal
pixels, and no longer run is there; a literal has the parity, the data bytes and no repetition inside, and ends only at W, at
the cap, or where a repetition is ahead; SINGLE holds its pixel; where SINGLE and a literal of length 1 occur. -/
def Obligations.SegmentFacts : Prop :=
  ∀ (row : List Byte) (w x : Nat), x < w →
    (1 ≤ segmentLength (segmentAt row w x) ∧ segmentLength (segmentAt row w x) ≤ 255 ∧
      x + segmentLength (segmentAt row w x) ≤ w) ∧
    ((∃ c p, segmentAt row w x = .run c p) ↔ hasRep row w x = true) ∧
    (∀ c p, segmentAt row w x = .run c p →
      2 ≤ c ∧ p = pix row w x ∧ (∀ k, k < c → pix row w (x + k) = p) ∧
      (c = 255 ∨ x + c = w ∨ pix row w (x + c) ≠ p)) ∧
    (∀ n data, segmentAt row w x = .literal n data →
      (n % 2 = 1 → x + n = w) ∧ (x + n < w → n ≤ 254) ∧ n ≤ 255 ∧
      data.length = (n + 1) / 2 ∧ (∀ k, k < n → rowPixel data k = pix row w (x + k)) ∧
      (n % 2 = 1 → rowPixel data n = 0#4) ∧
      (∀ k, k < n → hasRep row w (x + k) = false) ∧
      (x + n = w ∨ n = 254 ∨ hasRep row w (x + n) = true ∨ hasRep row w (x + n + 1) = true)) ∧
    (∀ p, segmentAt row w x = .single p → p = pix row w x) ∧
    ((∃ p, segmentAt row w x = .single p) ↔
      (x + 2 < w ∧ pix row w x ≠ pix row w (x + 1) ∧ pix row w (x + 1) = pix row w (x + 2))) ∧
    ((∃ data, segmentAt row w x = .literal 1 data) ↔ x + 1 = w)

/-- spec/41_row_encoder.md R176: the host's walk by RESULT.LEN visits exactly the segments whose records ENC_ROW emits, in order,
and its sum of RESULT.RECLEN, plus 2, is the length of ENC_ROW's output. -/
def Obligations.ScanWalkMeetsTheEncoder : Prop :=
  ∀ (row : List Byte) (w : Nat),
    (scanPositions row w (w + 1) 0).flatMap (fun x => recordBytes (segmentAt row w x)) ++ [0x00#8, 0x00#8] =
      encodeRow row w ∧
    scanWalk row w (w + 1) 0 + 2 = (encodeRow row w).length

/-- spec/43_byte_rle.md R243, R247: the encoder takes the longest run of a byte, at most 63, and writes a control pair, an
escape pair or the plain byte for it; the decoder reads a plain byte, a control pair, or drops a trailing control byte; with the
bounds of R245 (f) and R249 (f), and the final index of R248: N, or N - 1 where a control byte comes last. -/
def Obligations.ByteCodecSizes : Prop :=
  ∀ p : Profile,
    (∀ bytes : List Byte,
      (brleEncode bytes p).length ≤ 2 * bytes.length ∧
      (brleDecode bytes p).1.length ≤ 64 * (bytes.length / 2) + bytes.length % 2 ∧
      ((brleDecode bytes p).2 = bytes.length ∨
        ((brleDecode bytes p).2 + 1 = bytes.length ∧ ∃ c, bytes.getLast? = some c ∧ 0xC0 ≤ c.toNat))) ∧
    brleEncode [] p = [] ∧ brleDecode [] p = ([], 0) ∧
    (∀ (l : Nat) (v : Byte) (rest : List Byte), 1 ≤ l → l ≤ 63 → (l = 63 ∨ rest.head? ≠ some v) →
      brleEncode (List.replicate l v ++ rest) p =
        (if 2 ≤ l then [BitVec.ofNat 8 (if p = .count then 0xC0 + l else 0xC0 + l - 1), v]
          else if 0xC0 ≤ v.toNat then [0xC1#8, v] else [v]) ++ brleEncode rest p) ∧
    (∀ (c : Byte) (rest : List Byte), c.toNat < 0xC0 →
      brleDecode (c :: rest) p = (c :: (brleDecode rest p).1, (brleDecode rest p).2 + 1)) ∧
    (∀ (c d : Byte) (rest : List Byte), 0xC0 ≤ c.toNat →
      brleDecode (c :: d :: rest) p =
        (List.replicate (if p = .count then c.toNat - 0xC0 else c.toNat - 0xC0 + 1) d ++ (brleDecode rest p).1,
          (brleDecode rest p).2 + 2)) ∧
    (∀ c : Byte, 0xC0 ≤ c.toNat → brleDecode [c] p = ([], 0))

/-! ### Hidden steps -/

/-- spec/10_state.md R50: a hidden step changes nothing but the working state of the command in flight: no register, no buffer, no
flag; the captured operands and BUSY stay (hidden steps are the model's choice, log 6). -/
def Obligations.HiddenStepIsInvisible : Prop :=
  ∀ s t : State, hiddenStep s = .next t →
    t = { s with engine := t.engine } ∧ busy t = busy s ∧
      (∀ sn w, s.engine = .busy sn w → ∃ w', t.engine = .busy sn w')

/-- spec/10_state.md R49, R50 ("Its only observable effect is through the completion step"): however far hidden steps have taken a
command, its completion step leaves the same state (hidden steps are the model's choice, log 6). -/
def Obligations.HiddenStepKeepsTheCompletion : Prop :=
  ∀ s t : State, s.Inv → hiddenStep s = .next t → completionStep t = completionStep s

/-! ### The machine -/

/-- Every step keeps the invariant of the machine. -/
def Obligations.StepKeepsTheInvariant : Prop :=
  ∀ s t : State, s.Inv → step s = .next t → t.Inv

/-- The state after reset has the invariant, for all legal parameters. -/
def Obligations.ResetHasTheInvariant : Prop :=
  ∀ p : Params, p.Valid → (State.resetWith p).Inv

/-- spec/44_control.md R274, spec/70_reset_and_hazards.md R321: a step that takes the machine out of BUSY is a completion step or a
reset. -/
def Obligations.BusyEndsOnlyByCompletionOrReset : Prop :=
  ∀ s t : State, busy s = true → step s = .next t → busy t = false →
    s.schedule = [] ∨ (∃ rest, s.schedule = .complete :: rest) ∨ (∃ rest, s.schedule = .reset :: rest)

/-- spec/70_reset_and_hazards.md R323, spec/10_state.md R32, R33: the parameters never change, and ID, INCAP and OUTCAP read the
same before and after every step, reset included. -/
def Obligations.ConstantsStayConstant : Prop :=
  ∀ s t : State, step s = .next t →
    t.params = s.params ∧ regRead t .id = 0x524C4534#32 ∧ regRead t .inCap = regRead s .inCap ∧
      regRead t .outCap = regRead s .outCap

/-- spec/20_memory.md R78, spec/70_reset_and_hazards.md R322 (b), R330: a recorded fault is never cleared; after a buffer write
while BUSY the model has stopped (log 8). -/
def Obligations.RecordedFaultsStay : Prop :=
  ∀ s : State,
    (∀ t, step s = .next t →
      (s.faults.busError = true → t.faults.busError = true) ∧
      (s.faults.unwrittenSlice = true → t.faults.unwrittenSlice = true)) ∧
    (s.faults.busyWrite = true → step s = .fault .bufferWriteWhileBusy)

/-! ### The host -/

/-- spec/10_state.md R48: a write to CMD while IDLE stores the word, captures the operands, sets BUSY, clears DONE, OVF and ERR,
keeps HAZ, and writes nothing else; while BUSY the captured operands equal the registers' values. -/
def Obligations.CommandStart : Prop :=
  (∀ (s : State) (word : Word), s.engine = .idle →
    hostAccess (regAccess s.params .cmd (.write word)) s =
      { s with
        cmd := word
        engine := .busy ⟨word, s.width, s.pixX, s.inOff, s.inLen, s.outPtr, s.config.profile⟩ none
        status := ⟨false, false, s.status.haz, .none⟩
        resp := .written }) ∧
  (∀ (s : State) (sn : Snap) (w : Option Work), s.Inv → s.engine = .busy sn w →
    sn = ⟨s.cmd, s.width, s.pixX, s.inOff, s.inLen, s.outPtr, s.config.profile⟩)

/-- spec/10_state.md R54: a write to an operand register while IDLE stores all 32 bits, CONFIG's reserved bits storing 0, and has no
other effect. -/
def Obligations.OperandWritesWhileIdle : Prop :=
  ∀ (s : State) (v : Word), s.engine = .idle →
    hostAccess (regAccess s.params .width (.write v)) s = { s with width := v, resp := .written } ∧
    hostAccess (regAccess s.params .pixX (.write v)) s = { s with pixX := v, resp := .written } ∧
    hostAccess (regAccess s.params .inOff (.write v)) s = { s with inOff := v, resp := .written } ∧
    hostAccess (regAccess s.params .inLen (.write v)) s = { s with inLen := v, resp := .written } ∧
    hostAccess (regAccess s.params .outPtr (.write v)) s = { s with outPtr := v, resp := .written } ∧
    (∃ c, hostAccess (regAccess s.params .config (.write v)) s = { s with config := c, resp := .written } ∧
      regRead { s with config := c } .config = v &&& 0x00000003#32)

/-- spec/10_state.md R55: a write to CONFIG, CMD, WIDTH, PIX_X, IN_OFF, IN_LEN or OUT_PTR while BUSY is ignored and sets HAZ; one to
STATUS clears DONE and HAZ by bits 1 and 3, and one to a read-only register or a reserved offset is ignored, as while IDLE; a
register read, BUSY or IDLE, returns the register's current value (R33, R34, R35, R37 to R44) and is no hazard. -/
def Obligations.RegisterAccessWhileBusy : Prop :=
  (∀ (s : State) (r : Reg), hostAccess (regAccess s.params r .read) s = { s with resp := .data (regRead s r) }) ∧
  (∀ s : State,
    regRead s .cmd = s.cmd ∧ regRead s .width = s.width ∧ regRead s .pixX = s.pixX ∧ regRead s .inOff = s.inOff ∧
    regRead s .inLen = s.inLen ∧ regRead s .outPtr = s.outPtr ∧ regRead s .outLen = s.outLen ∧
    regRead s .consumed = s.consumed ∧ regRead s .result = s.result ∧
    regRead s .inCap = BitVec.ofNat 32 s.params.inCap ∧ regRead s .outCap = BitVec.ofNat 32 s.params.outCap ∧
    (regRead s .config).getLsbD 0 = decide (s.config.profile = .countM1) ∧
    (regRead s .config).getLsbD 1 = s.config.irqEn) ∧
  (∀ (s : State) (sn : Snap) (w : Option Work) (r : Reg) (v : Word), s.engine = .busy sn w →
    (r = .config ∨ r = .cmd ∨ r = .width ∨ r = .pixX ∨ r = .inOff ∨ r = .inLen ∨ r = .outPtr →
      hostAccess (regAccess s.params r (.write v)) s =
        { s with status := { s.status with haz := true }, resp := .written }) ∧
    (r = .status →
      hostAccess (regAccess s.params r (.write v)) s =
        { s with
          status := { s.status with
            done := s.status.done && !v.getLsbD 1
            haz := s.status.haz && !v.getLsbD 3 }
          resp := .written }) ∧
    (r = .id ∨ r = .inCap ∨ r = .outCap ∨ r = .outLen ∨ r = .consumed ∨ r = .result →
      hostAccess (regAccess s.params r (.write v)) s = { s with resp := .written }) ∧
    (∀ off, 0x038 ≤ off → off ≤ 0xFFC → off % 4 = 0 →
      hostAccess ⟨s.params.base + off, .b32, .write v⟩ s = { s with resp := .written }))

/-- spec/10_state.md R36, spec/60_exceptions.md R281: STATUS reads its fields in their places, ERR by the numbers of the outcome
codes, and a write clears DONE where bit 1 is 1 and HAZ where bit 3 is 1, changing no other bit, BUSY or not. -/
def Obligations.StatusReadsAndClears : Prop :=
  ∀ (s : State) (v : Word),
    (regRead s .status).getLsbD 0 = busy s ∧ (regRead s .status).getLsbD 1 = s.status.done ∧
    (regRead s .status).getLsbD 2 = s.status.ovf ∧ (regRead s .status).getLsbD 3 = s.status.haz ∧
    (s.status.err = .none → (regRead s .status).extractLsb' 4 4 = 0#4) ∧
    (s.status.err = .illegalOp → (regRead s .status).extractLsb' 4 4 = 1#4) ∧
    (s.status.err = .badRange → (regRead s .status).extractLsb' 4 4 = 2#4) ∧
    (s.status.err = .decTruncated → (regRead s .status).extractLsb' 4 4 = 3#4) ∧
    (s.status.err = .decRowOverrun → (regRead s .status).extractLsb' 4 4 = 4#4) ∧
    (s.status.err = .decMissingEol → (regRead s .status).extractLsb' 4 4 = 5#4) ∧
    (s.status.err = .decShortRow → (regRead s .status).extractLsb' 4 4 = 6#4) ∧
    (regRead s .status).extractLsb' 8 24 = 0#24 ∧
    (∀ t, hostAccess (regAccess s.params .status (.write v)) s = t →
      t = { s with status := t.status, resp := .written } ∧
      regRead t .status = regRead s .status &&& ~~~(v &&& 0x0000000A#32))

/-- spec/10_state.md R46: writes to read-only registers and reserved offsets are ignored, reserved offsets read 0, and none of it
sets an error, HAZ or a bus error. -/
def Obligations.IgnoredWritesAndReservedReads : Prop :=
  ∀ (s : State) (v : Word),
    (∀ r, r = .id ∨ r = .inCap ∨ r = .outCap ∨ r = .outLen ∨ r = .consumed ∨ r = .result →
      hostAccess (regAccess s.params r (.write v)) s = { s with resp := .written }) ∧
    (∀ off, 0x038 ≤ off → off ≤ 0xFFC → off % 4 = 0 →
      hostAccess ⟨s.params.base + off, .b32, .write v⟩ s = { s with resp := .written } ∧
      hostAccess ⟨s.params.base + off, .b32, .read⟩ s = { s with resp := .data 0#32 }) ∧
    (regRead s .config).extractLsb' 2 30 = 0#30 ∧ (regRead s .status).extractLsb' 8 24 = 0#24

/-- spec/20_memory.md R72: an aligned access of a supported width to a hole: a read returns 0, a write is ignored, BUSY or not, with
no bus error and no side effect. -/
def Obligations.HolesReadZero : Prop :=
  ∀ (s : State) (off n : Nat) (width : Width) (v : Word), s.params.Valid →
    0x1000 ≤ off → off < 0x40000 → ¬(0x10000 ≤ off ∧ off < 0x10000 + s.params.inCap) →
    ¬(0x20000 ≤ off ∧ off < 0x20000 + s.params.outCap) → widthBytes width = some n → off % n = 0 →
    hostAccess ⟨s.params.base + off, width, .read⟩ s = { s with resp := .data 0#32 } ∧
    hostAccess ⟨s.params.base + off, width, .write v⟩ s = { s with resp := .written }

/-- spec/20_memory.md R78: a misaligned access, an 8- or 16-bit access to register space, and an access wider than 32 bits get a bus
error: no state of the block changes, HAZ is not set, a read returns no data, and the fault is recorded and never cleared. -/
def Obligations.BusErrors : Prop :=
  (∀ (s : State) (off : Nat) (width : Width) (op : BusOp), off < 0x40000 →
    (width = .wider ∨ (width = .b16 ∧ off % 2 ≠ 0) ∨ (width = .b32 ∧ off % 4 ≠ 0) ∨
      (off < 0x1000 ∧ (width = .b8 ∨ width = .b16))) →
    hostAccess ⟨s.params.base + off, width, op⟩ s =
      { s with resp := .busError, faults := { s.faults with busError := true } }) ∧
  (∀ s t : State, s.faults.busError = true → step s = .next t → t.faults.busError = true)

/-- spec/20_memory.md R75, R77: MemRead gives the sum of the bytes at rising offsets, the lowest in bits [7:0]; MemWrite sets
the byte at offset a + i to `v[8i+7:8i]` for i < n and leaves every other byte. -/
def Obligations.LittleEndianBuffers : Prop :=
  ∀ (s : State) (buf : Buffer) (a n : Nat) (v : Word), n = 1 ∨ n = 2 ∨ n = 4 →
    (bufferRead s buf a n).toNat =
      ((List.range n).map fun i => (bufferByte s buf (a + i)).toNat * 2 ^ (8 * i)).sum ∧
    (∀ i, i < n → bufferByte (bufferWrite s buf a n v) buf (a + i) = v.extractLsb' (8 * i) 8) ∧
    (∀ buf' k, ¬(buf' = buf ∧ a ≤ k ∧ k < a + n) →
      bufferByte (bufferWrite s buf a n v) buf' k = bufferByte s buf' k)

/-- spec/20_memory.md R71, R75, R76: while IDLE, a supported access to a buffer reads MemRead or does MemWrite at the buffer offset,
and nothing else. -/
def Obligations.BufferAccessWhileIdle : Prop :=
  ∀ (s : State) (off n : Nat) (width : Width) (v : Word), s.params.Valid → s.engine = .idle →
    widthBytes width = some n → off % n = 0 →
    (off < s.params.inCap →
      hostAccess ⟨s.params.base + 0x10000 + off, width, .read⟩ s =
        { s with resp := .data (bufferRead s .inBuf off n) } ∧
      hostAccess ⟨s.params.base + 0x10000 + off, width, .write v⟩ s =
        { bufferWrite s .inBuf off n v with resp := .written }) ∧
    (off < s.params.outCap →
      hostAccess ⟨s.params.base + 0x20000 + off, width, .read⟩ s =
        { s with resp := .data (bufferRead s .outBuf off n) } ∧
      hostAccess ⟨s.params.base + 0x20000 + off, width, .write v⟩ s =
        { bufferWrite s .outBuf off n v with resp := .written })

/-- spec/70_reset_and_hazards.md R330: a host write to a buffer while BUSY sets HAZ and is a recorded fault, after which the model
stops (the stop and the free bytes are the model's choice, log 8). -/
def Obligations.BufferWriteWhileBusyIsAFault : Prop :=
  ∀ (s : State) (sn : Snap) (w : Option Work) (off n : Nat) (width : Width) (v : Word), s.params.Valid →
    s.engine = .busy sn w → widthBytes width = some n → off % n = 0 →
    ((0x10000 ≤ off ∧ off < 0x10000 + s.params.inCap) ∨ (0x20000 ≤ off ∧ off < 0x20000 + s.params.outCap)) →
    (hostAccess ⟨s.params.base + off, width, .write v⟩ s).status.haz = true ∧
    (hostAccess ⟨s.params.base + off, width, .write v⟩ s).faults.busyWrite = true ∧
    (hostAccess ⟨s.params.base + off, width, .write v⟩ s).engine = s.engine ∧
    step (hostAccess ⟨s.params.base + off, width, .write v⟩ s) = .fault .bufferWriteWhileBusy

/-- spec/70_reset_and_hazards.md R331: while BUSY a read of IN_BUF returns its contents, a read of OUT_BUF returns some value, and
neither sets HAZ or is a fault. -/
def Obligations.BufferReadsWhileBusy : Prop :=
  ∀ (s : State) (sn : Snap) (w : Option Work) (off n : Nat) (width : Width), s.params.Valid →
    s.engine = .busy sn w → widthBytes width = some n → off % n = 0 →
    (off < s.params.inCap →
      hostAccess ⟨s.params.base + 0x10000 + off, width, .read⟩ s =
        { s with resp := .data (bufferRead s .inBuf off n) }) ∧
    (off < s.params.outCap →
      ∃ v d, hostAccess ⟨s.params.base + 0x20000 + off, width, .read⟩ s =
        { s with resp := .data v, draws := d })

/-- spec/70_reset_and_hazards.md R320, R321: reset, BUSY or not, gives every register its reset value, makes the engine IDLE
with the command abandoned, and leaves no buffer byte written; `irq` is 0. -/
def Obligations.ResetStep : Prop :=
  ∀ (s : State) (rest : List Event), s.faults.busyWrite = false → s.schedule = .reset :: rest →
    ∃ t, step s = .next t ∧ t.engine = .idle ∧ t.inBuf = [] ∧ t.outBuf = [] ∧ State.irq t = false ∧
      (∀ r, regRead t r = regRead (State.resetWith s.params) r)

/-- spec/10_state.md R53: the reset values of the registers, with the engine IDLE, `irq` 0 and no byte of either buffer written. -/
def Obligations.ResetValues : Prop :=
  ∀ p : Params, p.Valid →
    regRead (State.resetWith p) .id = 0x524C4534#32 ∧
    (regRead (State.resetWith p) .inCap).toNat = p.inCap ∧
    (regRead (State.resetWith p) .outCap).toNat = p.outCap ∧
    (∀ r, r ≠ .id → r ≠ .inCap → r ≠ .outCap → regRead (State.resetWith p) r = 0#32) ∧
    (State.resetWith p).engine = .idle ∧ State.irq (State.resetWith p) = false ∧
    (∀ buf off, Memory.get? (memory (State.resetWith p) buf) off = none)

/-- spec/70_reset_and_hazards.md R324: what each command does when it is issued directly after reset. -/
def Obligations.FirstCommandAfterReset : Prop :=
  ∀ p : Params, p.Valid →
    (∃ t, completionStep (startCommand 0x4#32 (State.resetWith p)) = .next t ∧
      Memory.get? t.outBuf 0 = some 0x00#8 ∧ Memory.get? t.outBuf 1 = some 0x00#8 ∧ t.outLen = 2#32 ∧
      t.outPtr = 2#32 ∧ statusWord t = 0x02#32 ∧ t.faults.unwrittenSlice = false) ∧
    (∃ t, completionStep (startCommand 0x5#32 (State.resetWith p)) = .next t ∧
      t.status.err = .decTruncated ∧ t.consumed = 0#32 ∧ t.outLen = 0#32) ∧
    (∀ op, op = 0x7#32 ∨ op = 0x8#32 →
      ∃ t, completionStep (startCommand op (State.resetWith p)) = .next t ∧ t.outLen = 0#32 ∧ t.consumed = 0#32 ∧
        t.outBuf = []) ∧
    (∀ op, op = 0x1#32 ∨ op = 0x2#32 ∨ op = 0x3#32 →
      ∃ t, completionStep (startCommand op (State.resetWith p)) = .next t ∧ t.result = 0#32 ∧
        statusWord t = 0x02#32) ∧
    (∃ t, completionStep (startCommand 0x6#32 (State.resetWith p)) = .next t ∧
      Memory.get? t.outBuf 0 = some 0x00#8 ∧ Memory.get? t.outBuf 1 = some 0x01#8 ∧ t.outPtr = 2#32) ∧
    (State.resetWith p).config = ⟨.count, false⟩

/-- spec/10_state.md R51, spec/60_exceptions.md R290: `irq` is DONE and IRQ_EN: a completion with IRQ_EN raises it, the acknowledge
and the next command start lower it, and with IRQ_EN = 0 it is low while DONE stays. -/
def Obligations.InterruptFollowsDone : Prop :=
  (∀ s : State, State.irq s = (s.status.done && s.config.irqEn)) ∧
  (∀ (i : Instr) (s t : State), isCommand i = true → exec i s = .next t → State.irq t = s.config.irqEn) ∧
  (∀ s : State, State.irq (hostAccess (regAccess s.params .status (.write 0x2#32)) s) = false) ∧
  (∀ (s : State) (word : Word), s.engine = .idle →
    State.irq (hostAccess (regAccess s.params .cmd (.write word)) s) = false) ∧
  (∀ s : State, s.config.irqEn = false → State.irq s = false)

/-- spec/41_row_encoder.md R181, spec/20_memory.md R79: ENC_ROW's output depends on its captured operands and its slice alone: two
states that agree on them write the same bytes, OUT_LEN, OUT_PTR and OVF, whatever else differs. -/
def Obligations.EncRowReadsOnlyItsSlice : Prop :=
  ∀ (s1 s2 t1 t2 : State) (sn : Snap), s1.params = s2.params →
    s1.engine = .busy sn none → s2.engine = .busy sn none → sn.ptr.toNat ≤ s1.params.outCap →
    sn.off.toNat + sn.len.toNat ≤ s1.params.inCap →
    (∀ i, i < sn.len.toNat →
      bufferByte s1 .inBuf (sn.off.toNat + i) = bufferByte s2 .inBuf (sn.off.toNat + i)) →
    exec .encRow s1 = .next t1 → exec .encRow s2 = .next t2 →
    t1.outLen = t2.outLen ∧ t1.outPtr = t2.outPtr ∧ t1.status.ovf = t2.status.ovf ∧
      (∀ i, i < t1.outLen.toNat →
        Memory.get? t1.outBuf (sn.ptr.toNat + i) = Memory.get? t2.outBuf (sn.ptr.toNat + i))
end

