-- ==== Sys2Proof/Laws/Memory.lean ====
section
/-! SUPPORT. The laws of a buffer's contents: a read after a write, and that every write keeps the canonical form. -/

namespace Sys2Proof.Machine

@[simp] theorem Memory.get?_nil (a : Nat) : Memory.get? [] a = none := rfl

@[simp] theorem Memory.get?_cons (c : Host.Cell) (m : Memory) (a : Nat) :
    Memory.get? (c :: m) a = if c.1 = a then some c.2 else Memory.get? m a := rfl

/-- A read of the offset written gives the byte written. -/
theorem Memory.get?_set_same (m : Memory) (a : Nat) (b : Byte) : (m.set a b).get? a = some b := by
  induction m with
  | nil => simp [Memory.set]
  | cons c m ih =>
    unfold Memory.set
    split
    · simp
    · split
      · simp
      · next h1 h2 =>
        have : c.1 ≠ a := fun h => h2 h.symm
        simp [this, ih]

/-- A write leaves every other offset as it was. -/
theorem Memory.get?_set_other (m : Memory) (a k : Nat) (b : Byte) (h : k ≠ a) : (m.set a b).get? k = m.get? k := by
  have h' : a ≠ k := fun e => h e.symm
  induction m with
  | nil => simp [Memory.set, h']
  | cons c m ih =>
    unfold Memory.set
    split
    · simp [h']
    · split
      · next _ h2 =>
        have : c.1 ≠ k := fun e => h' (h2.trans e)
        simp [h', this]
      · simp [ih]

theorem Memory.get?_set (m : Memory) (a k : Nat) (b : Byte) :
    (m.set a b).get? k = if k = a then some b else m.get? k := by
  split
  · next h => rw [h, Memory.get?_set_same]
  · next h => exact Memory.get?_set_other m a k b h

/-- What a block write leaves at every offset. -/
theorem Memory.get?_setBytes (bs : List Byte) (m : Memory) (a k : Nat) :
    (m.setBytes a bs).get? k = if a ≤ k ∧ k < a + bs.length then bs[k - a]? else m.get? k := by
  induction bs generalizing m a with
  | nil =>
    have : ¬(a ≤ k ∧ k < a + ([] : List Byte).length) := by simp
    rw [if_neg this]; rfl
  | cons b bs ih =>
    rw [Memory.setBytes, ih, Memory.get?_set]
    by_cases hk : k = a
    · subst hk
      simp
    · by_cases hin : a + 1 ≤ k ∧ k < a + 1 + bs.length
      · have h2 : a ≤ k ∧ k < a + (b :: bs).length := by simp; omega
        rw [if_pos hin, if_pos h2]
        have : k - a = (k - (a + 1)) + 1 := by omega
        rw [this]; simp
      · have h2 : ¬(a ≤ k ∧ k < a + (b :: bs).length) := by simp; omega
        rw [if_neg hin, if_neg h2, if_neg hk]

theorem Memory.wf_iff (size : Nat) (m : Memory) :
    Memory.wf size m = true ↔ m.Pairwise (fun c d => c.1 < d.1) ∧ ∀ c ∈ m, c.1 < size := by
  simp [Memory.wf, List.all_eq_true]

theorem Memory.mem_set (m : Memory) (a : Nat) (b : Byte) (c : Host.Cell) (h : c ∈ m.set a b) : c = (a, b) ∨ c ∈ m := by
  induction m with
  | nil => left; simpa [Memory.set] using h
  | cons d m ih =>
    unfold Memory.set at h
    split at h
    · simpa using h
    · split at h
      · rcases List.mem_cons.mp h with h | h
        · exact .inl h
        · exact .inr (List.mem_cons_of_mem _ h)
      · rcases List.mem_cons.mp h with h | h
        · exact .inr (by simp [h])
        · exact (ih h).imp id (List.mem_cons_of_mem _)

/-- Writing one byte inside the buffer keeps the canonical form. -/
theorem Memory.wf_set (size : Nat) (m : Memory) (a : Nat) (b : Byte) (ha : a < size) (h : Memory.wf size m = true) :
    Memory.wf size (m.set a b) = true := by
  rw [Memory.wf_iff] at h ⊢
  obtain ⟨hs, hb⟩ := h
  refine ⟨?_, fun c hc => ?_⟩
  · clear hb
    induction m with
    | nil => simp [Memory.set]
    | cons d m ih =>
      obtain ⟨hd, hm⟩ := List.pairwise_cons.mp hs
      unfold Memory.set
      split
      · next hlt =>
        refine List.pairwise_cons.mpr ⟨fun c hc => ?_, hs⟩
        rcases List.mem_cons.mp hc with rfl | hc
        · exact hlt
        · exact Nat.lt_trans hlt (hd c hc)
      · split
        · next heq => exact List.pairwise_cons.mpr ⟨fun c hc => by simpa [heq] using hd c hc, hm⟩
        · next h1 h2 =>
          refine List.pairwise_cons.mpr ⟨fun c hc => ?_, ih hm⟩
          rcases Memory.mem_set m a b c hc with rfl | hc
          · show d.1 < a; omega
          · exact hd c hc
  · rcases Memory.mem_set m a b c hc with rfl | hc
    · exact ha
    · exact hb c hc

/-- Writing bytes inside the buffer keeps the canonical form. -/
theorem Memory.wf_setBytes (size : Nat) (bs : List Byte) (m : Memory) (a : Nat) (ha : a + bs.length ≤ size)
    (h : Memory.wf size m = true) : Memory.wf size (m.setBytes a bs) = true := by
  induction bs generalizing m a with
  | nil => exact h
  | cons b bs ih =>
    simp only [List.length_cons] at ha
    exact ih _ _ (by omega) (Memory.wf_set size m a b (by omega) h)

theorem Memory.wf_nil (size : Nat) : Memory.wf size [] = true := by simp [Memory.wf]

/-- The contents after reset are in canonical form. -/
theorem reset_memory_wf :
    Memory.wf State.reset.params.inCap State.reset.inBuf = true ∧
      Memory.wf State.reset.params.outCap State.reset.outBuf = true :=
  ⟨Memory.wf_nil _, Memory.wf_nil _⟩

end Sys2Proof.Machine
end

