-- ==== Sys2Proof/Laws/State.lean ====
section
/-! SUPPORT. One lemma per field per update of State, so that no proof unfolds a record update. -/

namespace Sys2Proof.Machine

/-! ### setMemory -/

@[simp] theorem setMemory_params (s : State) (buf : Buffer) (m : Memory) : (setMemory s buf m).params = s.params := by cases buf <;> rfl
@[simp] theorem setMemory_config (s : State) (buf : Buffer) (m : Memory) : (setMemory s buf m).config = s.config := by cases buf <;> rfl
@[simp] theorem setMemory_cmd (s : State) (buf : Buffer) (m : Memory) : (setMemory s buf m).cmd = s.cmd := by cases buf <;> rfl
@[simp] theorem setMemory_status (s : State) (buf : Buffer) (m : Memory) : (setMemory s buf m).status = s.status := by cases buf <;> rfl
@[simp] theorem setMemory_width (s : State) (buf : Buffer) (m : Memory) : (setMemory s buf m).width = s.width := by cases buf <;> rfl
@[simp] theorem setMemory_pixX (s : State) (buf : Buffer) (m : Memory) : (setMemory s buf m).pixX = s.pixX := by cases buf <;> rfl
@[simp] theorem setMemory_inOff (s : State) (buf : Buffer) (m : Memory) : (setMemory s buf m).inOff = s.inOff := by cases buf <;> rfl
@[simp] theorem setMemory_inLen (s : State) (buf : Buffer) (m : Memory) : (setMemory s buf m).inLen = s.inLen := by cases buf <;> rfl
@[simp] theorem setMemory_outPtr (s : State) (buf : Buffer) (m : Memory) : (setMemory s buf m).outPtr = s.outPtr := by cases buf <;> rfl
@[simp] theorem setMemory_outLen (s : State) (buf : Buffer) (m : Memory) : (setMemory s buf m).outLen = s.outLen := by cases buf <;> rfl
@[simp] theorem setMemory_consumed (s : State) (buf : Buffer) (m : Memory) : (setMemory s buf m).consumed = s.consumed := by cases buf <;> rfl
@[simp] theorem setMemory_result (s : State) (buf : Buffer) (m : Memory) : (setMemory s buf m).result = s.result := by cases buf <;> rfl
@[simp] theorem setMemory_engine (s : State) (buf : Buffer) (m : Memory) : (setMemory s buf m).engine = s.engine := by cases buf <;> rfl
@[simp] theorem setMemory_epoch (s : State) (buf : Buffer) (m : Memory) : (setMemory s buf m).epoch = s.epoch := by cases buf <;> rfl
@[simp] theorem setMemory_draws (s : State) (buf : Buffer) (m : Memory) : (setMemory s buf m).draws = s.draws := by cases buf <;> rfl
@[simp] theorem setMemory_resp (s : State) (buf : Buffer) (m : Memory) : (setMemory s buf m).resp = s.resp := by cases buf <;> rfl
@[simp] theorem setMemory_faults (s : State) (buf : Buffer) (m : Memory) : (setMemory s buf m).faults = s.faults := by cases buf <;> rfl
@[simp] theorem setMemory_schedule (s : State) (buf : Buffer) (m : Memory) : (setMemory s buf m).schedule = s.schedule := by cases buf <;> rfl

/-! ### writeBuffer -/

@[simp] theorem writeBuffer_params (s : State) (buf : Buffer) (off : Nat) (bs : List Byte) : (writeBuffer s buf off bs).params = s.params := by cases buf <;> rfl
@[simp] theorem writeBuffer_config (s : State) (buf : Buffer) (off : Nat) (bs : List Byte) : (writeBuffer s buf off bs).config = s.config := by cases buf <;> rfl
@[simp] theorem writeBuffer_cmd (s : State) (buf : Buffer) (off : Nat) (bs : List Byte) : (writeBuffer s buf off bs).cmd = s.cmd := by cases buf <;> rfl
@[simp] theorem writeBuffer_status (s : State) (buf : Buffer) (off : Nat) (bs : List Byte) : (writeBuffer s buf off bs).status = s.status := by cases buf <;> rfl
@[simp] theorem writeBuffer_width (s : State) (buf : Buffer) (off : Nat) (bs : List Byte) : (writeBuffer s buf off bs).width = s.width := by cases buf <;> rfl
@[simp] theorem writeBuffer_pixX (s : State) (buf : Buffer) (off : Nat) (bs : List Byte) : (writeBuffer s buf off bs).pixX = s.pixX := by cases buf <;> rfl
@[simp] theorem writeBuffer_inOff (s : State) (buf : Buffer) (off : Nat) (bs : List Byte) : (writeBuffer s buf off bs).inOff = s.inOff := by cases buf <;> rfl
@[simp] theorem writeBuffer_inLen (s : State) (buf : Buffer) (off : Nat) (bs : List Byte) : (writeBuffer s buf off bs).inLen = s.inLen := by cases buf <;> rfl
@[simp] theorem writeBuffer_outPtr (s : State) (buf : Buffer) (off : Nat) (bs : List Byte) : (writeBuffer s buf off bs).outPtr = s.outPtr := by cases buf <;> rfl
@[simp] theorem writeBuffer_outLen (s : State) (buf : Buffer) (off : Nat) (bs : List Byte) : (writeBuffer s buf off bs).outLen = s.outLen := by cases buf <;> rfl
@[simp] theorem writeBuffer_consumed (s : State) (buf : Buffer) (off : Nat) (bs : List Byte) : (writeBuffer s buf off bs).consumed = s.consumed := by cases buf <;> rfl
@[simp] theorem writeBuffer_result (s : State) (buf : Buffer) (off : Nat) (bs : List Byte) : (writeBuffer s buf off bs).result = s.result := by cases buf <;> rfl
@[simp] theorem writeBuffer_engine (s : State) (buf : Buffer) (off : Nat) (bs : List Byte) : (writeBuffer s buf off bs).engine = s.engine := by cases buf <;> rfl
@[simp] theorem writeBuffer_epoch (s : State) (buf : Buffer) (off : Nat) (bs : List Byte) : (writeBuffer s buf off bs).epoch = s.epoch := by cases buf <;> rfl
@[simp] theorem writeBuffer_draws (s : State) (buf : Buffer) (off : Nat) (bs : List Byte) : (writeBuffer s buf off bs).draws = s.draws := by cases buf <;> rfl
@[simp] theorem writeBuffer_resp (s : State) (buf : Buffer) (off : Nat) (bs : List Byte) : (writeBuffer s buf off bs).resp = s.resp := by cases buf <;> rfl
@[simp] theorem writeBuffer_faults (s : State) (buf : Buffer) (off : Nat) (bs : List Byte) : (writeBuffer s buf off bs).faults = s.faults := by cases buf <;> rfl
@[simp] theorem writeBuffer_schedule (s : State) (buf : Buffer) (off : Nat) (bs : List Byte) : (writeBuffer s buf off bs).schedule = s.schedule := by cases buf <;> rfl

/-! ### startCommand -/

@[simp] theorem startCommand_params (op : Word) (s : State) : (startCommand op s).params = s.params := rfl
@[simp] theorem startCommand_config (op : Word) (s : State) : (startCommand op s).config = s.config := rfl
@[simp] theorem startCommand_cmd (op : Word) (s : State) : (startCommand op s).cmd = op := rfl
@[simp] theorem startCommand_status (op : Word) (s : State) : (startCommand op s).status = ⟨false, false, s.status.haz, .none⟩ := rfl
@[simp] theorem startCommand_width (op : Word) (s : State) : (startCommand op s).width = s.width := rfl
@[simp] theorem startCommand_pixX (op : Word) (s : State) : (startCommand op s).pixX = s.pixX := rfl
@[simp] theorem startCommand_inOff (op : Word) (s : State) : (startCommand op s).inOff = s.inOff := rfl
@[simp] theorem startCommand_inLen (op : Word) (s : State) : (startCommand op s).inLen = s.inLen := rfl
@[simp] theorem startCommand_outPtr (op : Word) (s : State) : (startCommand op s).outPtr = s.outPtr := rfl
@[simp] theorem startCommand_outLen (op : Word) (s : State) : (startCommand op s).outLen = s.outLen := rfl
@[simp] theorem startCommand_consumed (op : Word) (s : State) : (startCommand op s).consumed = s.consumed := rfl
@[simp] theorem startCommand_result (op : Word) (s : State) : (startCommand op s).result = s.result := rfl
@[simp] theorem startCommand_engine (op : Word) (s : State) : (startCommand op s).engine = .busy (captureSnap op s) none := rfl
@[simp] theorem startCommand_inBuf (op : Word) (s : State) : (startCommand op s).inBuf = s.inBuf := rfl
@[simp] theorem startCommand_outBuf (op : Word) (s : State) : (startCommand op s).outBuf = s.outBuf := rfl
@[simp] theorem startCommand_epoch (op : Word) (s : State) : (startCommand op s).epoch = s.epoch := rfl
@[simp] theorem startCommand_draws (op : Word) (s : State) : (startCommand op s).draws = s.draws := rfl
@[simp] theorem startCommand_resp (op : Word) (s : State) : (startCommand op s).resp = s.resp := rfl
@[simp] theorem startCommand_faults (op : Word) (s : State) : (startCommand op s).faults = s.faults := rfl
@[simp] theorem startCommand_schedule (op : Word) (s : State) : (startCommand op s).schedule = s.schedule := rfl

/-! ### complete -/

@[simp] theorem complete_params (e : ErrCode) (s : State) : (complete e s).params = s.params := rfl
@[simp] theorem complete_config (e : ErrCode) (s : State) : (complete e s).config = s.config := rfl
@[simp] theorem complete_cmd (e : ErrCode) (s : State) : (complete e s).cmd = s.cmd := rfl
@[simp] theorem complete_status (e : ErrCode) (s : State) : (complete e s).status = { s.status with done := true, err := e } := rfl
@[simp] theorem complete_width (e : ErrCode) (s : State) : (complete e s).width = s.width := rfl
@[simp] theorem complete_pixX (e : ErrCode) (s : State) : (complete e s).pixX = s.pixX := rfl
@[simp] theorem complete_inOff (e : ErrCode) (s : State) : (complete e s).inOff = s.inOff := rfl
@[simp] theorem complete_inLen (e : ErrCode) (s : State) : (complete e s).inLen = s.inLen := rfl
@[simp] theorem complete_outPtr (e : ErrCode) (s : State) : (complete e s).outPtr = s.outPtr := rfl
@[simp] theorem complete_outLen (e : ErrCode) (s : State) : (complete e s).outLen = s.outLen := rfl
@[simp] theorem complete_consumed (e : ErrCode) (s : State) : (complete e s).consumed = s.consumed := rfl
@[simp] theorem complete_result (e : ErrCode) (s : State) : (complete e s).result = s.result := rfl
@[simp] theorem complete_engine (e : ErrCode) (s : State) : (complete e s).engine = .idle := rfl
@[simp] theorem complete_inBuf (e : ErrCode) (s : State) : (complete e s).inBuf = s.inBuf := rfl
@[simp] theorem complete_outBuf (e : ErrCode) (s : State) : (complete e s).outBuf = s.outBuf := rfl
@[simp] theorem complete_epoch (e : ErrCode) (s : State) : (complete e s).epoch = s.epoch := rfl
@[simp] theorem complete_draws (e : ErrCode) (s : State) : (complete e s).draws = s.draws := rfl
@[simp] theorem complete_resp (e : ErrCode) (s : State) : (complete e s).resp = s.resp := rfl
@[simp] theorem complete_faults (e : ErrCode) (s : State) : (complete e s).faults = s.faults := rfl
@[simp] theorem complete_schedule (e : ErrCode) (s : State) : (complete e s).schedule = s.schedule := rfl

/-! ### acknowledge -/

@[simp] theorem acknowledge_params (s : State) : (acknowledge s).params = s.params := rfl
@[simp] theorem acknowledge_config (s : State) : (acknowledge s).config = s.config := rfl
@[simp] theorem acknowledge_cmd (s : State) : (acknowledge s).cmd = s.cmd := rfl
@[simp] theorem acknowledge_status (s : State) : (acknowledge s).status = { s.status with done := false } := rfl
@[simp] theorem acknowledge_width (s : State) : (acknowledge s).width = s.width := rfl
@[simp] theorem acknowledge_pixX (s : State) : (acknowledge s).pixX = s.pixX := rfl
@[simp] theorem acknowledge_inOff (s : State) : (acknowledge s).inOff = s.inOff := rfl
@[simp] theorem acknowledge_inLen (s : State) : (acknowledge s).inLen = s.inLen := rfl
@[simp] theorem acknowledge_outPtr (s : State) : (acknowledge s).outPtr = s.outPtr := rfl
@[simp] theorem acknowledge_outLen (s : State) : (acknowledge s).outLen = s.outLen := rfl
@[simp] theorem acknowledge_consumed (s : State) : (acknowledge s).consumed = s.consumed := rfl
@[simp] theorem acknowledge_result (s : State) : (acknowledge s).result = s.result := rfl
@[simp] theorem acknowledge_engine (s : State) : (acknowledge s).engine = s.engine := rfl
@[simp] theorem acknowledge_inBuf (s : State) : (acknowledge s).inBuf = s.inBuf := rfl
@[simp] theorem acknowledge_outBuf (s : State) : (acknowledge s).outBuf = s.outBuf := rfl
@[simp] theorem acknowledge_epoch (s : State) : (acknowledge s).epoch = s.epoch := rfl
@[simp] theorem acknowledge_draws (s : State) : (acknowledge s).draws = s.draws := rfl
@[simp] theorem acknowledge_resp (s : State) : (acknowledge s).resp = s.resp := rfl
@[simp] theorem acknowledge_faults (s : State) : (acknowledge s).faults = s.faults := rfl
@[simp] theorem acknowledge_schedule (s : State) : (acknowledge s).schedule = s.schedule := rfl

/-! ### setHazard -/

@[simp] theorem setHazard_params (s : State) : (setHazard s).params = s.params := rfl
@[simp] theorem setHazard_config (s : State) : (setHazard s).config = s.config := rfl
@[simp] theorem setHazard_cmd (s : State) : (setHazard s).cmd = s.cmd := rfl
@[simp] theorem setHazard_status (s : State) : (setHazard s).status = { s.status with haz := true } := rfl
@[simp] theorem setHazard_width (s : State) : (setHazard s).width = s.width := rfl
@[simp] theorem setHazard_pixX (s : State) : (setHazard s).pixX = s.pixX := rfl
@[simp] theorem setHazard_inOff (s : State) : (setHazard s).inOff = s.inOff := rfl
@[simp] theorem setHazard_inLen (s : State) : (setHazard s).inLen = s.inLen := rfl
@[simp] theorem setHazard_outPtr (s : State) : (setHazard s).outPtr = s.outPtr := rfl
@[simp] theorem setHazard_outLen (s : State) : (setHazard s).outLen = s.outLen := rfl
@[simp] theorem setHazard_consumed (s : State) : (setHazard s).consumed = s.consumed := rfl
@[simp] theorem setHazard_result (s : State) : (setHazard s).result = s.result := rfl
@[simp] theorem setHazard_engine (s : State) : (setHazard s).engine = s.engine := rfl
@[simp] theorem setHazard_inBuf (s : State) : (setHazard s).inBuf = s.inBuf := rfl
@[simp] theorem setHazard_outBuf (s : State) : (setHazard s).outBuf = s.outBuf := rfl
@[simp] theorem setHazard_epoch (s : State) : (setHazard s).epoch = s.epoch := rfl
@[simp] theorem setHazard_draws (s : State) : (setHazard s).draws = s.draws := rfl
@[simp] theorem setHazard_resp (s : State) : (setHazard s).resp = s.resp := rfl
@[simp] theorem setHazard_faults (s : State) : (setHazard s).faults = s.faults := rfl
@[simp] theorem setHazard_schedule (s : State) : (setHazard s).schedule = s.schedule := rfl

/-! ### writeOutput -/

@[simp] theorem writeOutput_params (ptr : Nat) (bs : List Byte) (s : State) : (writeOutput ptr bs s).params = s.params := rfl
@[simp] theorem writeOutput_config (ptr : Nat) (bs : List Byte) (s : State) : (writeOutput ptr bs s).config = s.config := rfl
@[simp] theorem writeOutput_cmd (ptr : Nat) (bs : List Byte) (s : State) : (writeOutput ptr bs s).cmd = s.cmd := rfl
@[simp] theorem writeOutput_status (ptr : Nat) (bs : List Byte) (s : State) : (writeOutput ptr bs s).status = { s.status with ovf := exceeds bs (s.params.outCap - ptr) } := rfl
@[simp] theorem writeOutput_width (ptr : Nat) (bs : List Byte) (s : State) : (writeOutput ptr bs s).width = s.width := rfl
@[simp] theorem writeOutput_pixX (ptr : Nat) (bs : List Byte) (s : State) : (writeOutput ptr bs s).pixX = s.pixX := rfl
@[simp] theorem writeOutput_inOff (ptr : Nat) (bs : List Byte) (s : State) : (writeOutput ptr bs s).inOff = s.inOff := rfl
@[simp] theorem writeOutput_inLen (ptr : Nat) (bs : List Byte) (s : State) : (writeOutput ptr bs s).inLen = s.inLen := rfl
@[simp] theorem writeOutput_outPtr (ptr : Nat) (bs : List Byte) (s : State) : (writeOutput ptr bs s).outPtr = BitVec.ofNat 32 (ptr + (bs.take (s.params.outCap - ptr)).length) := rfl
@[simp] theorem writeOutput_outLen (ptr : Nat) (bs : List Byte) (s : State) : (writeOutput ptr bs s).outLen = BitVec.ofNat 32 (bs.take (s.params.outCap - ptr)).length := rfl
@[simp] theorem writeOutput_consumed (ptr : Nat) (bs : List Byte) (s : State) : (writeOutput ptr bs s).consumed = s.consumed := rfl
@[simp] theorem writeOutput_result (ptr : Nat) (bs : List Byte) (s : State) : (writeOutput ptr bs s).result = s.result := rfl
@[simp] theorem writeOutput_engine (ptr : Nat) (bs : List Byte) (s : State) : (writeOutput ptr bs s).engine = s.engine := rfl
@[simp] theorem writeOutput_inBuf (ptr : Nat) (bs : List Byte) (s : State) : (writeOutput ptr bs s).inBuf = s.inBuf := rfl
@[simp] theorem writeOutput_outBuf (ptr : Nat) (bs : List Byte) (s : State) : (writeOutput ptr bs s).outBuf = s.outBuf.setBytes ptr (bs.take (s.params.outCap - ptr)) := rfl
@[simp] theorem writeOutput_epoch (ptr : Nat) (bs : List Byte) (s : State) : (writeOutput ptr bs s).epoch = s.epoch := rfl
@[simp] theorem writeOutput_draws (ptr : Nat) (bs : List Byte) (s : State) : (writeOutput ptr bs s).draws = s.draws := rfl
@[simp] theorem writeOutput_resp (ptr : Nat) (bs : List Byte) (s : State) : (writeOutput ptr bs s).resp = s.resp := rfl
@[simp] theorem writeOutput_faults (ptr : Nat) (bs : List Byte) (s : State) : (writeOutput ptr bs s).faults = s.faults := rfl
@[simp] theorem writeOutput_schedule (ptr : Nat) (bs : List Byte) (s : State) : (writeOutput ptr bs s).schedule = s.schedule := rfl

/-! ### writeConsumed -/

@[simp] theorem writeConsumed_params (n : Option Nat) (s : State) : (writeConsumed n s).params = s.params := by cases n <;> rfl
@[simp] theorem writeConsumed_config (n : Option Nat) (s : State) : (writeConsumed n s).config = s.config := by cases n <;> rfl
@[simp] theorem writeConsumed_cmd (n : Option Nat) (s : State) : (writeConsumed n s).cmd = s.cmd := by cases n <;> rfl
@[simp] theorem writeConsumed_status (n : Option Nat) (s : State) : (writeConsumed n s).status = s.status := by cases n <;> rfl
@[simp] theorem writeConsumed_width (n : Option Nat) (s : State) : (writeConsumed n s).width = s.width := by cases n <;> rfl
@[simp] theorem writeConsumed_pixX (n : Option Nat) (s : State) : (writeConsumed n s).pixX = s.pixX := by cases n <;> rfl
@[simp] theorem writeConsumed_inOff (n : Option Nat) (s : State) : (writeConsumed n s).inOff = s.inOff := by cases n <;> rfl
@[simp] theorem writeConsumed_inLen (n : Option Nat) (s : State) : (writeConsumed n s).inLen = s.inLen := by cases n <;> rfl
@[simp] theorem writeConsumed_outPtr (n : Option Nat) (s : State) : (writeConsumed n s).outPtr = s.outPtr := by cases n <;> rfl
@[simp] theorem writeConsumed_outLen (n : Option Nat) (s : State) : (writeConsumed n s).outLen = s.outLen := by cases n <;> rfl
@[simp] theorem writeConsumed_result (n : Option Nat) (s : State) : (writeConsumed n s).result = s.result := by cases n <;> rfl
@[simp] theorem writeConsumed_engine (n : Option Nat) (s : State) : (writeConsumed n s).engine = s.engine := by cases n <;> rfl
@[simp] theorem writeConsumed_inBuf (n : Option Nat) (s : State) : (writeConsumed n s).inBuf = s.inBuf := by cases n <;> rfl
@[simp] theorem writeConsumed_outBuf (n : Option Nat) (s : State) : (writeConsumed n s).outBuf = s.outBuf := by cases n <;> rfl
@[simp] theorem writeConsumed_epoch (n : Option Nat) (s : State) : (writeConsumed n s).epoch = s.epoch := by cases n <;> rfl
@[simp] theorem writeConsumed_draws (n : Option Nat) (s : State) : (writeConsumed n s).draws = s.draws := by cases n <;> rfl
@[simp] theorem writeConsumed_resp (n : Option Nat) (s : State) : (writeConsumed n s).resp = s.resp := by cases n <;> rfl
@[simp] theorem writeConsumed_faults (n : Option Nat) (s : State) : (writeConsumed n s).faults = s.faults := by cases n <;> rfl
@[simp] theorem writeConsumed_schedule (n : Option Nat) (s : State) : (writeConsumed n s).schedule = s.schedule := by cases n <;> rfl

/-! ### noteSlice -/

@[simp] theorem noteSlice_params (sn : Snap) (s : State) : (noteSlice sn s).params = s.params := rfl
@[simp] theorem noteSlice_config (sn : Snap) (s : State) : (noteSlice sn s).config = s.config := rfl
@[simp] theorem noteSlice_cmd (sn : Snap) (s : State) : (noteSlice sn s).cmd = s.cmd := rfl
@[simp] theorem noteSlice_status (sn : Snap) (s : State) : (noteSlice sn s).status = s.status := rfl
@[simp] theorem noteSlice_width (sn : Snap) (s : State) : (noteSlice sn s).width = s.width := rfl
@[simp] theorem noteSlice_pixX (sn : Snap) (s : State) : (noteSlice sn s).pixX = s.pixX := rfl
@[simp] theorem noteSlice_inOff (sn : Snap) (s : State) : (noteSlice sn s).inOff = s.inOff := rfl
@[simp] theorem noteSlice_inLen (sn : Snap) (s : State) : (noteSlice sn s).inLen = s.inLen := rfl
@[simp] theorem noteSlice_outPtr (sn : Snap) (s : State) : (noteSlice sn s).outPtr = s.outPtr := rfl
@[simp] theorem noteSlice_outLen (sn : Snap) (s : State) : (noteSlice sn s).outLen = s.outLen := rfl
@[simp] theorem noteSlice_consumed (sn : Snap) (s : State) : (noteSlice sn s).consumed = s.consumed := rfl
@[simp] theorem noteSlice_result (sn : Snap) (s : State) : (noteSlice sn s).result = s.result := rfl
@[simp] theorem noteSlice_engine (sn : Snap) (s : State) : (noteSlice sn s).engine = s.engine := rfl
@[simp] theorem noteSlice_inBuf (sn : Snap) (s : State) : (noteSlice sn s).inBuf = s.inBuf := rfl
@[simp] theorem noteSlice_outBuf (sn : Snap) (s : State) : (noteSlice sn s).outBuf = s.outBuf := rfl
@[simp] theorem noteSlice_epoch (sn : Snap) (s : State) : (noteSlice sn s).epoch = s.epoch := rfl
@[simp] theorem noteSlice_draws (sn : Snap) (s : State) : (noteSlice sn s).draws = s.draws := rfl
@[simp] theorem noteSlice_resp (sn : Snap) (s : State) : (noteSlice sn s).resp = s.resp := rfl
@[simp] theorem noteSlice_faults (sn : Snap) (s : State) : (noteSlice sn s).faults = { s.faults with unwrittenSlice := s.faults.unwrittenSlice || !sliceWritten sn s } := rfl
@[simp] theorem noteSlice_schedule (sn : Snap) (s : State) : (noteSlice sn s).schedule = s.schedule := rfl

/-! ### setWork -/

@[simp] theorem setWork_params (sn : Snap) (w : Work) (s : State) : (setWork sn w s).params = s.params := rfl
@[simp] theorem setWork_config (sn : Snap) (w : Work) (s : State) : (setWork sn w s).config = s.config := rfl
@[simp] theorem setWork_cmd (sn : Snap) (w : Work) (s : State) : (setWork sn w s).cmd = s.cmd := rfl
@[simp] theorem setWork_status (sn : Snap) (w : Work) (s : State) : (setWork sn w s).status = s.status := rfl
@[simp] theorem setWork_width (sn : Snap) (w : Work) (s : State) : (setWork sn w s).width = s.width := rfl
@[simp] theorem setWork_pixX (sn : Snap) (w : Work) (s : State) : (setWork sn w s).pixX = s.pixX := rfl
@[simp] theorem setWork_inOff (sn : Snap) (w : Work) (s : State) : (setWork sn w s).inOff = s.inOff := rfl
@[simp] theorem setWork_inLen (sn : Snap) (w : Work) (s : State) : (setWork sn w s).inLen = s.inLen := rfl
@[simp] theorem setWork_outPtr (sn : Snap) (w : Work) (s : State) : (setWork sn w s).outPtr = s.outPtr := rfl
@[simp] theorem setWork_outLen (sn : Snap) (w : Work) (s : State) : (setWork sn w s).outLen = s.outLen := rfl
@[simp] theorem setWork_consumed (sn : Snap) (w : Work) (s : State) : (setWork sn w s).consumed = s.consumed := rfl
@[simp] theorem setWork_result (sn : Snap) (w : Work) (s : State) : (setWork sn w s).result = s.result := rfl
@[simp] theorem setWork_engine (sn : Snap) (w : Work) (s : State) : (setWork sn w s).engine = .busy sn (some w) := rfl
@[simp] theorem setWork_inBuf (sn : Snap) (w : Work) (s : State) : (setWork sn w s).inBuf = s.inBuf := rfl
@[simp] theorem setWork_outBuf (sn : Snap) (w : Work) (s : State) : (setWork sn w s).outBuf = s.outBuf := rfl
@[simp] theorem setWork_epoch (sn : Snap) (w : Work) (s : State) : (setWork sn w s).epoch = s.epoch := rfl
@[simp] theorem setWork_draws (sn : Snap) (w : Work) (s : State) : (setWork sn w s).draws = s.draws := rfl
@[simp] theorem setWork_resp (sn : Snap) (w : Work) (s : State) : (setWork sn w s).resp = s.resp := rfl
@[simp] theorem setWork_faults (sn : Snap) (w : Work) (s : State) : (setWork sn w s).faults = s.faults := rfl
@[simp] theorem setWork_schedule (sn : Snap) (w : Work) (s : State) : (setWork sn w s).schedule = s.schedule := rfl

/-! ### writeStatus -/

@[simp] theorem writeStatus_params (v : Word) (s : State) : (writeStatus v s).params = s.params := rfl
@[simp] theorem writeStatus_config (v : Word) (s : State) : (writeStatus v s).config = s.config := rfl
@[simp] theorem writeStatus_cmd (v : Word) (s : State) : (writeStatus v s).cmd = s.cmd := rfl
@[simp] theorem writeStatus_status (v : Word) (s : State) : (writeStatus v s).status = { s.status with done := s.status.done && !v.getLsbD 1, haz := s.status.haz && !v.getLsbD 3 } := rfl
@[simp] theorem writeStatus_width (v : Word) (s : State) : (writeStatus v s).width = s.width := rfl
@[simp] theorem writeStatus_pixX (v : Word) (s : State) : (writeStatus v s).pixX = s.pixX := rfl
@[simp] theorem writeStatus_inOff (v : Word) (s : State) : (writeStatus v s).inOff = s.inOff := rfl
@[simp] theorem writeStatus_inLen (v : Word) (s : State) : (writeStatus v s).inLen = s.inLen := rfl
@[simp] theorem writeStatus_outPtr (v : Word) (s : State) : (writeStatus v s).outPtr = s.outPtr := rfl
@[simp] theorem writeStatus_outLen (v : Word) (s : State) : (writeStatus v s).outLen = s.outLen := rfl
@[simp] theorem writeStatus_consumed (v : Word) (s : State) : (writeStatus v s).consumed = s.consumed := rfl
@[simp] theorem writeStatus_result (v : Word) (s : State) : (writeStatus v s).result = s.result := rfl
@[simp] theorem writeStatus_engine (v : Word) (s : State) : (writeStatus v s).engine = s.engine := rfl
@[simp] theorem writeStatus_inBuf (v : Word) (s : State) : (writeStatus v s).inBuf = s.inBuf := rfl
@[simp] theorem writeStatus_outBuf (v : Word) (s : State) : (writeStatus v s).outBuf = s.outBuf := rfl
@[simp] theorem writeStatus_epoch (v : Word) (s : State) : (writeStatus v s).epoch = s.epoch := rfl
@[simp] theorem writeStatus_draws (v : Word) (s : State) : (writeStatus v s).draws = s.draws := rfl
@[simp] theorem writeStatus_resp (v : Word) (s : State) : (writeStatus v s).resp = s.resp := rfl
@[simp] theorem writeStatus_faults (v : Word) (s : State) : (writeStatus v s).faults = s.faults := rfl
@[simp] theorem writeStatus_schedule (v : Word) (s : State) : (writeStatus v s).schedule = s.schedule := rfl

/-! ### Where an update depends on its argument -/

@[simp] theorem setMemory_inBuf_inBuf (s : State) (m : Memory) : (setMemory s .inBuf m).inBuf = m := rfl
@[simp] theorem setMemory_inBuf_outBuf (s : State) (m : Memory) : (setMemory s .outBuf m).inBuf = s.inBuf := rfl
@[simp] theorem setMemory_outBuf_outBuf (s : State) (m : Memory) : (setMemory s .outBuf m).outBuf = m := rfl
@[simp] theorem setMemory_outBuf_inBuf (s : State) (m : Memory) : (setMemory s .inBuf m).outBuf = s.outBuf := rfl
@[simp] theorem memory_inBuf (s : State) : memory s .inBuf = s.inBuf := rfl
@[simp] theorem memory_outBuf (s : State) : memory s .outBuf = s.outBuf := rfl
@[simp] theorem writeBuffer_inBuf_inBuf (s : State) (off : Nat) (bs : List Byte) :
    (writeBuffer s .inBuf off bs).inBuf = s.inBuf.setBytes off bs := rfl
@[simp] theorem writeBuffer_inBuf_outBuf (s : State) (off : Nat) (bs : List Byte) :
    (writeBuffer s .outBuf off bs).inBuf = s.inBuf := rfl
@[simp] theorem writeBuffer_outBuf_outBuf (s : State) (off : Nat) (bs : List Byte) :
    (writeBuffer s .outBuf off bs).outBuf = s.outBuf.setBytes off bs := rfl
@[simp] theorem writeBuffer_outBuf_inBuf (s : State) (off : Nat) (bs : List Byte) :
    (writeBuffer s .inBuf off bs).outBuf = s.outBuf := rfl
@[simp] theorem writeConsumed_none (s : State) : writeConsumed none s = s := rfl
@[simp] theorem writeConsumed_some (n : Nat) (s : State) :
    (writeConsumed (some n) s).consumed = BitVec.ofNat 32 n := rfl

/-! ### BUSY -/

theorem busy_idle (s : State) (h : s.engine = .idle) : busy s = false := by simp [busy, h]
theorem busy_of_engine (s : State) (sn : Snap) (w : Option Work) (h : s.engine = .busy sn w) : busy s = true := by
  simp [busy, h]
@[simp] theorem busy_startCommand (op : Word) (s : State) : busy (startCommand op s) = true := rfl
@[simp] theorem busy_complete (e : ErrCode) (s : State) : busy (complete e s) = false := rfl
@[simp] theorem busy_setWork (sn : Snap) (w : Work) (s : State) : busy (setWork sn w s) = true := rfl

/-! ### Reset -/

@[simp] theorem applyReset_params (s : State) : (applyReset s).params = s.params := rfl
@[simp] theorem applyReset_config (s : State) : (applyReset s).config = ⟨.count, false⟩ := rfl
@[simp] theorem applyReset_cmd (s : State) : (applyReset s).cmd = 0#32 := rfl
@[simp] theorem applyReset_status (s : State) : (applyReset s).status = ⟨false, false, false, .none⟩ := rfl
@[simp] theorem applyReset_width (s : State) : (applyReset s).width = 0#32 := rfl
@[simp] theorem applyReset_pixX (s : State) : (applyReset s).pixX = 0#32 := rfl
@[simp] theorem applyReset_inOff (s : State) : (applyReset s).inOff = 0#32 := rfl
@[simp] theorem applyReset_inLen (s : State) : (applyReset s).inLen = 0#32 := rfl
@[simp] theorem applyReset_outPtr (s : State) : (applyReset s).outPtr = 0#32 := rfl
@[simp] theorem applyReset_outLen (s : State) : (applyReset s).outLen = 0#32 := rfl
@[simp] theorem applyReset_consumed (s : State) : (applyReset s).consumed = 0#32 := rfl
@[simp] theorem applyReset_result (s : State) : (applyReset s).result = 0#32 := rfl
@[simp] theorem applyReset_engine (s : State) : (applyReset s).engine = .idle := rfl
@[simp] theorem applyReset_inBuf (s : State) : (applyReset s).inBuf = [] := rfl
@[simp] theorem applyReset_outBuf (s : State) : (applyReset s).outBuf = [] := rfl
@[simp] theorem applyReset_epoch (s : State) : (applyReset s).epoch = s.epoch + 1 := rfl
@[simp] theorem applyReset_draws (s : State) : (applyReset s).draws = s.draws := rfl
@[simp] theorem applyReset_resp (s : State) : (applyReset s).resp = s.resp := rfl
@[simp] theorem applyReset_faults (s : State) : (applyReset s).faults = s.faults := rfl
@[simp] theorem applyReset_schedule (s : State) : (applyReset s).schedule = s.schedule := rfl

end Sys2Proof.Machine
end

