-- ==== Sys2Proof/Laws/Ops.lean ====
section
/-! SUPPORT. One lemma per shared operation that says once what it can do; proofs cite these instead of unfolding. -/

namespace Sys2Proof.Machine

/-! ### Operands -/

theorem inputInRange_iff (sn : Snap) (s : State) :
    inputInRange sn s = true ↔ sn.off.toNat + sn.len.toNat ≤ s.params.inCap := by simp [inputInRange]

theorem outputInRange_iff (sn : Snap) (s : State) :
    outputInRange sn s = true ↔ sn.ptr.toNat ≤ s.params.outCap := by simp [outputInRange]

@[simp] theorem inputSlice_length (sn : Snap) (s : State) : (inputSlice sn s).length = sn.len.toNat := by
  simp [inputSlice]

/-- The slice depends only on IN_BUF and the reset count. -/
theorem inputSlice_congr (sn : Snap) (s t : State) (hm : t.inBuf = s.inBuf) (he : t.epoch = s.epoch) :
    inputSlice sn t = inputSlice sn s := by simp [inputSlice, bufferByte, hm, he]

theorem sliceWritten_congr (sn : Snap) (s t : State) (hm : t.inBuf = s.inBuf) :
    sliceWritten sn t = sliceWritten sn s := by simp [sliceWritten, hm]

@[simp] theorem inputSlice_setWork (sn sn' : Snap) (w : Work) (s : State) :
    inputSlice sn (setWork sn' w s) = inputSlice sn s := inputSlice_congr _ _ _ rfl rfl

@[simp] theorem workOf_some (sn : Snap) (w : Work) : workOf sn (some w) = w := rfl
@[simp] theorem workOf_none (sn : Snap) : workOf sn none = beginWork sn := rfl

/-! ### The output write rule -/

theorem exceeds_eq (bs : List Byte) (room : Nat) : exceeds bs room = decide (room < bs.length) := by
  by_cases h : room < bs.length
  · have : bs.drop room ≠ [] := by simp [List.drop_eq_nil_iff, h]
    simp [exceeds, h]
  · simp [exceeds, h, Nat.le_of_not_lt h]

/-- spec/20_memory.md R80, for legal parameters and a PTR that passed its range check. -/
theorem writeOutput_spec (ptr : Nat) (bs : List Byte) (s : State) (hp : s.params.Valid) (hr : ptr ≤ s.params.outCap) :
    WritesOutput ptr bs s (writeOutput ptr bs s) := by
  obtain ⟨-, -, -, -, -, -, hc⟩ := hp
  have hl : (bs.take (s.params.outCap - ptr)).length = min bs.length (s.params.outCap - ptr) := by
    rw [List.length_take, Nat.min_comm]
  refine ⟨?_, ?_, ?_, ?_, ?_⟩
  · rw [writeOutput_outLen, hl, BitVec.toNat_ofNat, Nat.mod_eq_of_lt (by omega)]
  · rw [writeOutput_outPtr, hl, BitVec.toNat_ofNat, Nat.mod_eq_of_lt (by omega)]
  · simp [exceeds_eq]
  · intro i hi
    rw [writeOutput_outBuf, Memory.get?_setBytes, hl, if_pos (by omega)]
    rw [show ptr + i - ptr = i by omega, List.getElem?_take, if_pos (by omega)]
  · intro a ha
    rw [writeOutput_outBuf, Memory.get?_setBytes, hl, if_neg ha]

/-- The completion of an output command keeps the canonical form of OUT_BUF. -/
theorem writeOutput_wf (ptr : Nat) (bs : List Byte) (s : State) (hr : ptr ≤ s.params.outCap)
    (h : Memory.wf s.params.outCap s.outBuf = true) :
    Memory.wf s.params.outCap (writeOutput ptr bs s).outBuf = true := by
  rw [writeOutput_outBuf]
  apply Memory.wf_setBytes _ _ _ _ _ h
  rw [List.length_take]; omega

/-! ### Command shapes -/

/-- GETPIX, HASREP and SCAN while a command is in flight. -/
theorem resultCommand_busy (value : List Byte → Nat → Nat → Word) (s : State) (sn : Snap) (w : Option Work)
    (h : s.engine = .busy sn w) :
    resultCommand value s =
      if sn.off.toNat + sn.len.toNat ≤ s.params.inCap then
        .next (complete .none { noteSlice sn s with result := value (inputSlice sn s) sn.w.toNat sn.x.toNat })
      else .next (raise .badRange s) := by
  simp only [resultCommand, h]
  by_cases hr : sn.off.toNat + sn.len.toNat ≤ s.params.inCap <;> simp [inputInRange, hr]

/-- ENC_ROW, DEC_ROW, BRLE_ENC and BRLE_DEC while a command is in flight. -/
theorem outputCommand_busy (compute : Snap → List Byte → Work → Output) (s : State) (sn : Snap) (w : Option Work)
    (h : s.engine = .busy sn w) :
    outputCommand compute s =
      if sn.off.toNat + sn.len.toNat ≤ s.params.inCap ∧ sn.ptr.toNat ≤ s.params.outCap then
        .next (finishOutput sn (compute sn (inputSlice sn s) (workOf sn w)) (noteSlice sn s))
      else .next (raise .badRange s) := by
  simp only [outputCommand, h]
  by_cases hr : sn.off.toNat + sn.len.toNat ≤ s.params.inCap <;>
    by_cases ho : sn.ptr.toNat ≤ s.params.outCap <;> simp [inputInRange, outputInRange, hr, ho]

/-- What an output command's completion leaves and writes. -/
theorem finishOutput_spec (sn : Snap) (o : Output) (s : State) (hp : s.params.Valid)
    (hr : sn.ptr.toNat ≤ s.params.outCap) :
    WritesOutput sn.ptr.toNat o.bytes s (finishOutput sn o s) ∧ Completes o.err s (finishOutput sn o s) ∧
      KeepsInputs s (finishOutput sn o s) ∧ (finishOutput sn o s).result = s.result ∧
      (finishOutput sn o s).consumed = (match o.consumed with | some n => BitVec.ofNat 32 n | none => s.consumed) ∧
      (finishOutput sn o s).faults = s.faults := by
  have h := writeOutput_spec sn.ptr.toNat o.bytes s hp hr
  refine ⟨?_, ?_, ?_, ?_, ?_, ?_⟩
  · simpa [WritesOutput, finishOutput] using h
  · simp [Completes, finishOutput]
  · simp [KeepsInputs, finishOutput]
  · simp [finishOutput]
  · cases hc : o.consumed <;> simp [finishOutput, hc]
  · simp [finishOutput]

/-- A record's meaning, while DEC_ROW is in flight and has not ended. -/
theorem withRecord_busy (k : Snap → Work → Outcome) (s : State) (sn : Snap) (w : Option Work)
    (h : s.engine = .busy sn w) (hc : decodeCommand sn.op = .decRow) (hs : (workOf sn w).stop = none) :
    withRecord k s = k sn (workOf sn w) := by
  simp [withRecord, h, hc, hs]

/-- If a record's meaning answers a next state, DEC_ROW is in flight and has not ended. -/
theorem withRecord_next (k : Snap → Work → Outcome) (s t : State) (h : withRecord k s = .next t) :
    ∃ sn w, s.engine = .busy sn w ∧ decodeCommand sn.op = .decRow ∧ (workOf sn w).stop = none ∧
      k sn (workOf sn w) = .next t := by
  unfold withRecord at h
  split at h
  · cases h
  · next sn w he =>
    split at h
    · cases h
    · next hc =>
      split at h
      · cases h
      · next hs => exact ⟨sn, w, he, by simpa using hc, by simpa using hs, h⟩

/-- An item's meaning, while BRLE_DEC is in flight and has not ended. -/
theorem withItem_busy (k : Snap → Work → Outcome) (s : State) (sn : Snap) (w : Option Work)
    (h : s.engine = .busy sn w) (hc : decodeCommand sn.op = .brleDec) (hs : (workOf sn w).stop = none) :
    withItem k s = k sn (workOf sn w) := by
  simp [withItem, h, hc, hs]

/-- If an item's meaning answers a next state, BRLE_DEC is in flight and has not ended. -/
theorem withItem_next (k : Snap → Work → Outcome) (s t : State) (h : withItem k s = .next t) :
    ∃ sn w, s.engine = .busy sn w ∧ decodeCommand sn.op = .brleDec ∧ (workOf sn w).stop = none ∧
      k sn (workOf sn w) = .next t := by
  unfold withItem at h
  split at h
  · cases h
  · next sn w he =>
    split at h
    · cases h
    · next hc =>
      split at h
      · cases h
      · next hs => exact ⟨sn, w, he, by simpa using hc, by simpa using hs, h⟩

/-! ### What exec can do -/

/-- If a command answers a next state, a command was in flight, and the state is one of: its completion with NONE (NOP), with
ILLEGAL_OP, with BAD_RANGE, with a RESULT, or with an output. -/
theorem exec_command_cases (i : Instr) (s t : State) (hi : isCommand i = true) (h : exec i s = .next t) :
    ∃ sn w, s.engine = .busy sn w ∧
      (t = complete .none s ∨ t = raise .illegalOp s ∨ t = raise .badRange s ∨
        (∃ v, sn.off.toNat + sn.len.toNat ≤ s.params.inCap ∧ t = complete .none { noteSlice sn s with result := v } ∧
          (v = getpixResult (inputSlice sn s) sn.w.toNat sn.x.toNat ∨
            v = hasrepResult (inputSlice sn s) sn.w.toNat sn.x.toNat ∨
            v = scanResult (inputSlice sn s) sn.w.toNat sn.x.toNat)) ∨
        (sn.ptr.toNat ≤ s.params.outCap ∧ i = .emitEob ∧ t = finishOutput sn ⟨eobBytes, none, .none⟩ s) ∨
        (sn.off.toNat + sn.len.toNat ≤ s.params.inCap ∧ sn.ptr.toNat ≤ s.params.outCap ∧
          ((i = .encRow ∧ t = finishOutput sn (encodeOutput sn (inputSlice sn s) (workOf sn w)) (noteSlice sn s)) ∨
           (i = .decRow ∧ t = finishOutput sn (decodeOutput sn (inputSlice sn s) (workOf sn w)) (noteSlice sn s)) ∨
           (i = .brleEnc ∧ t = finishOutput sn (brleEncodeOutput sn (inputSlice sn s) (workOf sn w)) (noteSlice sn s)) ∨
           (i = .brleDec ∧ t = finishOutput sn (brleDecodeOutput sn (inputSlice sn s) (workOf sn w)) (noteSlice sn s))))) := by
  cases he : s.engine with
  | idle =>
    cases i <;> simp [isCommand, Instr.format] at hi <;>
      simp [exec, execNop, execGetpix, execHasrep, execScan, execEncRow, execDecRow, execEmitEob, execBrleEnc,
        execBrleDec, execIllegal, resultCommand, outputCommand, he] at h
  | busy sn w =>
    refine ⟨sn, w, rfl, ?_⟩
    cases i <;> simp [isCommand, Instr.format] at hi
    case nop => left; simpa [exec, execNop, he] using h.symm
    case illegal => right; left; simpa [exec, execIllegal, he] using h.symm
    case emitEob =>
      simp only [exec, execEmitEob, he] at h
      split at h
      · next ho => exact .inr (.inr (.inr (.inr (.inl ⟨(outputInRange_iff _ _).mp ho, rfl, by simpa using h.symm⟩))))
      · right; right; left; simpa using h.symm
    all_goals
      simp only [exec, execGetpix, execHasrep, execScan, execEncRow, execDecRow, execBrleEnc, execBrleDec,
        resultCommand_busy _ _ _ _ he, outputCommand_busy _ _ _ _ he] at h
      split at h
      · next hr =>
        cases h
        first
          | exact .inr (.inr (.inr (.inl ⟨_, hr, rfl, by simp⟩)))
          | exact .inr (.inr (.inr (.inr (.inr ⟨hr.1, hr.2, by simp⟩))))
      · right; right; left; simpa using h.symm

/-- If a record or item answers a next state, it changed nothing but the working state of the command in flight. -/
theorem exec_stream_cases (i : Instr) (s t : State) (hi : isCommand i = false) (h : exec i s = .next t) :
    ∃ sn w wk, s.engine = .busy sn w ∧ t = setWork sn wk s := by
  cases i <;> simp [isCommand, Instr.format] at hi <;>
    simp only [exec, execRun, execEol, execEob, execLit1, execLit, execRawLo, execRawHi, execCtrl, execEsc] at h <;>
    first
      | obtain ⟨sn, w, he, -, -, hk⟩ := withRecord_next _ _ _ h
        first
          | (split at hk
             · cases hk
             · exact ⟨sn, w, _, he, by simpa using hk.symm⟩)
          | exact ⟨sn, w, _, he, by simpa using hk.symm⟩
      | obtain ⟨sn, w, he, -, -, hk⟩ := withItem_next _ _ _ h
        exact ⟨sn, w, _, he, by simpa using hk.symm⟩

/-! ### The engine's steps -/

/-- A record that the stream gives DEC_ROW is run as its effect on the working state. -/
theorem exec_fetched_record (s : State) (sn : Snap) (w : Option Work) (h : s.engine = .busy sn w)
    (hc : decodeCommand sn.op = .decRow) (hs : (workOf sn w).stop = none) (stream : List Byte) (i : Instr)
    (rest : List Byte) (hd : nextRecord sn.w.toNat stream (workOf sn w) = .ok i rest) :
    exec i s = .next (setWork sn (recordEffect sn.w.toNat i (workOf sn w)) s) := by
  have hx : i = .eob → ¬ (workOf sn w).x < sn.w.toNat := by
    rintro rfl
    simp only [nextRecord, decode, decodeRecord] at hd
    split at hd
    · split at hd
      · cases hd
      · split at hd
        · cases hd
        · split at hd
          · simp only [decodeZeroOne] at hd
            split at hd
            · next hb => simp at hb; omega
            · split at hd <;> cases hd
          · simp only [decodeLiteral] at hd
            split at hd <;> cases hd
    · cases hd
  have hk : i.format = .command ∨ i.format = .item → False := by
    simp only [nextRecord, decode, decodeRecord] at hd
    split at hd
    · split at hd
      · cases hd; simp [Instr.format]
      · split at hd
        · cases hd; simp [Instr.format]
        · split at hd
          · simp only [decodeZeroOne] at hd
            split at hd
            · cases hd; simp [Instr.format]
            · split at hd <;> cases hd
              simp [Instr.format]
          · simp only [decodeLiteral] at hd
            split at hd <;> cases hd
            simp [Instr.format]
    · cases hd
  cases i <;> simp [Instr.format] at hk <;>
    simp only [exec, execRun, execEol, execEob, execLit1, execLit, withRecord_busy _ _ _ _ h hc hs, recordEffect]
  simp [hx rfl]

/-- An item that the stream gives BRLE_DEC is run as its effect on the working state. -/
theorem exec_fetched_item (s : State) (sn : Snap) (w : Option Work) (h : s.engine = .busy sn w)
    (hc : decodeCommand sn.op = .brleDec) (hs : (workOf sn w).stop = none) (stream : List Byte) (i : Instr)
    (rest : List Byte) (hd : nextItem stream (workOf sn w).p = .ok i rest) :
    ∃ out len, itemEffect sn.profile (.ok i rest) = some (out, len) ∧
      exec i s = .next (setWork sn (advance out len (workOf sn w)) s) := by
  have hk : i.format = .item := by
    simp only [nextItem, decode, decodeItem] at hd
    split at hd
    · split at hd
      · cases hd; rfl
      · split at hd
        · cases hd; rfl
        · simp only [decodeControl] at hd
          split at hd
          · split at hd <;> cases hd <;> rfl
          · cases hd
    · cases hd
  cases i <;> simp [Instr.format] at hk <;>
    simp [exec, execRawLo, execRawHi, execCtrl, execEsc, withItem_busy _ _ _ _ h hc hs, itemEffect]

/-- What a hidden step can do: nothing, or one step of the working state of the command in flight, by its operation. -/
theorem hiddenStep_cases (s : State) :
    hiddenStep s = .next s ∨
    ∃ sn w wk, s.engine = .busy sn w ∧ sn.off.toNat + sn.len.toNat ≤ s.params.inCap ∧
      sn.ptr.toNat ≤ s.params.outCap ∧ hiddenStep s = .next (setWork sn wk s) ∧
      ((decodeCommand sn.op = .encRow ∧ wk = encodeStep (inputSlice sn s) sn.w.toNat (workOf sn w)) ∨
       (decodeCommand sn.op = .decRow ∧ (workOf sn w).stop = none ∧
          wk = decodeStep sn.w.toNat (inputSlice sn s) (workOf sn w)) ∨
       (decodeCommand sn.op = .brleEnc ∧ wk = brleEncodeStep sn.profile (inputSlice sn s) (workOf sn w)) ∨
       (decodeCommand sn.op = .brleDec ∧ (workOf sn w).stop = none ∧
          ((∃ i rest out len, nextItem (inputSlice sn s) (workOf sn w).p = .ok i rest ∧
              itemEffect sn.profile (.ok i rest) = some (out, len) ∧ wk = advance out len (workOf sn w)) ∨
           (∃ e, nextItem (inputSlice sn s) (workOf sn w).p = .bad e ∧ wk = endItems (workOf sn w))))) := by
  unfold hiddenStep
  cases he : s.engine with
  | idle => left; rfl
  | busy sn w =>
    simp only []
    split
    · next hr =>
      rw [Bool.and_eq_true, inputInRange_iff, outputInRange_iff] at hr
      cases hc : decodeCommand sn.op <;> simp only [commandStep] <;> try (left; trivial)
      case encRow => exact .inr ⟨sn, w, _, rfl, hr.1, hr.2, rfl, .inl ⟨hc, rfl⟩⟩
      case brleEnc => exact .inr ⟨sn, w, _, rfl, hr.1, hr.2, rfl, .inr (.inr (.inl ⟨hc, rfl⟩))⟩
      case decRow =>
        unfold recordStep
        split
        · left; rfl
        · next hs =>
          have hs : (workOf sn w).stop = none := by simpa using hs
          right
          refine ⟨sn, w, decodeStep sn.w.toNat (inputSlice sn s) (workOf sn w), rfl, hr.1, hr.2, ?_,
            .inr (.inl ⟨hc, hs, rfl⟩)⟩
          unfold decodeStep
          cases hd : nextRecord sn.w.toNat (inputSlice sn s) (workOf sn w) with
          | ok i rest => exact exec_fetched_record s sn w he hc hs _ i rest hd
          | bad e => rfl
      case brleDec =>
        unfold itemStep
        split
        · left; rfl
        · next hs =>
          have hs : (workOf sn w).stop = none := by simpa using hs
          right
          cases hd : nextItem (inputSlice sn s) (workOf sn w).p with
          | ok i rest =>
            obtain ⟨out, len, h1, h2⟩ := exec_fetched_item s sn w he hc hs _ i rest hd
            exact ⟨sn, w, _, rfl, hr.1, hr.2, h2,
              .inr (.inr (.inr ⟨hc, hs, .inl ⟨i, rest, out, len, hd, h1, rfl⟩⟩))⟩
          | bad e => exact ⟨sn, w, _, rfl, hr.1, hr.2, rfl, .inr (.inr (.inr ⟨hc, hs, .inr ⟨e, hd, rfl⟩⟩))⟩
    · left; rfl

end Sys2Proof.Machine
end

