-- ==== Sys2Proof/Laws/Bytes.lean ====
section
/-! SUPPORT. The byte codec's loops (spec/43_byte_rle.md R243, R247): the run at a byte, the items of a stream, and that the fuel
does not matter once there is enough. -/

namespace Sys2Proof.Machine

/-! ### Encoder -/

theorem leadCount_spec (v : Byte) (cap : Nat) (l : List Byte) :
    leadCount v cap l ≤ cap ∧ leadCount v cap l ≤ l.length ∧
      l = List.replicate (leadCount v cap l) v ++ l.drop (leadCount v cap l) := by
  induction cap generalizing l with
  | zero => simp [leadCount]
  | succ cap ih =>
    cases l with
    | nil => simp [leadCount]
    | cons b bs =>
      unfold leadCount
      split
      · next h =>
        subst h
        obtain ⟨h1, h2, h3⟩ := ih bs
        refine ⟨by omega, by simp; omega, ?_⟩
        rw [List.replicate_succ, List.drop_succ_cons, List.cons_append, ← h3]
      · simp

/-- The run at a byte: its length is 1 to 63, it lies in the sequence, and it is all that byte (spec/43_byte_rle.md R243). -/
theorem byteRunLength_spec (v : Byte) (l : List Byte) :
    1 ≤ byteRunLength v l ∧ byteRunLength v l ≤ 63 ∧ byteRunLength v l ≤ l.length + 1 ∧
      v :: l = List.replicate (byteRunLength v l) v ++ l.drop (byteRunLength v l - 1) := by
  obtain ⟨h1, h2, h3⟩ := leadCount_spec v 62 l
  unfold byteRunLength
  refine ⟨by omega, by omega, by omega, ?_⟩
  rw [Nat.add_comm, List.replicate_succ, Nat.add_sub_cancel, List.cons_append, ← h3]

theorem byteRunItem_length (p : Profile) (l : Nat) (v : Byte) :
    1 ≤ (byteRunItem p l v).length ∧ (byteRunItem p l v).length ≤ 2 := by
  unfold byteRunItem; split
  · simp
  · split <;> simp

theorem brleEncodeFrom_fuel (p : Profile) (f f' : Nat) (l : List Byte) (h : l.length ≤ f) (h' : l.length ≤ f') :
    brleEncodeFrom p f l = brleEncodeFrom p f' l := by
  induction f generalizing f' l with
  | zero =>
    obtain rfl : l = [] := by simpa using h
    cases f' <;> rfl
  | succ f ih =>
    cases l with
    | nil => cases f' <;> rfl
    | cons v l =>
      cases f' with
      | zero => simp at h'
      | succ f' =>
        simp at h h'
        simp only [brleEncodeFrom]
        rw [ih f' _ (by simp; omega) (by simp; omega)]

/-- A hidden step of the encoder moves one run from what is to come into the output. -/
theorem brleEncodeStep_spec (p : Profile) (bytes : List Byte) (wk : Work) (hp : wk.p ≤ bytes.length) :
    (brleEncodeStep p bytes wk).out ++ brleEncode (bytes.drop (brleEncodeStep p bytes wk).p) p =
        wk.out ++ brleEncode (bytes.drop wk.p) p ∧
      (brleEncodeStep p bytes wk).p ≤ bytes.length := by
  unfold brleEncodeStep
  cases hd : bytes.drop wk.p with
  | nil => simp [hd, hp]
  | cons v rest =>
    obtain ⟨b1, b2, b3, b4⟩ := byteRunLength_spec v rest
    have hl := congrArg List.length hd
    rw [List.length_drop] at hl
    simp at hl
    refine ⟨?_, by simp [advance]; omega⟩
    simp only [advance, List.append_assoc]
    congr 1
    have hr : brleEncode (v :: rest) p = byteRunItem p (byteRunLength v rest) v ++
        brleEncodeFrom p rest.length (rest.drop (byteRunLength v rest - 1)) := rfl
    rw [hr]
    congr 1
    have h2 : bytes.drop (wk.p + byteRunLength v rest) = rest.drop (byteRunLength v rest - 1) := by
      rw [← List.drop_drop, hd]
      obtain ⟨k, hk⟩ : ∃ k, byteRunLength v rest = k + 1 := ⟨byteRunLength v rest - 1, by omega⟩
      rw [hk]; simp
    rw [h2]
    exact brleEncodeFrom_fuel p _ _ _ (by omega) (by simp)

/-! ### Decoder -/

/-- What stands at an index of a byte-RLE stream: nothing or a trailing control byte, a plain byte, or a pair of at most 64 copies
(spec/30_encoding.md R120). -/
theorem nextItem_cases (p : Profile) (bytes : List Byte) (i : Nat) :
    (bytes.length ≤ i + 1 ∧ itemEffect p (nextItem bytes i) = none) ∨
    (∃ b, i < bytes.length ∧ itemEffect p (nextItem bytes i) = some ([b], 1)) ∨
    (∃ out, i + 2 ≤ bytes.length ∧ out.length ≤ 64 ∧ itemEffect p (nextItem bytes i) = some (out, 2)) := by
  have hc : ∀ n d, (controlBytes p n d).length ≤ 64 := by
    intro n d
    have := n.isLt
    simp only [controlBytes, List.length_replicate]; unfold copies; split <;> omega
  unfold nextItem
  cases hd : bytes.drop i with
  | nil => left; have := List.drop_eq_nil_iff.mp hd; exact ⟨by omega, rfl⟩
  | cons c rest =>
    have hl : bytes.length - i = rest.length + 1 := by rw [← List.length_drop, hd]; rfl
    simp only [decode, decodeItem]
    split
    · right; left; exact ⟨_, by omega, rfl⟩
    · split
      · right; left; exact ⟨_, by omega, rfl⟩
      · cases rest with
        | nil => left; exact ⟨by simp at hl; omega, rfl⟩
        | cons d rest =>
          simp at hl
          right; right
          simp only [decodeControl]
          split
          · exact ⟨_, by omega, hc _ _, rfl⟩
          · exact ⟨_, by omega, hc _ _, rfl⟩

/-- An item that has an effect lies in the stream. -/
theorem itemEffect_bound (p : Profile) (bytes : List Byte) (i len : Nat) (out : List Byte)
    (h : itemEffect p (nextItem bytes i) = some (out, len)) : 1 ≤ len ∧ i + len ≤ bytes.length := by
  rcases nextItem_cases p bytes i with ⟨a, b⟩ | ⟨a, b, c⟩ | ⟨a, b, c, d⟩
  · rw [b] at h; cases h
  · rw [c] at h; simp at h; omega
  · rw [d] at h; simp at h; omega

theorem brleDecodeFrom_done (p : Profile) (bytes : List Byte) (f i : Nat) (h : itemEffect p (nextItem bytes i) = none) :
    brleDecodeFrom p bytes f i = ([], i) := by
  cases f <;> simp [brleDecodeFrom, h]

theorem brleDecodeFrom_fuel (p : Profile) (bytes : List Byte) (f f' i : Nat) (h : bytes.length ≤ i + f)
    (h' : bytes.length ≤ i + f') : brleDecodeFrom p bytes f i = brleDecodeFrom p bytes f' i := by
  induction f generalizing f' i with
  | zero =>
    have hn : itemEffect p (nextItem bytes i) = none := by
      rcases nextItem_cases p bytes i with ⟨h1, h2⟩ | ⟨b, h1, h2⟩ | ⟨out, h1, h3, h2⟩
      · exact h2
      · omega
      · omega
    rw [brleDecodeFrom_done _ _ _ _ hn, brleDecodeFrom_done _ _ _ _ hn]
  | succ f ih =>
    cases f' with
    | zero =>
      have hn : itemEffect p (nextItem bytes i) = none := by
        rcases nextItem_cases p bytes i with ⟨h1, h2⟩ | ⟨b, h1, h2⟩ | ⟨out, h1, h3, h2⟩
        · exact h2
        · omega
        · omega
      rw [brleDecodeFrom_done _ _ _ _ hn, brleDecodeFrom_done _ _ _ _ hn]
    | succ f' =>
      unfold brleDecodeFrom
      rcases nextItem_cases p bytes i with ⟨h1, h2⟩ | ⟨b, h1, h2⟩ | ⟨out, h1, h3, h2⟩ <;> rw [h2] <;> simp only []
      · rw [ih f' (i + 1) (by omega) (by omega)]
      · rw [ih f' (i + 2) (by omega) (by omega)]

end Sys2Proof.Machine
end

