-- ==== Sys2Proof/Laws/Segments.lean ====
section
/-! SUPPORT. What the scanner's loops leave (spec/40_pixel_access.md R146 to R149): the facts about runs, literal turns and
segments that the codec's statements rest on. -/

namespace Sys2Proof.Machine

variable (row : List Byte) (w x : Nat)

/-! ### Runs -/

/-- The run loop goes on from c to its answer: every pixel passed equals p, and the bounds hold. -/
theorem runCountFrom_spec (p : Nibble) (fuel c : Nat) :
    c ≤ runCountFrom row w x p fuel c ∧
    (runCountFrom row w x p fuel c = c ∨
      (x + runCountFrom row w x p fuel c ≤ w ∧ runCountFrom row w x p fuel c ≤ 255)) ∧
    (∀ k, c ≤ k → k < runCountFrom row w x p fuel c → pix row w (x + k) = p) := by
  induction fuel generalizing c with
  | zero => exact ⟨Nat.le_refl _, .inl rfl, fun k h1 h2 => absurd h2 (by simp [runCountFrom]; omega)⟩
  | succ fuel ih =>
    unfold runCountFrom
    split
    · next h =>
      obtain ⟨h1, h2, h3⟩ := ih (c + 1)
      refine ⟨by omega, ?_, fun k hk1 hk2 => ?_⟩
      · right; rcases h2 with h2 | h2
        · rw [h2]; omega
        · exact h2
      · rcases Nat.eq_or_lt_of_le hk1 with rfl | hk
        · exact h.2.2
        · exact h3 k hk hk2
    · exact ⟨Nat.le_refl _, .inl rfl, fun k h1 h2 => absurd h2 (by omega)⟩

/-- With enough fuel the run loop stops only where it must. -/
theorem runCountFrom_stops (p : Nibble) (fuel c : Nat) (hf : 255 ≤ c + fuel) :
    ¬(x + runCountFrom row w x p fuel c < w ∧ runCountFrom row w x p fuel c < 255 ∧
      pix row w (x + runCountFrom row w x p fuel c) = p) := by
  induction fuel generalizing c with
  | zero => simp only [runCountFrom]; omega
  | succ fuel ih =>
    unfold runCountFrom
    split
    · exact ih (c + 1) (by omega)
    · next h => exact h

theorem one_le_runCount : 1 ≤ runCount row w x := (runCountFrom_spec row w x _ 255 1).1

theorem runCount_bounds (hx : x < w) : x + runCount row w x ≤ w ∧ runCount row w x ≤ 255 := by
  have h : runCount row w x = 1 ∨ (x + runCount row w x ≤ w ∧ runCount row w x ≤ 255) :=
    (runCountFrom_spec row w x _ 255 1).2.1
  omega

theorem runCount_pixels (k : Nat) (hk : k < runCount row w x) : pix row w (x + k) = pix row w x := by
  rcases Nat.eq_zero_or_pos k with rfl | h
  · rfl
  · exact (runCountFrom_spec row w x _ 255 1).2.2 k h hk

theorem runCount_stops :
    ¬(x + runCount row w x < w ∧ runCount row w x < 255 ∧ pix row w (x + runCount row w x) = pix row w x) :=
  runCountFrom_stops row w x _ 255 1 (by omega)

/-- Step 1 finds a run exactly where the pixel repeats (spec/40_pixel_access.md R146, R147). -/
theorem two_le_runCount_iff : 2 ≤ runCount row w x ↔ hasRep row w x = true := by
  have h1 := one_le_runCount row w x
  simp only [hasRep, Bool.and_eq_true, decide_eq_true_eq, beq_iff_eq]
  constructor
  · intro h
    have := runCount_pixels row w x 1 (by omega)
    have hb : runCount row w x = 1 ∨ (x + runCount row w x ≤ w ∧ runCount row w x ≤ 255) :=
      (runCountFrom_spec row w x _ 255 1).2.1
    exact ⟨by omega, this.symm⟩
  · rintro ⟨ha, hb⟩
    by_contra hc
    have hr : runCount row w x = 1 := by omega
    have hs := runCount_stops row w x
    rw [hr] at hs
    exact hs ⟨ha, by omega, hb.symm⟩

theorem hasRep_iff : hasRep row w x = true ↔ x + 1 < w ∧ pix row w x = pix row w (x + 1) := by
  simp [hasRep]

/-! ### Literal turns -/

/-- A turn of the literal loop takes a pair below the cap that repeats nothing, or the row's last pixel. -/
theorem literalTurn_some (n d : Nat) (b : Byte) (h : literalTurn row w x n = some (d, b)) :
    (d = 2 ∧ x + n + 1 < w ∧ n + 2 ≤ 255 ∧ hasRep row w (x + n) = false ∧ hasRep row w (x + n + 1) = false ∧
      b = packNibbles (pix row w (x + n)) (pix row w (x + n + 1))) ∨
    (d = 1 ∧ x + n + 1 = w ∧ b = packNibbles (pix row w (x + n)) 0#4) := by
  simp only [literalTurn] at h
  split at h
  · cases h
  · next h1 =>
    split at h
    · next h2 =>
      split at h
      · cases h
      · next h3 =>
        split at h
        · cases h
        · next h4 =>
          simp only [Option.some.injEq, Prod.mk.injEq] at h
          simp only [Bool.or_eq_true, not_or, Bool.not_eq_true] at h3
          exact .inl ⟨h.1.symm, h2, by omega, h3.1, h3.2, h.2.symm⟩
    · next h2 =>
      simp only [Option.some.injEq, Prod.mk.injEq] at h
      exact .inr ⟨h.1.symm, by omega, h.2.symm⟩

/-- Where the literal loop is left. -/
theorem literalTurn_none_iff (n : Nat) : literalTurn row w x n = none ↔
    w ≤ x + n ∨ (x + n + 1 < w ∧ (hasRep row w (x + n) = true ∨ hasRep row w (x + n + 1) = true ∨ 253 < n)) := by
  simp only [literalTurn]
  by_cases h1 : w ≤ x + n
  · simp [h1]
  · by_cases h2 : x + n + 1 < w
    · by_cases h3 : hasRep row w (x + n) = true <;> by_cases h4 : hasRep row w (x + n + 1) = true <;>
        by_cases h5 : n + 2 > 255 <;> simp [h1, h2, h3, h4, h5] <;> omega
    · simp [h1, h2]

/-- The accumulator of the literal loop keeps whatever each turn keeps. -/
theorem literalFrom_induct (P : Nat → List Byte → Prop)
    (hstep : ∀ n data d b, P n data → literalTurn row w x n = some (d, b) → P (n + d) (data ++ [b]))
    (fuel n : Nat) (data : List Byte) (h : P n data) :
    P (literalFrom row w x fuel n data).1 (literalFrom row w x fuel n data).2 := by
  induction fuel generalizing n data with
  | zero => exact h
  | succ fuel ih =>
    unfold literalFrom
    split
    · next d b ht => exact ih _ _ (hstep _ _ _ _ h ht)
    · exact h

theorem literalFrom_of_none (fuel n : Nat) (data : List Byte) (h : literalTurn row w x n = none) :
    literalFrom row w x fuel n data = (n, data) := by
  cases fuel <;> simp [literalFrom, h]

/-- The row's last pixel ends the literal. -/
theorem literalTurn_none_of_end (n : Nat) (h : w ≤ x + n) : literalTurn row w x n = none :=
  (literalTurn_none_iff row w x n).mpr (.inl h)

/-- With enough fuel the literal loop ends because a turn leaves it. -/
theorem literalFrom_stops (fuel n : Nat) (data : List Byte) (hf : 254 ≤ n + 2 * fuel) :
    literalTurn row w x (literalFrom row w x (fuel + 1) n data).1 = none := by
  induction fuel generalizing n data with
  | zero =>
    unfold literalFrom
    split
    · next d b ht =>
      rcases literalTurn_some row w x n d b ht with h | h
      · omega
      · exact literalTurn_none_of_end _ _ _ _ (by simp only [literalFrom]; omega)
    · next ht => exact ht
  | succ fuel ih =>
    unfold literalFrom
    split
    · next d b ht =>
      rcases literalTurn_some row w x n d b ht with h | h
      · exact ih _ _ (by omega)
      · have he : literalTurn row w x (n + d) = none := literalTurn_none_of_end _ _ _ _ (by omega)
        rw [literalFrom_of_none _ _ _ _ _ _ he]
        exact he
    · next ht => exact ht

/-- The literal loop's answer does not depend on the fuel, once there is enough. -/
theorem literalFrom_fuel (fuel n : Nat) (data : List Byte) (hf : 254 ≤ n + 2 * fuel) :
    literalFrom row w x (fuel + 2) n data = literalFrom row w x (fuel + 1) n data := by
  induction fuel generalizing n data with
  | zero =>
    rw [literalFrom, literalFrom]
    split
    · next d b ht =>
      rcases literalTurn_some row w x n d b ht with h | h
      · omega
      · rw [literalFrom_of_none _ _ _ _ _ _ (literalTurn_none_of_end _ _ _ _ (by omega))]; rfl
    · rfl
  | succ fuel ih =>
    rw [literalFrom, literalFrom]
    split
    · next d b ht =>
      rcases literalTurn_some row w x n d b ht with h | h
      · exact ih _ _ (by omega)
      · have he : literalTurn row w x (n + d) = none := literalTurn_none_of_end _ _ _ _ (by omega)
        rw [literalFrom_of_none _ _ _ _ _ _ he, literalFrom_of_none _ _ _ _ _ _ he]
    · rfl

/-- A literal accumulator is in order: its pixels lie in the row, an odd number only at the row's end, at most 255 of them, and its
bytes hold them (spec/40_pixel_access.md R147, R149 (b), (e)). -/
def AccOk (n : Nat) (data : List Byte) : Prop :=
  x + n ≤ w ∧ n ≤ 255 ∧ (n % 2 = 1 → x + n = w) ∧ data.length = (n + 1) / 2 ∧
  (∀ k, k < n → rowPixel data k = pix row w (x + k)) ∧ (n % 2 = 1 → rowPixel data n = 0#4)

@[simp] theorem highNibble_pack : ∀ h l : Nibble, highNibble (packNibbles h l) = h := by decide

@[simp] theorem lowNibble_pack : ∀ h l : Nibble, lowNibble (packNibbles h l) = l := by decide

@[simp] theorem pack_nibbles : ∀ b : Byte, packNibbles (highNibble b) (lowNibble b) = b := by decide

theorem rowPixel_append_left (a b : List Byte) (k : Nat) (h : k / 2 < a.length) :
    rowPixel (a ++ b) k = rowPixel a k := by
  simp only [rowPixel, List.getD_eq_getElem?_getD, List.getElem?_append_left h]

theorem AccOk_step (n : Nat) (data : List Byte) (d : Nat) (b : Byte) (h : AccOk row w x n data)
    (ht : literalTurn row w x n = some (d, b)) : AccOk row w x (n + d) (data ++ [b]) := by
  obtain ⟨h1, h2, h3, h4, h5, h6⟩ := h
  rcases literalTurn_some row w x n d b ht with ⟨rfl, a1, a2, -, -, rfl⟩ | ⟨rfl, a1, rfl⟩
  · have he : n % 2 = 0 := by
      by_contra hc; have := h3 (by omega); omega
    refine ⟨by omega, by omega, by omega, by simp; omega, fun k hk => ?_, by omega⟩
    by_cases hkn : k < n
    · rw [rowPixel_append_left _ _ _ (by omega), h5 k hkn]
    · have hl : data.length = n / 2 := by omega
      rcases (show k = n ∨ k = n + 1 by omega) with rfl | rfl
      · simp [rowPixel, he, ← hl]
      · have : (n + 1) / 2 = data.length := by omega
        simp [rowPixel, this, show (n + 1) % 2 = 1 by omega, Nat.add_assoc]
  · have he : n % 2 = 0 := by
      by_contra hc; have := h3 (by omega); omega
    have hl : data.length = n / 2 := by omega
    have hn : n ≤ 254 := by
      rcases Nat.lt_or_ge n 255 with h | h
      · omega
      · omega
    refine ⟨by omega, by omega, by omega, by simp; omega, fun k hk => ?_, fun _ => ?_⟩
    · by_cases hkn : k < n
      · rw [rowPixel_append_left _ _ _ (by omega), h5 k hkn]
      · obtain rfl : k = n := by omega
        simp [rowPixel, he, ← hl]
    · have : (n + 1) / 2 = data.length := by omega
      simp [rowPixel, this, show (n + 1) % 2 = 1 by omega]

theorem AccOk_nil (hx : x < w) : AccOk row w x 0 [] :=
  ⟨by omega, by omega, by omega, rfl, fun k hk => absurd hk (by omega), by omega⟩

/-- What the literal loop leaves from an accumulator in order. -/
theorem literalFrom_ok (fuel n : Nat) (data : List Byte) (h : AccOk row w x n data) :
    AccOk row w x (literalFrom row w x fuel n data).1 (literalFrom row w x fuel n data).2 :=
  literalFrom_induct row w x (AccOk row w x) (fun n data d b ha ht => AccOk_step row w x n data d b ha ht) fuel n data h

theorem le_literalFrom (fuel n : Nat) (data : List Byte) : n ≤ (literalFrom row w x fuel n data).1 :=
  literalFrom_induct row w x (fun m _ => n ≤ m) (fun m _ d b h ht => by
    rcases literalTurn_some row w x m d b ht with h' | h' <;> omega) fuel n data (Nat.le_refl _)

/-! ### Segments -/

/-- A finished accumulator as a segment: progress, bounds (spec/40_pixel_access.md R149 (a)). -/
theorem literalSegment_bounds (hx : x < w) (n : Nat) (data : List Byte) (h : AccOk row w x n data) :
    1 ≤ segmentLength (literalSegment row w x n data) ∧ segmentLength (literalSegment row w x n data) ≤ 255 ∧
      x + segmentLength (literalSegment row w x n data) ≤ w := by
  have hok := literalFrom_ok row w x 256 n data h
  unfold literalSegment literalOrSingle
  split
  · next hp => exact ⟨hp, hok.2.1, hok.1⟩
  · exact ⟨Nat.le_refl _, by simp [segmentLength], hx⟩

theorem segment_bounds (hx : x < w) :
    1 ≤ segmentLength (segmentAt row w x) ∧ segmentLength (segmentAt row w x) ≤ 255 ∧
      x + segmentLength (segmentAt row w x) ≤ w := by
  unfold segmentAt
  split
  · next h => exact ⟨by simp [segmentLength]; omega, (runCount_bounds row w x hx).2, (runCount_bounds row w x hx).1⟩
  · exact literalSegment_bounds row w x hx 0 [] (AccOk_nil row w x hx)

/-- A literal segment's accumulator is in order (spec/40_pixel_access.md R149 (b), (e)). -/
theorem segment_literal (hx : x < w) (n : Nat) (data : List Byte) (h : segmentAt row w x = .literal n data) :
    1 ≤ n ∧ AccOk row w x n data ∧ hasRep row w x = false ∧ (n, data) = literalFrom row w x 256 0 [] := by
  unfold segmentAt at h
  split at h
  · cases h
  · next hr =>
    have hrep : hasRep row w x = false := by
      rw [Bool.eq_false_iff, ne_eq, ← two_le_runCount_iff]; exact hr
    unfold literalSegment literalOrSingle at h
    split at h
    · next hp =>
      have hok := literalFrom_ok row w x 256 0 [] (AccOk_nil row w x hx)
      cases h
      exact ⟨hp, hok, hrep, rfl⟩
    · cases h

/-- A run segment's pixels (spec/40_pixel_access.md R146). -/
theorem segment_run (hx : x < w) (c : Nat) (p : Nibble) (h : segmentAt row w x = .run c p) :
    2 ≤ c ∧ c ≤ 255 ∧ x + c ≤ w ∧ (∀ k, k < c → pix row w (x + k) = p) := by
  unfold segmentAt at h
  split at h
  · next hr =>
    cases h
    exact ⟨hr, (runCount_bounds row w x hx).2, (runCount_bounds row w x hx).1, runCount_pixels row w x⟩
  · unfold literalSegment literalOrSingle at h; split at h <;> cases h

/-- A single segment's pixel (spec/40_pixel_access.md R147). -/
theorem segment_single (p : Nibble) (h : segmentAt row w x = .single p) :
    p = pix row w x ∧ hasRep row w x = false ∧ literalTurn row w x 0 = none := by
  unfold segmentAt at h
  split at h
  · cases h
  · next hr =>
    have hrep : hasRep row w x = false := by
      rw [Bool.eq_false_iff, ne_eq, ← two_le_runCount_iff]; exact hr
    unfold literalSegment literalOrSingle at h
    split at h
    · cases h
    · next hp =>
      refine ⟨by cases h; rfl, hrep, ?_⟩
      cases ht : literalTurn row w x 0 with
      | none => rfl
      | some db =>
        have hle := le_literalFrom row w x 255 (0 + db.1) ([] ++ [db.2])
        have : literalFrom row w x 256 0 [] = literalFrom row w x 255 (0 + db.1) ([] ++ [db.2]) := by
          rw [literalFrom, ht]
        rw [this] at hp
        rcases literalTurn_some row w x 0 db.1 db.2 ht with h' | h' <;> omega

/-- The length of a record is that of its bytes (spec/40_pixel_access.md R148). -/
theorem recordBytes_length_even (seg : Segment) : (recordBytes seg).length % 2 = 0 := by
  cases seg with
  | run c p => simp [recordBytes]
  | single p => simp [recordBytes]
  | literal n data =>
    simp only [recordBytes, List.length_append, List.length_cons, List.length_nil]
    split <;> simp <;> omega

end Sys2Proof.Machine
end

