-- ==== Sys2Proof/Laws/Rows.lean ====
section
/-! SUPPORT. Packed rows: what the decoder's pixel writes leave (spec/42_row_decoder.md R203 to R205), and the encoder's loop
(spec/41_row_encoder.md R171) and what its records are. -/

namespace Sys2Proof.Machine

/-! ### Pixels of a packed row -/

@[simp] theorem setPixel_length (row : List Byte) (x : Nat) (v : Nibble) : (setPixel row x v).length = row.length := by
  simp [setPixel]

/-- What `setpix` leaves at every pixel (spec/42_row_decoder.md R203). -/
theorem rowPixel_setPixel (row : List Byte) (x j : Nat) (v : Nibble) (hx : x / 2 < row.length) :
    rowPixel (setPixel row x v) j = if j = x then v else rowPixel row j := by
  by_cases hb : x / 2 = j / 2
  · have hg : (setPixel row x v).getD (j / 2) 0#8 =
        (if x % 2 = 0 then packNibbles v (lowNibble (row.getD (j / 2) 0#8))
          else packNibbles (highNibble (row.getD (j / 2) 0#8)) v) := by
      simp only [setPixel, List.getD_eq_getElem?_getD, List.getElem?_modify, hb]
      rw [hb] at hx
      simp [hx]
    unfold rowPixel
    rw [hg]
    by_cases h1 : x % 2 = 0 <;> by_cases h2 : j % 2 = 0 <;> by_cases h3 : j = x <;> simp [h1, h2, h3] <;> omega
  · have hg : (setPixel row x v).getD (j / 2) 0#8 = row.getD (j / 2) 0#8 := by
      simp only [setPixel, List.getD_eq_getElem?_getD, List.getElem?_modify, hb]
      simp
    have : j ≠ x := fun h => hb (by rw [h])
    unfold rowPixel
    rw [hg]; simp [this]

theorem setPixels_succ (row : List Byte) (x n : Nat) (px : Nat → Nibble) :
    setPixels row x (n + 1) px = setPixel (setPixels row x n px) (x + n) (px n) := by
  simp [setPixels, List.range_succ, List.foldl_append]

@[simp] theorem setPixels_length (row : List Byte) (x n : Nat) (px : Nat → Nibble) :
    (setPixels row x n px).length = row.length := by
  induction n with
  | zero => rfl
  | succ n ih => rw [setPixels_succ, setPixel_length, ih]

/-- What a record's pixel writes leave at every pixel. -/
theorem rowPixel_setPixels (row : List Byte) (x n j : Nat) (px : Nat → Nibble) (h : x + n ≤ 2 * row.length) :
    rowPixel (setPixels row x n px) j = if x ≤ j ∧ j < x + n then px (j - x) else rowPixel row j := by
  induction n with
  | zero => rw [if_neg (by omega)]; rfl
  | succ n ih =>
    rw [setPixels_succ, rowPixel_setPixel _ _ _ _ (by rw [setPixels_length]; omega), ih (by omega)]
    by_cases h1 : j = x + n
    · subst h1; rw [if_pos rfl, if_pos (by omega)]; congr 1; omega
    · rw [if_neg h1]
      by_cases h2 : x ≤ j ∧ j < x + n
      · rw [if_pos h2, if_pos (by omega)]
      · rw [if_neg h2, if_neg (by omega)]

/-- Two packed rows of one length with equal pixels, the pad nibble included, are equal. -/
theorem row_ext (a b : List Byte) (hl : a.length = b.length) (h : ∀ j, j < 2 * a.length → rowPixel a j = rowPixel b j) :
    a = b := by
  apply List.ext_getElem hl
  intro i h1 h2
  have he := h (2 * i) (by omega)
  have ho := h (2 * i + 1) (by omega)
  simp only [rowPixel, show 2 * i % 2 = 0 by omega, show (2 * i + 1) % 2 = 1 by omega,
    show 2 * i / 2 = i by omega, show (2 * i + 1) / 2 = i by omega, List.getD_eq_getElem?_getD,
    List.getElem?_eq_getElem h1, List.getElem?_eq_getElem h2, Option.getD_some, if_true] at he ho
  have : (1 : Nat) ≠ 0 := by omega
  simp only [this, if_false] at ho
  rw [← pack_nibbles a[i], ← pack_nibbles b[i], he, ho]

theorem rowPixel_replicate (n j : Nat) : rowPixel (List.replicate n 0#8) j = 0#4 := by
  have : (List.replicate n 0#8).getD (j / 2) 0#8 = 0#8 := by
    rw [List.getD_eq_getElem?_getD, List.getElem?_replicate]; split <;> rfl
  simp only [rowPixel, this]
  split <;> decide

/-- The pixels of spec/40_pixel_access.md R141 inside W, by the row's bytes. -/
theorem pix_eq_rowPixel (row : List Byte) (w x : Nat) (h : x < w) : pix row w x = rowPixel row x := by
  unfold pix rowPixel
  rw [if_neg (by omega)]
  split
  · next hl =>
    have : row.getD (x / 2) 0#8 = 0#8 := by
      rw [List.getD_eq_getElem?_getD, List.getElem?_eq_none hl]; rfl
    rw [this]; split <;> decide
  · rfl

/-! ### The encoder's loop -/

theorem encodeFrom_done (row : List Byte) (w fuel x : Nat) (h : w ≤ x) : encodeFrom row w fuel x = eolBytes := by
  cases fuel with
  | zero => rfl
  | succ fuel => rw [encodeFrom, if_neg (by omega)]

/-- One turn of the loop of spec/41_row_encoder.md R171, for any sufficient fuel on either side. -/
theorem encodeFrom_turn (row : List Byte) (w fuel fuel' x : Nat) (hx : x < w) (hf : w ≤ x + fuel)
    (hf' : w ≤ x + segmentLength (segmentAt row w x) + fuel') :
    encodeFrom row w fuel x =
      recordBytes (segmentAt row w x) ++ encodeFrom row w fuel' (x + segmentLength (segmentAt row w x)) := by
  induction fuel generalizing x fuel' with
  | zero => omega
  | succ fuel ih =>
    have hb := segment_bounds row w x hx
    rw [encodeFrom, if_pos hx]
    congr 1
    by_cases hd : w ≤ x + segmentLength (segmentAt row w x)
    · rw [encodeFrom_done _ _ _ _ hd, encodeFrom_done _ _ _ _ hd]
    · cases fuel' with
      | zero => omega
      | succ fuel' =>
        have hb2 := segment_bounds row w _ (Nat.lt_of_not_le hd)
        rw [encodeFrom, if_pos (Nat.lt_of_not_le hd)]
        exact ih fuel' _ (Nat.lt_of_not_le hd) (by omega) (by omega)

theorem encodeFrom_fuel (row : List Byte) (w fuel fuel' x : Nat) (hf : w ≤ x + fuel) (hf' : w ≤ x + fuel') :
    encodeFrom row w fuel x = encodeFrom row w fuel' x := by
  by_cases hx : x < w
  · have hb := segment_bounds row w x hx
    rw [encodeFrom_turn row w fuel w x hx hf (by omega), encodeFrom_turn row w fuel' w x hx hf' (by omega)]
  · rw [encodeFrom_done _ _ _ _ (Nat.le_of_not_lt hx), encodeFrom_done _ _ _ _ (Nat.le_of_not_lt hx)]

/-- A segment's record, for a segment the scanner gives, is a well-formed instruction of the stream, encoded by its bytes
(spec/40_pixel_access.md R148, spec/30_encoding.md R111, R112). -/
theorem segmentRecord_spec (row : List Byte) (w x : Nat) (hx : x < w) :
    (segmentRecord (segmentAt row w x)).wf = true ∧
      encode (segmentRecord (segmentAt row w x)) = recordBytes (segmentAt row w x) := by
  cases h : segmentAt row w x with
  | run c p =>
    obtain ⟨h1, h2, -, -⟩ := segment_run row w x hx c p h
    refine ⟨?_, rfl⟩
    simp only [segmentRecord, Instr.wf, bne_iff_ne, ne_eq]
    intro hc
    have := congrArg BitVec.toNat hc
    simp at this; omega
  | single p => exact ⟨by simp [segmentRecord, Instr.wf], rfl⟩
  | literal n data =>
    obtain ⟨h1, ⟨-, h2, -, h4, -, -⟩, -, -⟩ := segment_literal row w x hx n data h
    by_cases hn : n = 1
    · subst hn
      match data, h4 with
      | [d], _ => exact ⟨rfl, by simp [segmentRecord, encode, recordBytes]⟩
    · have hm : (BitVec.ofNat 8 n).toNat = n := by
        rw [BitVec.toNat_ofNat]; omega
      refine ⟨?_, ?_⟩
      · simp only [segmentRecord, hn, if_false, Instr.wf, hm, Bool.and_eq_true, decide_eq_true_eq, beq_iff_eq]
        refine ⟨⟨by omega, h4⟩, ?_⟩
        by_cases hp : data.length % 2 = 1 <;> simp [hp]
      · by_cases hp : data.length % 2 = 1 <;> simp [segmentRecord, hn, encode, recordBytes, hp]

/-- The length of a segment's record: at most 2 bytes a pixel, but for a literal of length 1, which ends the row and has 4; never
more than 130 (spec/40_pixel_access.md R148, spec/41_row_encoder.md R177). -/
theorem recordBytes_bounds (row : List Byte) (w x : Nat) (hx : x < w) :
    2 ≤ (recordBytes (segmentAt row w x)).length ∧ (recordBytes (segmentAt row w x)).length ≤ 130 ∧
      ((recordBytes (segmentAt row w x)).length ≤ 2 * segmentLength (segmentAt row w x) ∨
        (x + segmentLength (segmentAt row w x) = w ∧ (recordBytes (segmentAt row w x)).length = 4 ∧
          segmentLength (segmentAt row w x) = 1)) := by
  cases h : segmentAt row w x with
  | run c p =>
    obtain ⟨h1, h2, h3, -⟩ := segment_run row w x hx c p h
    simp [recordBytes, segmentLength]; omega
  | single p => simp [recordBytes, segmentLength]
  | literal n data =>
    obtain ⟨h1, ⟨a1, a2, a3, a4, a5, a6⟩, -, -⟩ := segment_literal row w x hx n data h
    simp only [recordBytes, segmentLength, List.length_append, List.length_cons, List.length_nil]
    split <;> simp <;> omega

/-- SCAN's RESULT below W as a number, from its fields (spec/10_state.md R44). -/
theorem scanResult_toNat (row : List Byte) (w x : Nat) (hx : x < w) :
    (scanResult row w x).toNat =
      (recordBytes (segmentAt row w x)).length * 65536 + (pix row w x).toNat * 4096 +
        (segmentKind (segmentAt row w x)).toNat * 256 + segmentLength (segmentAt row w x) := by
  obtain ⟨-, r2, -⟩ := recordBytes_bounds row w x hx
  have hb := segment_bounds row w x hx
  have := (pix row w x).isLt
  have := (segmentKind (segmentAt row w x)).isLt
  unfold scanResult; rw [if_neg (by omega)]; unfold scanWord
  rw [BitVec.toNat_append, BitVec.toNat_append, BitVec.toNat_append, BitVec.toNat_append]
  simp only [BitVec.toNat_ofNat]
  rw [← Nat.shiftLeft_add_eq_or_of_lt (by omega), ← Nat.shiftLeft_add_eq_or_of_lt (by omega),
    ← Nat.shiftLeft_add_eq_or_of_lt (by omega), ← Nat.shiftLeft_add_eq_or_of_lt (by omega)]
  simp only [Nat.shiftLeft_eq]; omega

/-- The format of a segment's record. -/
theorem segmentRecord_format (g : Segment) : (segmentRecord g).format = .record false := by
  cases g with
  | run => rfl
  | single => rfl
  | literal n d => simp only [segmentRecord]; split <;> rfl

end Sys2Proof.Machine
end

