-- ==== Sys2Proof/Laws/Hidden.lean ====
section
/-! SUPPORT. The hidden steps of the row codec (spec/10_state.md R50): what one turn of the decoder's loop leaves, and that a turn of
the encoder moves bytes from what is to come into the output. -/

namespace Sys2Proof.Machine

/-! ### Decoder -/

/-- The literal records' length is that of their bytes (spec/30_encoding.md R112). -/
theorem encode_lit_length (n : Byte) (d : List Byte) (pad : Option Byte) (h : (Instr.lit n d pad).wf = true) :
    (encode (.lit n d pad)).length = 2 + literalTrailerBytes n.toNat := by
  simp only [Instr.wf, Bool.and_eq_true, decide_eq_true_eq, beq_iff_eq] at h
  obtain ⟨⟨h1, h2⟩, h3⟩ := h
  simp only [encode, List.length_cons, List.length_append, literalTrailerBytes, literalDataBytes, ← h2]
  cases pad <;> simp at h3 ⊢ <;> omega

/-- What stands at the record offset: a record of the row decoder's, with its length, inside the stream. -/
theorem nextRecord_cases (w : Nat) (stream : List Byte) (wk : Work) (i : Instr) (rest : List Byte)
    (h : nextRecord w stream wk = .ok i rest) :
    (((∃ c v, i = .run c v) ∨ i = .eol ∨ i = .eob) ∧ wk.p + 2 ≤ stream.length) ∨
    ((∃ d pad, i = .lit1 d pad) ∧ wk.p + 4 ≤ stream.length) ∨
    (∃ n d pad, i = .lit n d pad ∧ wk.p + (2 + literalTrailerBytes n.toNat) ≤ stream.length) := by
  have hl : (stream.drop wk.p).length = stream.length - wk.p := List.length_drop
  simp only [nextRecord, decode] at h
  generalize stream.drop wk.p = bytes at h hl
  unfold decodeRecord at h
  split at h
  · next b0 b1 r =>
    simp only [List.length_cons] at hl
    split at h
    · cases h; exact .inl ⟨.inl ⟨_, _, rfl⟩, by omega⟩
    · split at h
      · cases h; exact .inl ⟨.inr (.inl rfl), by omega⟩
      · split at h
        · unfold decodeZeroOne at h
          split at h
          · cases h; exact .inl ⟨.inr (.inr rfl), by omega⟩
          · split at h
            · cases h; simp only [List.length_cons] at hl; exact .inr (.inl ⟨⟨_, _, rfl⟩, by omega⟩)
            · cases h
        · unfold decodeLiteral at h
          split at h
          · cases h
          · cases h; exact .inr (.inr ⟨_, _, _, rfl, by omega⟩)
  · cases h

/-- What one turn keeps: the bounds, the accumulator, the row's length, the codes; and that it ends the decoder or consumes. -/
structure DecodeKeeps (w : Nat) (stream : List Byte) (wk wk' : Work) : Prop where
  x_le : wk'.x ≤ w
  p_le : wk'.p ≤ stream.length
  litLen : wk'.litLen = wk.litLen
  lit : wk'.lit = wk.lit
  out : wk'.out.length = wk.out.length
  notIllegal : wk'.stop ≠ some .illegalOp
  notRange : wk'.stop ≠ some .badRange
  progress : wk'.stop.isSome = true ∨ wk.p + 1 ≤ wk'.p

theorem stopDecoder_keeps (w : Nat) (stream : List Byte) (wk : Work) (e : ErrCode) (hx : wk.x ≤ w)
    (hp : wk.p ≤ stream.length) (h1 : e ≠ .illegalOp) (h2 : e ≠ .badRange) :
    DecodeKeeps w stream wk (stopDecoder e wk) :=
  ⟨hx, hp, rfl, rfl, rfl, fun h => h1 (Option.some.inj h), fun h => h2 (Option.some.inj h), .inl rfl⟩

theorem pixelRecord_keeps (w n len : Nat) (px : Nat → Nibble) (stream : List Byte) (wk : Work) (hx : wk.x ≤ w)
    (hp : wk.p ≤ stream.length) (hs : wk.stop = none) (hl : wk.p + len ≤ stream.length) (h1 : 1 ≤ len) :
    DecodeKeeps w stream wk (pixelRecord w n len px wk) := by
  unfold pixelRecord
  split
  · exact stopDecoder_keeps w stream wk _ hx hp (by simp) (by simp)
  · split
    · exact stopDecoder_keeps w stream wk _ hx hp (by simp) (by simp)
    · exact ⟨by simp; omega, hl, rfl, rfl, by simp, by simp [hs], by simp [hs], .inr (by simp; omega)⟩

/-- What one turn of the decoder's loop leaves (spec/42_row_decoder.md R201). -/
theorem decodeStep_keeps (w : Nat) (stream : List Byte) (wk : Work) (hx : wk.x ≤ w) (hp : wk.p ≤ stream.length)
    (hs : wk.stop = none) : DecodeKeeps w stream wk (decodeStep w stream wk) := by
  unfold decodeStep
  cases hn : nextRecord w stream wk with
  | bad e =>
    cases e <;> simp only [shortRecord] <;> repeat' split
    all_goals exact stopDecoder_keeps w stream wk _ hx hp (by simp) (by simp)
  | ok i rest =>
    rcases nextRecord_cases w stream wk i rest hn with
      ⟨⟨c, v, rfl⟩ | rfl | rfl, hl⟩ | ⟨⟨d, pad, rfl⟩, hl⟩ | ⟨n, d, pad, rfl, hl⟩ <;> simp only [recordEffect]
    · exact pixelRecord_keeps w _ _ _ stream wk hx hp hs hl (by omega)
    · refine ⟨hx, hl, rfl, rfl, rfl, ?_, ?_, .inl rfl⟩ <;> simp only [eolRecord, stopAfterEol] <;> split <;> simp
    · exact stopDecoder_keeps w stream wk _ hx hp (by simp) (by simp)
    · exact pixelRecord_keeps w _ _ _ stream wk hx hp hs hl (by omega)
    · exact pixelRecord_keeps w _ _ _ stream wk hx hp hs hl (by omega)

theorem decodeLoop_stopped (w : Nat) (stream : List Byte) (f : Nat) (wk : Work) (h : wk.stop.isSome = true) :
    decodeLoop w stream f wk = wk := by
  cases f <;> simp [decodeLoop, h]

/-- The decoder's answer does not depend on the fuel, once there is enough. -/
theorem decodeLoop_fuel (w : Nat) (stream : List Byte) (f f' : Nat) (wk : Work) (hx : wk.x ≤ w)
    (hp : wk.p ≤ stream.length) (hf : stream.length + 1 ≤ wk.p + f) (hf' : stream.length + 1 ≤ wk.p + f') :
    decodeLoop w stream f wk = decodeLoop w stream f' wk := by
  induction f generalizing f' wk with
  | zero => omega
  | succ f ih =>
    cases f' with
    | zero => omega
    | succ f' =>
      unfold decodeLoop
      split
      · rfl
      · next hs =>
        have k := decodeStep_keeps w stream wk hx hp (by simpa using hs)
        rcases k.progress with h | h
        · rw [decodeLoop_stopped _ _ _ _ h, decodeLoop_stopped _ _ _ _ h]
        · exact ih f' _ k.x_le k.p_le (by omega) (by omega)

/-- Where the decoder's loop ends: inside the stream, with a code of spec/60_exceptions.md R282. -/
theorem decodeLoop_bounds (w : Nat) (stream : List Byte) (f : Nat) (wk : Work) (hx : wk.x ≤ w)
    (hp : wk.p ≤ stream.length) (h1 : wk.stop ≠ some .illegalOp) (h2 : wk.stop ≠ some .badRange) :
    (decodeLoop w stream f wk).p ≤ stream.length ∧ (decodeLoop w stream f wk).stop ≠ some .illegalOp ∧
      (decodeLoop w stream f wk).stop ≠ some .badRange := by
  induction f generalizing wk with
  | zero => exact ⟨hp, h1, h2⟩
  | succ f ih =>
    unfold decodeLoop
    split
    · exact ⟨hp, h1, h2⟩
    · next hs =>
      have k := decodeStep_keeps w stream wk hx hp (by simpa using hs)
      exact ih _ k.x_le k.p_le k.notIllegal k.notRange

/-! ### Encoder -/

/-- The accumulator of a working state, as the invariant has it: in bounds, odd only at the row's end, one byte a pair. -/
def AccBounds (w x n : Nat) (data : List Byte) : Prop :=
  x + n ≤ w ∧ n ≤ 255 ∧ (n % 2 = 1 → x + n = w) ∧ data.length = literalDataBytes n

theorem AccBounds_nil (w x : Nat) (hx : x ≤ w) : AccBounds w x 0 [] := ⟨by omega, by omega, by omega, rfl⟩

theorem AccBounds_step (row : List Byte) (w x n d : Nat) (data : List Byte) (b : Byte) (h : AccBounds w x n data)
    (ht : literalTurn row w x n = some (d, b)) : AccBounds w x (n + d) (data ++ [b]) := by
  obtain ⟨h1, h2, h3, h4⟩ := h
  have he : n % 2 = 0 := by
    by_contra hc
    have := h3 (by omega)
    rw [literalTurn_none_of_end row w x n (by omega)] at ht; cases ht
  unfold literalDataBytes at h4
  rcases literalTurn_some row w x n d b ht with h | h
  · exact ⟨by omega, by omega, by omega, by unfold literalDataBytes; simp; omega⟩
  · exact ⟨by omega, by omega, by omega, by unfold literalDataBytes; simp; omega⟩

theorem literalOrSingle_bounds (row : List Byte) (w x : Nat) (acc : Nat × List Byte) (hx : x < w)
    (h : AccBounds w x acc.1 acc.2) :
    1 ≤ segmentLength (literalOrSingle row w x acc) ∧ x + segmentLength (literalOrSingle row w x acc) ≤ w := by
  unfold literalOrSingle
  split
  · exact ⟨by assumption, h.1⟩
  · simp [segmentLength]; omega

/-- The segment an accumulator in bounds ends in makes progress and stays in the row. -/
theorem literalSegment_progress (row : List Byte) (w x n : Nat) (data : List Byte) (hx : x < w)
    (h : AccBounds w x n data) :
    1 ≤ segmentLength (literalSegment row w x n data) ∧ x + segmentLength (literalSegment row w x n data) ≤ w :=
  literalOrSingle_bounds row w x _ hx (literalFrom_induct row w x (AccBounds w x)
    (fun n data d b hh ht => AccBounds_step row w x n d data b hh ht) 256 n data h)

/-- A turn of the literal loop does not change the segment it ends in. -/
theorem literalSegment_turn (row : List Byte) (w x n d : Nat) (data : List Byte) (b : Byte)
    (h : literalTurn row w x n = some (d, b)) :
    literalSegment row w x (n + d) (data ++ [b]) = literalSegment row w x n data := by
  unfold literalSegment
  congr 1
  rw [literalFrom_fuel row w x 254 (n + d) (data ++ [b]) (by omega)]
  conv_rhs => unfold literalFrom
  rw [h]

/-- A hidden step of the encoder moves bytes from what is to come into the output, and keeps the accumulator in bounds. -/
theorem encodeStep_spec (row : List Byte) (w : Nat) (wk : Work) (h : AccBounds w wk.x wk.litLen wk.lit) :
    (encodeStep row w wk).out ++ encodeRest row w (encodeStep row w wk) = wk.out ++ encodeRest row w wk ∧
      AccBounds w (encodeStep row w wk).x (encodeStep row w wk).litLen (encodeStep row w wk).lit ∧
      (encodeStep row w wk).p = wk.p ∧ (encodeStep row w wk).stop = wk.stop := by
  unfold encodeStep
  by_cases hw : w ≤ wk.x
  · rw [if_pos hw]; exact ⟨rfl, h, rfl, rfl⟩
  rw [if_neg hw]
  have hx : wk.x < w := by omega
  by_cases hr : wk.litLen = 0 ∧ 2 ≤ runCount row w wk.x
  · rw [if_pos hr]
    have hb := segment_bounds row w wk.x hx
    refine ⟨?_, AccBounds_nil _ _ hb.2.2, rfl, rfl⟩
    unfold encodeRest
    simp only [emitSegment, true_or, if_true, hr.1]
    rw [encodeFrom_turn row w (w - wk.x) (w - (wk.x + segmentLength (segmentAt row w wk.x))) wk.x hx (by omega)
      (by omega)]
    simp
  rw [if_neg hr]
  have hp := literalSegment_progress row w wk.x _ _ hx h
  have hrest : encodeRest row w wk = recordBytes (literalSegment row w wk.x wk.litLen wk.lit) ++
      encodeFrom row w w (wk.x + segmentLength (literalSegment row w wk.x wk.litLen wk.lit)) := by
    unfold encodeRest
    by_cases h0 : wk.litLen = 0
    · rw [if_pos (.inl h0)]
      have hl : wk.lit = [] := by
        have := h.2.2.2; rw [h0] at this; simpa [literalDataBytes] using this
      have hs : segmentAt row w wk.x = literalSegment row w wk.x wk.litLen wk.lit := by
        rw [h0, hl]; unfold segmentAt; rw [if_neg (fun h => hr ⟨h0, h⟩)]
      rw [encodeFrom_turn row w _ w wk.x hx (by omega) (by omega), hs]
    · rw [if_neg (by omega)]
      simp only []
      rw [encodeFrom_fuel row w (w - wk.x) w _ (by omega) (by omega)]
  cases ht : literalTurn row w wk.x wk.litLen with
  | some db =>
    obtain ⟨d, b⟩ := db
    refine ⟨?_, AccBounds_step row w wk.x _ d _ b h ht, rfl, rfl⟩
    simp only []
    congr 1
    rw [hrest]
    have hd : d ≠ 0 := by rcases literalTurn_some row w _ _ d b ht with h | h <;> omega
    unfold encodeRest
    simp only []
    rw [if_neg (by omega), literalSegment_turn row w wk.x _ d _ b ht,
      encodeFrom_fuel row w (w - wk.x) w _ (by omega) (by omega)]
  | none =>
    have hls : literalSegment row w wk.x wk.litLen wk.lit = literalOrSingle row w wk.x (wk.litLen, wk.lit) := by
      unfold literalSegment; rw [literalFrom_of_none _ _ _ _ _ _ ht]
    rw [hrest]
    rw [hls] at hp ⊢
    refine ⟨?_, AccBounds_nil _ _ hp.2, rfl, rfl⟩
    unfold encodeRest
    simp only [emitSegment, true_or, if_true]
    rw [encodeFrom_fuel row w (w - (wk.x + segmentLength (literalOrSingle row w wk.x (wk.litLen, wk.lit)))) w _
      (by omega) (by omega)]
    simp

/-- The completion of an output command does not see the working state it ends. -/
theorem finishOutput_setWork (sn sn' : Snap) (wk : Work) (s : State) (o : Output) :
    finishOutput sn o (noteSlice sn (setWork sn' wk s)) = finishOutput sn o (noteSlice sn s) := by
  have h : sliceWritten sn (setWork sn' wk s) = sliceWritten sn s := sliceWritten_congr _ _ _ rfl
  have h2 : noteSlice sn (setWork sn' wk s) = { noteSlice sn s with engine := .busy sn' (some wk) } := by
    simp only [noteSlice, h]; rfl
  rw [h2]
  simp only [finishOutput, complete, writeConsumed, writeOutput, writeBuffer, memory, setMemory]
  cases o.consumed <;> rfl

/-- Pixel x of the slice is pixel x of the row the slice makes (spec/40_pixel_access.md R141). -/
theorem pix_inputSlice (sn : Snap) (s : State) (x : Nat) : pix (inputSlice sn s) sn.w.toNat x = slicePixel sn s x := by
  unfold pix slicePixel
  rw [inputSlice_length]
  split
  · rfl
  · split
    · rfl
    · have : (inputSlice sn s).getD (x / 2) 0#8 = bufferByte s .inBuf (sn.off.toNat + x / 2) := by
        rw [List.getD_eq_getElem?_getD]; simp only [inputSlice, List.getElem?_map]
        rw [List.getElem?_range (by omega)]; rfl
      rw [this]

/-- The working state with which a command begins is in order. -/
theorem beginWork_ok (sn : Snap) : Work.Ok sn (beginWork sn) := by
  refine ⟨by simp [beginWork], by simp [beginWork], by simp [beginWork], by simp [beginWork], by simp [beginWork],
    by simp [beginWork, literalDataBytes], by simp [beginWork], ?_, by simp [beginWork], by simp [beginWork]⟩
  intro h; simp [beginWork, h]

end Sys2Proof.Machine
end

