-- ==== Sys2Proof/Laws/Host.lean ====
section
/-! SUPPORT. What a host access comes to, by where it lands (spec/20_memory.md R71 to R78). -/

namespace Sys2Proof.Machine

/-- An access inside the window. -/
theorem hostAccess_window (s : State) (off : Nat) (width : Width) (op : BusOp) (h : off < 0x40000) :
    hostAccess ⟨s.params.base + off, width, op⟩ s = windowAccess s off width op := by
  unfold hostAccess
  rw [if_pos (by simp [inWindow, windowSize, h])]
  simp

/-- A 32-bit access to a register. -/
theorem hostAccess_reg (s : State) (r : Reg) (op : BusOp) :
    hostAccess (regAccess s.params r op) s =
      match op with
      | .read => { s with resp := .data (regRead s r) }
      | .write v => { regWrite s v r with resp := .written } := by
  have h0 : regOffset r < 0x40000 := by cases r <;> decide
  have h1 : regionAt s.params (regOffset r) = .register (regOffset r) := by cases r <;> rfl
  have h2 : regAt (regOffset r) = some r := by cases r <;> rfl
  have h3 : supported (.register (regOffset r)) .b32 (regOffset r) = true := by cases r <;> rfl
  rw [regAccess, hostAccess_window _ _ _ _ h0]
  unfold windowAccess
  simp only [h1, h3, if_true]
  cases op with
  | read => simp [readValue, h2, readDraws]
  | write v => simp [writeValue, h2]

/-- A supported width and its bytes. -/
theorem widthBytes_cases (width : Width) (n : Nat) (h : widthBytes width = some n) : n = 1 ∨ n = 2 ∨ n = 4 := by
  cases width <;> simp [widthBytes] at h <;> omega

/-- The places of the buffers in the window, and that an aligned access to one is supported. -/
theorem regionAt_buffer (p : Params) (off n : Nat) (width : Width) (hp : p.Valid) (hw : widthBytes width = some n)
    (hn : off % n = 0) :
    (off < p.inCap → regionAt p (0x10000 + off) = .buffer .inBuf off ∧
      supported (.buffer .inBuf off) width (0x10000 + off) = true) ∧
    (off < p.outCap → regionAt p (0x20000 + off) = .buffer .outBuf off ∧
      supported (.buffer .outBuf off) width (0x20000 + off) = true) := by
  obtain ⟨p1, p2, p3, p4, p5, p6, p7⟩ := hp
  have hn' := widthBytes_cases width n hw
  constructor
  · intro h
    constructor
    · unfold regionAt inBufStart; rw [if_neg (by omega), if_pos (by omega), Nat.add_sub_cancel_left]
    · simp only [supported, hw]; rcases hn' with rfl | rfl | rfl <;> simp <;> omega
  · intro h
    constructor
    · unfold regionAt inBufStart outBufStart
      rw [if_neg (by omega), if_neg (by omega), if_pos (by omega), Nat.add_sub_cancel_left]
    · simp only [supported, hw]; rcases hn' with rfl | rfl | rfl <;> simp <;> omega

/-- A supported access to a buffer stays in it: the capacities are multiples of 4 (spec/20_memory.md R76). -/
theorem supported_buffer_bound (p : Params) (off o n : Nat) (buf : Buffer) (width : Width) (hp : p.Valid)
    (hw : widthBytes width = some n) (hr : regionAt p off = .buffer buf o)
    (hs : supported (.buffer buf o) width off = true) :
    (buf = .inBuf → o + n ≤ p.inCap) ∧ (buf = .outBuf → o + n ≤ p.outCap) := by
  obtain ⟨p1, p2, p3, p4, p5, p6, p7⟩ := hp
  have hn' := widthBytes_cases width n hw
  simp only [supported, hw, beq_iff_eq] at hs
  unfold regionAt inBufStart outBufStart at hr
  split at hr
  · cases hr
  · split at hr
    · cases hr; refine ⟨fun _ => ?_, by simp⟩; rcases hn' with rfl | rfl | rfl <;> omega
    · split at hr
      · cases hr; refine ⟨by simp, fun _ => ?_⟩; rcases hn' with rfl | rfl | rfl <;> omega
      · cases hr

theorem memory_setMemory_same (s : State) (b : Buffer) (m : Memory) : memory (setMemory s b m) b = m := by
  cases b <;> rfl

theorem memory_setMemory_other (s : State) (b b' : Buffer) (m : Memory) (h : b' ≠ b) :
    memory (setMemory s b m) b' = memory s b' := by
  cases b <;> cases b' <;> first | rfl | exact absurd rfl h

/-- A little-endian value is the sum of its bytes at rising powers of 256 (spec/20_memory.md R77). -/
theorem wordOfLittle_toNat (l : List Byte) (h : l.length ≤ 4) :
    (wordOfLittle l).toNat = ((List.range l.length).map fun i => (l.getD i 0#8).toNat * 2 ^ (8 * i)).sum ∧
      (wordOfLittle l).toNat < 2 ^ (8 * l.length) := by
  induction l with
  | nil => simp [wordOfLittle]
  | cons b l ih =>
    simp only [List.length_cons] at h
    obtain ⟨h1, h2⟩ := ih (by omega)
    have hb := b.isLt
    have hx : (wordOfLittle l).toNat < 2 ^ 24 := by
      have : 2 ^ (8 * l.length) ≤ 2 ^ 24 := Nat.pow_le_pow_right (by omega) (by omega)
      omega
    have e : (wordOfLittle (b :: l)).toNat = (wordOfLittle l).toNat * 256 + b.toNat := by
      show ((wordOfLittle l <<< 8) ||| b.setWidth 32).toNat = _
      rw [BitVec.toNat_or, BitVec.toNat_shiftLeft, BitVec.toNat_setWidth,
        Nat.mod_eq_of_lt (by rw [Nat.shiftLeft_eq]; omega), Nat.mod_eq_of_lt (by omega),
        ← Nat.shiftLeft_add_eq_or_of_lt (by omega), Nat.shiftLeft_eq]
    rw [e]
    refine ⟨?_, ?_⟩
    · rw [h1, List.length_cons, List.range_succ_eq_map, List.map_cons, List.sum_cons, List.map_map]
      simp only [List.getD_cons_zero, Nat.mul_zero, Nat.pow_zero, Nat.mul_one, Function.comp_def, List.getD_cons_succ,
        Nat.succ_eq_add_one]
      rw [Nat.add_comm, ← List.sum_map_mul_right]
      congr 2
      apply List.map_congr_left
      intro i _
      rw [show 8 * (i + 1) = 8 * i + 8 by omega, Nat.pow_add, Nat.mul_assoc]
    · simp only [List.length_cons]
      rw [show 8 * (l.length + 1) = 8 * l.length + 8 by omega, Nat.pow_add]; omega

end Sys2Proof.Machine
end

