-- ==== Sys2Proof/Machine/HostAgent.lean ====
section
/-! DEFINITION. The host as an agent (spec/00_scope.md R16, spec/20_memory.md R88 to R90): it runs a host assembly program beside the
machine, one access at a time, taking the values it reads into account. The machine sees only its accesses (log 16). -/

namespace Sys2Proof.Machine

/-- The host: its program, the line it is at, how many of that line's accesses it has made, and the values it has named. -/
structure HostAgent where
  program : List HostLine
  line : Nat
  made : Nat
  env : HostEnv
  deriving DecidableEq, Repr

/-- The host at the first line of a program. -/
def HostAgent.start (program : List HostLine) : HostAgent := ⟨program, 0, 0, []⟩

/-- Where a label stands; a label that stands nowhere is past the last line (DESIGN CHOICE, log 16). -/
def labelLine (program : List HostLine) (l : HostName) : Nat := program.findIdx fun line => line == .label l

/-- A line of the host's own processor, or one with no access left: no bus access (spec/30_encoding.md R125). -/
def HostAgent.quiet (h : HostAgent) : HostLine → HostAgent
  | .assign x v => { h with line := h.line + 1, made := 0, env := (x, v.eval h.env) :: h.env }
  | .branch c target =>
    { h with line := if c.holds h.env then labelLine h.program target else h.line + 1, made := 0 }
  | .label _ | .wr _ _ | .rd _ _ | .wb _ _ | .ww _ _ | .rbOut _ _ | .rbIn _ _ | .start _ | .cmd _ =>
    { h with line := h.line + 1, made := 0 }

/-- The values after a response: a read that returned data gives its name the value. One that got a bus error, or the platform's answer
from outside the window, leaves the name the value it had (DESIGN CHOICE, log 23). -/
def named (into : Option HostName) (r : Response) (env : HostEnv) : HostEnv :=
  match into, r with
  | some x, .data v => (x, v.toNat) :: env
  | _, _ => env

/-- The host after one access of a line of n accesses, with the response it got. It goes on whatever the response is: what a host does
after a bus error, or an answer from outside the window, spec/20_memory.md R71, R78 and spec/60_exceptions.md R293 leave to the
platform (DESIGN CHOICE, log 23). -/
def HostAgent.receive (h : HostAgent) (line : HostLine) (n : Nat) (r : Response) : HostAgent :=
  { h with
    line := if h.made + 1 < n then h.line else h.line + 1
    made := if h.made + 1 < n then h.made + 1 else 0
    env := named line.into r h.env }

/-- The host and the block. -/
structure HostSystem where
  host : HostAgent
  machine : State
  deriving DecidableEq, Repr

/-- Whose turn it is (spec/20_memory.md R83); which turns come is the run's choice (spec/10_state.md R49). -/
inductive Turn where
  | host
  | work
  | complete
  | reset
  deriving DecidableEq, Repr

/-- One event given to the machine's step, before what its own schedule holds. -/
def deliver (e : Event) (s : State) : Outcome := step { s with schedule := e :: s.schedule }

/-- A machine's outcome as the system's, the host being what it makes of the next state. -/
def inSystem (host : State → HostAgent) : Outcome → Host.Outcome HostSystem Fault Refusal
  | .next t => .next ⟨host t, t⟩
  | .fault f => .fault f
  | .refused r => .refused r

/-- The host's turn: the next access of its line, or its line's own work; past the last line nothing. -/
def hostTurn (y : HostSystem) : Host.Outcome HostSystem Fault Refusal :=
  match y.host.program[y.host.line]? with
  | none => .next y
  | some line =>
    let accesses := lineAccesses y.machine.params y.host.env line
    match accesses[y.host.made]? with
    | none => .next { y with host := y.host.quiet line }
    | some a => inSystem (fun t => y.host.receive line accesses.length t.resp) (deliver (.host a) y.machine)

/-- One turn of the system. A reset is the block's: the host stays where it is (DESIGN CHOICE, log 24). -/
def systemTurn (y : HostSystem) : Turn → Host.Outcome HostSystem Fault Refusal
  | .host => hostTurn y
  | .work => inSystem (fun _ => y.host) (deliver .work y.machine)
  | .complete => inSystem (fun _ => y.host) (deliver .complete y.machine)
  | .reset => inSystem (fun _ => y.host) (deliver .reset y.machine)

/-- A run of the system, turn by turn. -/
def systemRun (y : HostSystem) : List Turn → Host.Outcome HostSystem Fault Refusal
  | [] => .next y
  | t :: turns =>
    match systemTurn y t with
    | .next y' => systemRun y' turns
    | .fault f => .fault f
    | .refused r => .refused r

/-- The end of a host program (spec/20_memory.md R89): its last line has been executed and the block is IDLE. -/
def programOver (y : HostSystem) : Bool := decide (y.host.program.length ≤ y.host.line) && !busy y.machine

end Sys2Proof.Machine
end

