-- ==== Sys2Proof/Laws/HostAgent.lean ====
section
/-! SUPPORT. What a turn of the host agent can do (spec/30_encoding.md R125, R128), and when WAIT ends. -/

namespace Sys2Proof.Machine

/-- An access the host makes is the block's host access, unless the machine has stopped. -/
theorem deliver_host (a : Access) (s : State) (h : s.faults.busyWrite = false) :
    deliver (.host a) s = .next (hostAccess a s) := by
  simp [deliver, step, h, turn, runEvent]

theorem inSystem_next (host : State → HostAgent) (o : Outcome) (y : HostSystem) (h : inSystem host o = .next y) :
    o = .next y.machine ∧ y.host = host y.machine := by
  cases o <;> simp [inSystem] at h
  subst h
  exact ⟨rfl, rfl⟩

/-- The host's turn leaves the machine as it is, or gives it one access. -/
theorem hostTurn_machine (y y' : HostSystem) (h : hostTurn y = .next y') :
    y'.machine = y.machine ∨ ∃ a, deliver (.host a) y.machine = .next y'.machine := by
  unfold hostTurn at h
  split at h
  · cases h; exact .inl rfl
  · simp only [] at h
    split at h
    · cases h; exact .inl rfl
    · exact .inr ⟨_, (inSystem_next _ _ _ h).1⟩

/-- A turn leaves the machine as it is, or gives it one event. -/
theorem systemTurn_machine (y y' : HostSystem) (t : Turn) (h : systemTurn y t = .next y') :
    y'.machine = y.machine ∨ ∃ e, deliver e y.machine = .next y'.machine := by
  cases t with
  | host => exact (hostTurn_machine y y' h).imp_right fun ⟨a, ha⟩ => ⟨_, ha⟩
  | work => exact .inr ⟨_, (inSystem_next _ _ _ h).1⟩
  | complete => exact .inr ⟨_, (inSystem_next _ _ _ h).1⟩
  | reset => exact .inr ⟨_, (inSystem_next _ _ _ h).1⟩

theorem statusWord_done (s : State) : (statusWord s).toNat / 2 % 2 = s.status.done.toNat := by
  unfold statusWord
  generalize busy s = a
  generalize s.status.done = b
  generalize s.status.ovf = c
  generalize s.status.haz = d
  generalize s.status.err = e
  revert a b c d
  cases e <;> decide

/-- WAIT polls again exactly while the STATUS it read has DONE = 0 (spec/30_encoding.md R128). -/
theorem wait_repeats_iff (x : HostName) (s : State) (env : HostEnv) :
    HostCond.holds ((x, (statusWord s).toNat) :: env) (.eq (.bits (.name x) 1 1) (.lit 0)) = !s.status.done := by
  have h := statusWord_done s
  simp only [HostCond.holds, HostExpr.eval, HostEnv.get, if_true, Nat.pow_one, Nat.add_sub_cancel, h]
  cases s.status.done <;> rfl

end Sys2Proof.Machine
end

