-- ==== Sys2Proof/Laws/PerInstr.lean ====
section
/-! SUPPORT. Statements about every instruction as syntax, one lemma per constructor. -/

namespace Sys2Proof.Laws.EncodingShape

/-- The bytes an instruction has (spec/30_encoding.md R100, R110, R120). -/
def size : Instr → Nat
  | .nop | .getpix | .hasrep | .scan | .encRow | .decRow | .emitEob | .brleEnc | .brleDec | .illegal _ => 4
  | .run _ _ | .eol | .eob => 2
  | .lit1 _ _ => 4
  | .lit n _ _ => 2 + (n.toNat + 1) / 2 + (n.toNat + 1) / 2 % 2
  | .rawLo _ | .rawHi _ => 1
  | .ctrl _ _ | .esc _ => 2

/-- A well-formed instruction is encoded in as many bytes as its kind has, and a command or a record in an even number
(spec/30_encoding.md R100, R110, R113, R120). -/
def Statement (i : Instr) : Prop :=
  i.wf = true → (encode i).length = size i ∧ (i.format ≠ .item → (encode i).length % 2 = 0)

theorem nop : Statement .nop := fun _ => ⟨rfl, fun _ => rfl⟩
theorem getpix : Statement .getpix := fun _ => ⟨rfl, fun _ => rfl⟩
theorem hasrep : Statement .hasrep := fun _ => ⟨rfl, fun _ => rfl⟩
theorem scan : Statement .scan := fun _ => ⟨rfl, fun _ => rfl⟩
theorem encRow : Statement .encRow := fun _ => ⟨rfl, fun _ => rfl⟩
theorem decRow : Statement .decRow := fun _ => ⟨rfl, fun _ => rfl⟩
theorem emitEob : Statement .emitEob := fun _ => ⟨rfl, fun _ => rfl⟩
theorem brleEnc : Statement .brleEnc := fun _ => ⟨rfl, fun _ => rfl⟩
theorem brleDec : Statement .brleDec := fun _ => ⟨rfl, fun _ => rfl⟩
theorem illegal (word : Word) : Statement (.illegal word) := fun _ => ⟨rfl, fun _ => by simp [encode, bytesOfWord]⟩
theorem run (count value : Byte) : Statement (.run count value) := fun _ => ⟨rfl, fun _ => by simp [encode]⟩
theorem eol : Statement .eol := fun _ => ⟨rfl, fun _ => rfl⟩
theorem eob : Statement .eob := fun _ => ⟨rfl, fun _ => rfl⟩
theorem lit1 (data pad : Byte) : Statement (.lit1 data pad) := fun _ => ⟨rfl, fun _ => by simp [encode]⟩
theorem lit (length : Byte) (data : List Byte) (pad : Option Byte) : Statement (.lit length data pad) := by
  intro h
  rw [Machine.encode_lit_length length data pad h]
  refine ⟨?_, fun _ => ?_⟩ <;> simp only [size, literalTrailerBytes, literalDataBytes] <;> omega
theorem rawLo (x : BitVec 7) : Statement (.rawLo x) := fun _ => ⟨rfl, fun h => absurd rfl h⟩
theorem rawHi (x : BitVec 6) : Statement (.rawHi x) := fun _ => ⟨rfl, fun h => absurd rfl h⟩
theorem ctrl (n : BitVec 6) (d : Byte) : Statement (.ctrl n d) := fun _ => ⟨rfl, fun h => absurd rfl h⟩
theorem esc (d : BitVec 6) : Statement (.esc d) := fun _ => ⟨rfl, fun h => absurd rfl h⟩

end Sys2Proof.Laws.EncodingShape
end

