-- ==== Sys2Proof/Laws/Words.lean ====
section
/-! SUPPORT. Words and bytes: a command word and its four little-endian bytes (spec/20_memory.md R75), and the two fields of
spec/30_encoding.md R100. -/

namespace Sys2Proof

theorem wordOfBytes_toNat (b0 b1 b2 b3 : Byte) :
    (wordOfBytes b0 b1 b2 b3).toNat = b0.toNat + 256 * b1.toNat + 65536 * b2.toNat + 16777216 * b3.toNat := by
  have := b0.isLt; have := b1.isLt; have := b2.isLt
  simp only [wordOfBytes]
  rw [BitVec.toNat_append, BitVec.toNat_append, BitVec.toNat_append, ← Nat.shiftLeft_add_eq_or_of_lt (by omega),
    ← Nat.shiftLeft_add_eq_or_of_lt (by omega), ← Nat.shiftLeft_add_eq_or_of_lt (by omega)]
  simp only [Nat.shiftLeft_eq]; omega

/-- A word's bytes make the word again. -/
theorem wordOfBytes_extract (w : Word) :
    wordOfBytes (w.extractLsb' 0 8) (w.extractLsb' 8 8) (w.extractLsb' 16 8) (w.extractLsb' 24 8) = w := by
  apply BitVec.eq_of_toNat_eq
  have := w.isLt
  rw [wordOfBytes_toNat]
  simp only [BitVec.extractLsb'_toNat, Nat.shiftRight_eq_div_pow]; omega

/-- The bytes of a word made of four bytes are those bytes. -/
theorem bytesOfWord_wordOfBytes (b0 b1 b2 b3 : Byte) : bytesOfWord (wordOfBytes b0 b1 b2 b3) = [b0, b1, b2, b3] := by
  have h := wordOfBytes_toNat b0 b1 b2 b3
  have := b0.isLt; have := b1.isLt; have := b2.isLt; have := b3.isLt
  simp only [bytesOfWord, List.cons.injEq, and_true]
  refine ⟨?_, ?_, ?_, ?_⟩ <;> apply BitVec.eq_of_toNat_eq <;>
    simp only [BitVec.extractLsb'_toNat, h, Nat.shiftRight_eq_div_pow] <;> omega

/-- A word from its fields OP and RSV. -/
theorem word_fields (w : Word) : w.toNat = (w.extractLsb' 0 4).toNat + 16 * (w.extractLsb' 4 28).toNat := by
  have := w.isLt
  simp only [BitVec.extractLsb'_toNat, Nat.shiftRight_eq_div_pow]; omega

/-- A word above 8 is illegal (spec/30_encoding.md R100). -/
theorem decodeCommand_of_gt (w : Word) (h : 8 < w.toNat) : decodeCommand w = .illegal w := by
  have hf := word_fields w
  unfold decodeCommand
  split
  · next h0 =>
    rw [h0] at hf
    simp only [BitVec.toNat_ofNat] at hf
    split <;> first | rfl | omega
  · rfl

/-- A legal word is one of the nine of spec/30_encoding.md R101. -/
theorem word_of_le (w : Word) (h : w.toNat ≤ 8) : ∃ k, k ≤ 8 ∧ w = BitVec.ofNat 32 k := ⟨w.toNat, h, by simp⟩

/-- What a command word decodes to is read in the command format. -/
theorem decodeCommand_format (w : Word) : (decodeCommand w).format = .command := by
  unfold decodeCommand
  split
  · split <;> rfl
  · rfl

end Sys2Proof

namespace Sys2Proof.Machine

/-- The fields of STATUS as a number (spec/10_state.md R36). -/
theorem statusWord_toNat (s : State) : (statusWord s).toNat =
    (busy s).toNat + 2 * s.status.done.toNat + 4 * s.status.ovf.toNat + 8 * s.status.haz.toNat +
      16 * (errNumber s.status.err).toNat := by
  unfold statusWord
  generalize busy s = a; generalize s.status.done = b; generalize s.status.ovf = c; generalize s.status.haz = d
  generalize s.status.err = e
  revert a b c d; cases e <;> decide

end Sys2Proof.Machine
end

