-- ==== Sys2Proof/Tests/Slice0.lean ====
section
/-! SUPPORT. The model's own tests: ill-formed terms, words written out from spec/30_encoding.md, single steps from the vectors of
spec/95_test_vectors.md, and one witness for every statement that has hypotheses. -/

namespace Sys2Proof.Tests

open Sys2Proof Sys2Proof.Machine

/-! ### Small states -/

/-- The parameters of the tests. -/
def small : Params := ⟨0, 16, 16⟩

/-- After reset, with these bytes written to IN_BUF from offset 0. -/
def loaded (bytes : List Byte) : State := writeBuffer (State.resetWith small) .inBuf 0 bytes

/-- The operand registers set for the slice of these bytes. -/
def ready (bytes : List Byte) (w x ptr : Word) (p : Profile) : State :=
  { loaded bytes with
    width := w, pixX := x, inLen := BitVec.ofNat 32 bytes.length, outPtr := ptr, config := ⟨p, false⟩ }

/-- The command in flight on that slice. -/
def flight (op : Word) (bytes : List Byte) (w x ptr : Word) (p : Profile) : State := startCommand op (ready bytes w x ptr p)

/-- Its operands. -/
def snapOf (op : Word) (bytes : List Byte) (w x ptr : Word) (p : Profile) : Snap := captureSnap op (ready bytes w x ptr p)

/-- What a host can see of a next state: the bytes OUT_BUF holds from `ptr` on, OUT_LEN of them, then OUT_LEN, OUT_PTR, CONSUMED
and STATUS. -/
def seenOut (ptr : Nat) : Outcome → Option (List (Option Byte) × Nat × Nat × Nat × Word)
  | .next t => some ((List.range t.outLen.toNat).map fun i => Memory.get? t.outBuf (ptr + i), t.outLen.toNat, t.outPtr.toNat,
      t.consumed.toNat, statusWord t)
  | .fault _ => none
  | .refused _ => none

/-- RESULT and STATUS of a next state. -/
def seenResult : Outcome → Option (Word × Word)
  | .next t => some (t.result, statusWord t)
  | .fault _ => none
  | .refused _ => none

/-- The working state of a next state. -/
def seenWork : Outcome → Option (Nat × Nat × List Byte × Option ErrCode)
  | .next t => match t.engine with
    | .busy _ (some wk) => some (wk.x, wk.p, wk.out, wk.stop)
    | _ => none
  | .fault _ => none
  | .refused _ => none

/-- A hidden step as the next event. -/
def working (s : State) : State := { s with schedule := [.work] }

/-! ### WellFormed refuses -/

theorem test_wf_illegal_refuses_a_legal_word : (Instr.illegal 0x8#32).wf = false := by decide
theorem test_wf_run_refuses_count_zero : (Instr.run 0x00#8 0x55#8).wf = false := by decide
theorem test_wf_lit_refuses_length_one : (Instr.lit 0x01#8 [0x70#8] (some 0x00#8)).wf = false := by decide
theorem test_wf_lit_refuses_missing_data : (Instr.lit 0x03#8 [0x12#8] none).wf = false := by decide
theorem test_wf_lit_refuses_missing_pad : (Instr.lit 0x02#8 [0x12#8] none).wf = false := by decide
theorem test_wf_lit_refuses_extra_pad : (Instr.lit 0x04#8 [0x12#8, 0x34#8] (some 0x00#8)).wf = false := by decide
theorem test_wf_ctrl_refuses_the_escape : (Instr.ctrl 0x01#6 0xC0#8).wf = false := by decide
theorem test_wf_accepts :
    (Instr.illegal 0x9#32).wf = true ∧ (Instr.run 0x01#8 0x55#8).wf = true ∧
    (Instr.lit 0x02#8 [0x12#8] (some 0x00#8)).wf = true ∧ (Instr.ctrl 0x01#6 0xBF#8).wf = true := by decide

/-! ### Words written out from the encoding tables -/

/-- spec/30_encoding.md R101. -/
theorem test_decode_commands :
    decode .command [0x00#8, 0x00#8, 0x00#8, 0x00#8] = .ok .nop [] ∧
    decode .command [0x01#8, 0x00#8, 0x00#8, 0x00#8] = .ok .getpix [] ∧
    decode .command [0x02#8, 0x00#8, 0x00#8, 0x00#8] = .ok .hasrep [] ∧
    decode .command [0x03#8, 0x00#8, 0x00#8, 0x00#8] = .ok .scan [] ∧
    decode .command [0x04#8, 0x00#8, 0x00#8, 0x00#8] = .ok .encRow [] ∧
    decode .command [0x05#8, 0x00#8, 0x00#8, 0x00#8] = .ok .decRow [] ∧
    decode .command [0x06#8, 0x00#8, 0x00#8, 0x00#8] = .ok .emitEob [] ∧
    decode .command [0x07#8, 0x00#8, 0x00#8, 0x00#8] = .ok .brleEnc [] ∧
    decode .command [0x08#8, 0x00#8, 0x00#8, 0x00#8] = .ok .brleDec [] := by decide

/-- spec/30_encoding.md R102: OP 9 and 15, and RSV with its lowest or its highest bit set over a legal OP. -/
theorem test_decode_illegal :
    decodeCommand 0x00000009#32 = .illegal 0x00000009#32 ∧ decodeCommand 0x0000000F#32 = .illegal 0x0000000F#32 ∧
    decodeCommand 0x00000014#32 = .illegal 0x00000014#32 ∧ decodeCommand 0x80000004#32 = .illegal 0x80000004#32 ∧
    decodeCommand 0xFFFFFFFF#32 = .illegal 0xFFFFFFFF#32 := by decide

/-- spec/30_encoding.md R111, R114 to R116. -/
theorem test_decode_short_records :
    decode (.record false) [0x01#8, 0xAB#8] = .ok (.run 0x01#8 0xAB#8) [] ∧
    decode (.record false) [0xFF#8, 0x66#8, 0x00#8] = .ok (.run 0xFF#8 0x66#8) [0x00#8] ∧
    decode (.record false) [0x00#8, 0x00#8] = .ok .eol [] ∧
    decode (.record true) [0x00#8, 0x01#8, 0x02#8] = .ok .eob [0x02#8] ∧
    decode (.record false) [0x00#8, 0x01#8, 0x70#8, 0xFF#8] = .ok (.lit1 0x70#8 0xFF#8) [] := by decide

/-- spec/30_encoding.md R112: nb = 1 with a pad, nb = 2 without, nb = 3 with; the bytes after are left. -/
theorem test_decode_literals :
    decode (.record false) [0x00#8, 0x02#8, 0x12#8, 0x00#8, 0x07#8] = .ok (.lit 0x02#8 [0x12#8] (some 0x00#8)) [0x07#8] ∧
    decode (.record false) [0x00#8, 0x03#8, 0x12#8, 0x30#8] = .ok (.lit 0x03#8 [0x12#8, 0x30#8] none) [] ∧
    decode (.record true) [0x00#8, 0x05#8, 0x12#8, 0x34#8, 0x50#8, 0x00#8] =
      .ok (.lit 0x05#8 [0x12#8, 0x34#8, 0x50#8] (some 0x00#8)) [] := by decide

/-- spec/30_encoding.md R120 to R122, at the bounds of each kind. -/
theorem test_decode_items :
    decode .item [0x00#8] = .ok (.rawLo 0x00#7) [] ∧ decode .item [0x7F#8] = .ok (.rawLo 0x7F#7) [] ∧
    decode .item [0x80#8] = .ok (.rawHi 0x00#6) [] ∧ decode .item [0xBF#8] = .ok (.rawHi 0x3F#6) [] ∧
    decode .item [0xC0#8, 0x55#8] = .ok (.ctrl 0x00#6 0x55#8) [] ∧
    decode .item [0xC1#8, 0xBF#8] = .ok (.ctrl 0x01#6 0xBF#8) [] ∧
    decode .item [0xC1#8, 0xC0#8] = .ok (.esc 0x00#6) [] ∧ decode .item [0xC1#8, 0xFF#8] = .ok (.esc 0x3F#6) [] ∧
    decode .item [0xFF#8, 0xFF#8] = .ok (.ctrl 0x3F#6 0xFF#8) [] := by decide

/-- What is refused, by name. -/
theorem test_decode_refuses :
    decode .command [0x00#8, 0x00#8, 0x00#8] = .bad .shortCommand ∧ decode (.record false) [0x04#8] = .bad .shortHeader ∧
    decode (.record false) [0x00#8, 0x04#8, 0x12#8] = .bad (.shortLiteral 0x04#8) ∧
    decode (.record false) [0x00#8, 0x01#8, 0x70#8] = .bad (.shortLiteral 0x01#8) ∧
    decode .item [] = .bad .endOfItems ∧ decode .item [0xC3#8] = .bad (.lastControl 0xC3#8) := by decide

/-- Words numbered as spec/opcode_table.json numbers them, the first byte of a record or item leftmost. -/
theorem test_table_words :
    decodeTableWord 32 0x4 = some .encRow ∧ decodeTableWord 32 0x14 = some (.illegal 0x14#32) ∧
    decodeTableWord 16 0x0455 = some (.run 0x04#8 0x55#8) ∧ decodeTableWord 16 0x0000 = some .eol ∧
    decodeTableWord 16 0x0001 = some .eob ∧
    decodeTableWord 16 0xC3FF = some (.ctrl 0x03#6 0xFF#8) ∧ decodeTableWord 16 0xC1C0 = some (.esc 0x00#6) ∧
    decodeTableWord 8 0x41 = some (.rawLo 0x41#7) ∧ decodeTableWord 8 0xBF = some (.rawHi 0x3F#6) := by decide

/-- A literal's data and pad are zeros after its 16 table bits. -/
theorem test_table_word_literal : decodeTableWord 16 0x0002 = some (.lit 0x02#8 [0x00#8] (some 0x00#8)) := by decide +kernel

/-! ### One step of each instruction -/

/-- spec/95_test_vectors.md T5-1, and T5-9: the start clears the old DONE, OVF and ERR. -/
theorem test_nop : seenResult (step (flight 0x0#32 [] 0#32 0#32 0#32 .count)) = some (0#32, 0x02#32) := by decide

/-- T1-3 and T1-11: the odd pixel of a byte, the last pixel of an odd row. -/
theorem test_getpix :
    seenResult (step (flight 0x1#32 [0x12#8, 0x34#8] 4#32 2#32 0#32 .count)) = some (3#32, 0x02#32) ∧
    seenResult (step (flight 0x1#32 [0x12#8, 0x3F#8] 3#32 3#32 0#32 .count)) = some (0#32, 0x02#32) := by decide

/-- T1-6 and T1-19: a repetition across bytes; the exact sum at x = 0xFFFFFFFF. -/
theorem test_hasrep :
    seenResult (step (flight 0x2#32 [0x12#8, 0x22#8] 4#32 1#32 0#32 .count)) = some (1#32, 0x02#32) ∧
    seenResult (step (flight 0x2#32 [0x55#8] 0xFFFFFFFF#32 0xFFFFFFFF#32 0#32 .count)) = some (0#32, 0x02#32) := by
  decide

/-- T1-8 and T1-10: the A B B pattern; a run of zero-padded pixels. -/
theorem test_scan :
    seenResult (step (flight 0x3#32 [0x12#8, 0x20#8] 3#32 0#32 0#32 .count)) = some (0x00021301#32, 0x02#32) ∧
    seenResult (step (flight 0x3#32 [0x12#8] 4#32 2#32 0#32 .count)) = some (0x00020102#32, 0x02#32) := by decide

/-- T2-8: a literal that stops before the repetition. -/
theorem test_enc_row :
    seenOut 0 (step (flight 0x4#32 [0x12#8, 0x33#8] 4#32 0#32 0#32 .count)) =
      some ([some 0x00#8, some 0x02#8, some 0x12#8, some 0x00#8, some 0x02#8, some 0x33#8, some 0x00#8, some 0x00#8],
        8, 8, 0, 0x02#32) := by decide

/-- T2-22 with OUT_CAP = 16: two bytes of room. -/
theorem test_enc_row_overflow :
    seenOut 14 (step (flight 0x4#32 [0x55#8, 0x55#8] 4#32 0#32 14#32 .count)) =
      some ([some 0x04#8, some 0x55#8], 2, 16, 0, 0x06#32) := by decide

/-- T3-5: a run with different nibbles alternates. -/
theorem test_dec_row :
    seenOut 0 (step (flight 0x5#32 [0x05#8, 0x12#8, 0x00#8, 0x00#8] 5#32 0#32 0#32 .count)) =
      some ([some 0x12#8, some 0x12#8, some 0x10#8], 3, 3, 4, 0x02#32) := by decide

/-- T3-18: overrun wins over truncation. -/
theorem test_dec_row_error :
    seenOut 0 (step (flight 0x5#32 [0x00#8, 0x05#8, 0x12#8] 2#32 0#32 0#32 .count)) =
      some ([some 0x00#8], 1, 1, 0, 0x42#32) := by decide

/-- T2-26, and T2-27 with OUT_CAP = 16. -/
theorem test_emit_eob :
    seenOut 4 (step (flight 0x6#32 [] 0#32 0#32 4#32 .count)) = some ([some 0x00#8, some 0x01#8], 2, 6, 0, 0x02#32) ∧
    seenOut 15 (step (flight 0x6#32 [] 0#32 0#32 15#32 .count)) = some ([some 0x00#8], 1, 16, 0, 0x06#32) := by
  decide

/-- T4-11 in both profiles. -/
theorem test_brle_enc :
    seenOut 0 (step (flight 0x7#32 [0x41#8, 0x41#8, 0x41#8, 0x42#8, 0x42#8, 0xC7#8] 0#32 0#32 0#32 .count)) =
      some ([some 0xC3#8, some 0x41#8, some 0xC2#8, some 0x42#8, some 0xC1#8, some 0xC7#8], 6, 6, 6, 0x02#32) ∧
    seenOut 0 (step (flight 0x7#32 [0x41#8, 0x41#8, 0x41#8, 0x42#8, 0x42#8, 0xC7#8] 0#32 0#32 0#32 .countM1)) =
      some ([some 0xC2#8, some 0x41#8, some 0xC1#8, some 0x42#8, some 0xC1#8, some 0xC7#8], 6, 6, 6, 0x02#32) := by
  decide

/-- T4-21 in both profiles: the trailing control byte is dropped. -/
theorem test_brle_dec :
    seenOut 0 (step (flight 0x8#32 [0xC1#8, 0xC1#8, 0xC1#8, 0xC0#8, 0xC3#8, 0x41#8, 0x42#8, 0xC5#8] 0#32 0#32 0#32 .count)) =
      some ([some 0xC1#8, some 0xC0#8, some 0x41#8, some 0x41#8, some 0x41#8, some 0x42#8], 6, 6, 7, 0x02#32) ∧
    seenOut 0 (step (flight 0x8#32 [0xC1#8, 0xC1#8, 0xC1#8, 0xC0#8, 0xC3#8, 0x41#8, 0x42#8, 0xC5#8] 0#32 0#32 0#32 .countM1)) =
      some ([some 0xC1#8, some 0xC1#8, some 0xC0#8, some 0xC0#8, some 0x41#8, some 0x41#8, some 0x41#8, some 0x41#8,
        some 0x42#8], 9, 9, 7, 0x02#32) := by decide

/-- T5-7: an illegal word wins over bad ranges. -/
theorem test_illegal :
    seenResult (step (flight 0x9#32 [] 0#32 0#32 0xFFFFFFFF#32 .count)) = some (0#32, 0x12#32) := by decide

/-- T1-23: the exact sum of OFF and LEN does not wrap. -/
theorem test_bad_range :
    seenResult (step (startCommand 0x1#32 { ready [] 4#32 0#32 0#32 .count with inOff := 0xFFFFFFFF#32, inLen := 2#32 })) =
      some (0#32, 0x22#32) := by decide

/-- The first record of T3-5, as a hidden step. -/
theorem test_run :
    seenWork (step (working (flight 0x5#32 [0x05#8, 0x12#8, 0x00#8, 0x00#8] 5#32 0#32 0#32 .count))) =
      some (5, 2, [0x12#8, 0x12#8, 0x10#8], none) := by decide

/-- spec/42_row_decoder.md R206 (W = 0) and T3-23's code at its EOL. -/
theorem test_eol :
    seenWork (step (working (flight 0x5#32 [0x00#8, 0x00#8] 0#32 0#32 0#32 .count))) = some (0, 2, [], some .none) ∧
    seenWork (step (working (flight 0x5#32 [0x00#8, 0x00#8] 2#32 0#32 0#32 .count))) =
      some (0, 2, [0x00#8], some .decShortRow) := by decide

/-- T3-22: `00 01` where the row is complete. -/
theorem test_eob :
    seenWork (step (working (flight 0x5#32 [0x00#8, 0x01#8] 0#32 0#32 0#32 .count))) = some (0, 0, [], some .decMissingEol) := by
  decide

/-- T3-3: `00 01` inside the row; the pad byte's value is ignored. -/
theorem test_lit1 :
    seenWork (step (working (flight 0x5#32 [0x00#8, 0x01#8, 0x7F#8, 0xFF#8] 1#32 0#32 0#32 .count))) =
      some (1, 4, [0x70#8], none) := by decide

/-- T2-9's literal read back: nb = 3 with a pad. -/
theorem test_lit :
    seenWork (step (working (flight 0x5#32 [0x00#8, 0x05#8, 0x12#8, 0x34#8, 0x50#8, 0x00#8] 5#32 0#32 0#32 .count))) =
      some (5, 6, [0x12#8, 0x34#8, 0x50#8], none) := by decide

/-- spec/30_encoding.md R120: a plain byte of either half. -/
theorem test_raw :
    seenWork (step (working (flight 0x8#32 [0x41#8] 0#32 0#32 0#32 .count))) = some (0, 1, [0x41#8], none) ∧
    seenWork (step (working (flight 0x8#32 [0xBF#8] 0#32 0#32 0#32 .count))) = some (0, 1, [0xBF#8], none) := by
  decide

/-- T4-15: no copy under COUNT, one under COUNT_M1. -/
theorem test_ctrl :
    seenWork (step (working (flight 0x8#32 [0xC0#8, 0x55#8] 0#32 0#32 0#32 .count))) = some (0, 2, [], none) ∧
    seenWork (step (working (flight 0x8#32 [0xC0#8, 0x55#8] 0#32 0#32 0#32 .countM1))) = some (0, 2, [0x55#8], none) := by
  decide

/-- T4-12: one copy under COUNT, two under COUNT_M1. -/
theorem test_esc :
    seenWork (step (working (flight 0x8#32 [0xC1#8, 0xC0#8] 0#32 0#32 0#32 .count))) = some (0, 2, [0xC0#8], none) ∧
    seenWork (step (working (flight 0x8#32 [0xC1#8, 0xC0#8] 0#32 0#32 0#32 .countM1))) =
      some (0, 2, [0xC0#8, 0xC0#8], none) := by decide

/-! ### The host -/

/-- T6-8: only DONE and HAZ are cleared. -/
theorem test_status_clear :
    statusWord (writeStatus 0xFF#32 { State.reset with status := ⟨true, true, false, .decMissingEol⟩ }) = 0x54#32 := by decide

/-- T6-9: CONFIG's reserved bits store 0. -/
theorem test_config : configWord (configOfWord 0xFFFFFFFF#32) = 0x00000003#32 := by decide

/-- T6-13, T6-14: bus errors; T6-12, T6-11: a hole and a reserved offset read 0. -/
theorem test_bus :
    (hostAccess ⟨0x014, .b8, .read⟩ State.reset).resp = .busError ∧
    (hostAccess ⟨0x10002, .b32, .write 0#32⟩ State.reset).resp = .busError ∧
    (hostAccess ⟨0x01000, .b32, .read⟩ State.reset).resp = .data 0#32 ∧
    (hostAccess ⟨0x038, .b32, .read⟩ State.reset).resp = .data 0#32 ∧
    (hostAccess ⟨0x40000, .b32, .read⟩ State.reset).resp = .outside := by decide

/-- T6-15: a 32-bit write is little-endian. -/
theorem test_little_endian :
    (hostAccess ⟨0x10000, .b32, .write 0x00005504#32⟩ State.reset).inBuf =
      [(0, 0x04#8), (1, 0x55#8), (2, 0x00#8), (3, 0x00#8)] := by decide

/-- T6-17, and the stop after it. -/
theorem test_busy_write :
    statusWord (hostAccess ⟨0x10000, .b8, .write 0#32⟩ (flight 0x4#32 [] 0#32 0#32 0#32 .count)) = 0x09#32 ∧
    (match step (hostAccess ⟨0x10000, .b8, .write 0#32⟩ (flight 0x4#32 [] 0#32 0#32 0#32 .count)) with
      | .fault f => some f
      | _ => none) = some Fault.bufferWriteWhileBusy := by decide

/-- T6-18: a slice with unwritten bytes is recorded. -/
theorem test_unwritten_slice :
    (match step (startCommand 0x1#32 { ready [] 4#32 0#32 0#32 .count with inLen := 2#32 }) with
      | .next t => some t.faults.unwrittenSlice
      | _ => none) = some true := by decide

/-- A placed record is the first instruction after reset. -/
theorem test_placed_record :
    seenWork (step (State.reset.withFetchWord 16 0x0455)) = some (4, 2, [0x55#8, 0x55#8], none) := by decide

/-- A placed command is the first instruction after reset. -/
theorem test_placed_command : seenOut 0 (step (State.reset.withFetchWord 32 0x6)) =
    some ([some 0x00#8, some 0x01#8], 2, 2, 0, 0x02#32) := by decide

/-! ### The host agent -/

/-- Where the host stands after a turn, and the values it has named. -/
def seenHost : Host.Outcome HostSystem Fault Refusal → Option (Nat × HostEnv)
  | .next y => some (y.host.line, y.host.env)
  | .fault _ => none
  | .refused _ => none

/-- A host at a line of a program, with these values, beside a machine. -/
def hostAt (program : List HostLine) (line : Nat) (env : HostEnv) (s : State) : HostSystem := ⟨⟨program, line, 0, env⟩, s⟩

/-- spec/30_encoding.md R128, WAIT: a poll while BUSY reads 0x1, and the branch goes back to the poll. -/
theorem test_wait_polls_again :
    seenHost (hostTurn (hostAt (waitLines 0) 1 [] (flight 0x0#32 [] 0#32 0#32 0#32 .count))) = some (2, [(0, 1)]) ∧
    seenHost (hostTurn (hostAt (waitLines 0) 2 [(0, 1)] State.reset)) = some (0, [(0, 1)]) := by decide

/-- WAIT ends where the poll has read DONE = 1, whatever ERR is (spec/95_test_vectors.md P5, line 7). -/
theorem test_wait_ends :
    seenHost (hostTurn (hostAt (waitLines 0) 2 [(0, 0x52)] State.reset)) = some (3, [(0, 0x52)]) := by decide

/-- spec/95_test_vectors.md P1, lines 2 to 17: the accesses of ENCODE_BITMAP 0, 4, 2, 4, 2, each WAIT polling once. -/
theorem test_encode_bitmap_accesses :
    (encodeBitmapLines 0 (.lit 0) (.lit 4) (.lit 2) (.lit 4) 2).flatMap (lineAccesses small []) =
      [⟨0x028, .b32, .write 0#32⟩,
        ⟨0x020, .b32, .write 0#32⟩, ⟨0x024, .b32, .write 2#32⟩, ⟨0x018, .b32, .write 4#32⟩, ⟨0x010, .b32, .write 4#32⟩,
        ⟨0x014, .b32, .read⟩, ⟨0x014, .b32, .write 2#32⟩,
        ⟨0x020, .b32, .write 4#32⟩, ⟨0x024, .b32, .write 2#32⟩, ⟨0x018, .b32, .write 4#32⟩, ⟨0x010, .b32, .write 4#32⟩,
        ⟨0x014, .b32, .read⟩, ⟨0x014, .b32, .write 2#32⟩,
        ⟨0x010, .b32, .write 6#32⟩, ⟨0x014, .b32, .read⟩, ⟨0x014, .b32, .write 2#32⟩] := by decide

/-- spec/95_test_vectors.md P2, row 1: with IN_OFF 4 the bytes left are 10; after CONSUMED 8 the next IN_OFF is 12. -/
theorem test_decode_row_steps_by_consumed :
    lineAccesses small [(0, 4)] (.wr .inLen (.sub (.lit 14) (.name 0))) = [⟨0x024, .b32, .write 10#32⟩] ∧
    (decodeRowLines 0 5 (.lit 14) (.lit 4))[9]? = some (.assign 0 (.add (.name 0) (.name 1))) ∧
    seenHost (hostTurn (hostAt (decodeRowLines 0 5 (.lit 14) (.lit 4)) 9 [(1, 8), (0, 4)] State.reset)) =
      some (10, [(0, 12), (1, 8), (0, 4)]) := by decide

/-- spec/95_test_vectors.md P2, lines 14 to 16: the EOB check passes over the line that says bad exactly on `00 01`. -/
theorem test_eob_check :
    seenHost (hostTurn (hostAt (eobCheckLines 0) 3 [(2, 0), (3, 1)] State.reset)) = some (5, [(2, 0), (3, 1)]) ∧
    seenHost (hostTurn (hostAt (eobCheckLines 0) 3 [(2, 0), (3, 2)] State.reset)) = some (4, [(2, 0), (3, 2)]) := by decide

/-- `RB IN+off` reads the byte and gives its name the value. -/
theorem test_rb_in_names_the_byte :
    seenHost (hostTurn (hostAt (eobCheckLines 0) 1 [(0, 0)] (loaded [0x00#8, 0x01#8]))) = some (2, [(3, 1), (0, 0)]) := by decide

/-! ### Witnesses: for every statement with hypotheses, values that meet them all, at the bounds of each clause -/

/-- A decoder's working state, x pixels in, over a row of these bytes. -/
def work (x : Nat) (out : List Byte) : Work := ⟨x, 0, 0, [], out, none⟩

/-- A command in flight with the given working state, and what comes next. -/
def within (op : Word) (bytes : List Byte) (w : Word) (wk : Option Work) (events : List Event) : State :=
  { flight op bytes w 0#32 0#32 .count with engine := .busy (snapOf op bytes w 0#32 0#32 .count) wk, schedule := events }

/-- The operands of `within`. -/
def withinSnap (op : Word) (bytes : List Byte) (w : Word) : Snap := snapOf op bytes w 0#32 0#32 .count

theorem witness_DecodeOfEncode :
    (Instr.illegal 0x9#32).wf = true ∧ (Instr.run 0xFF#8 0x12#8).wf = true ∧ (Instr.lit1 0x7F#8 0xFF#8).wf = true ∧
    (Instr.lit 0x02#8 [0x12#8] (some 0xFF#8)).wf = true ∧ (Instr.lit 0x04#8 [0x12#8, 0x34#8] none).wf = true ∧
    (Instr.ctrl 0x01#6 0xBF#8).wf = true ∧
    (Instr.ctrl 0x3F#6 0xFF#8).wf = true ∧ (Instr.esc 0x3F#6).wf = true := by decide

theorem witness_DecodeOfEncode_longest : (Instr.lit 0xFF#8 (List.replicate 128 0x11#8) none).wf = true := by
  simp [Instr.wf]

theorem witness_EncodeOfDecode :
    decode .command [0x10#8, 0x00#8, 0x00#8, 0x00#8] = .ok (.illegal 0x10#32) [] ∧
    decode (.record false) [0x00#8, 0x01#8, 0x70#8, 0x00#8] = .ok (.lit1 0x70#8 0x00#8) [] ∧
    decode .item [0xC1#8, 0xC0#8, 0x41#8] = .ok (.esc 0x00#6) [0x41#8] := by decide

theorem witness_IllegalWordsAreTheReservedOnes :
    (0x00000008#32).extractLsb' 4 28 = 0#28 ∧ ¬9 ≤ ((0x00000008#32).extractLsb' 0 4).toNat ∧
    9 ≤ ((0x00000009#32).extractLsb' 0 4).toNat ∧ (0x00000010#32).extractLsb' 4 28 ≠ 0#28 := by decide

theorem witness_StepRunsTheCommandInFlight :
    ∃ (s : State) (sn : Snap) (w : Option Work), s.faults.busyWrite = false ∧ s.engine = .busy sn w ∧
      ((∃ rest, s.schedule = .complete :: rest)) :=
  ⟨within 0x4#32 [0x55#8] 2#32 none [.complete, .work], withinSnap 0x4#32 [0x55#8] 2#32, none, rfl, rfl, _, rfl⟩

theorem witness_StepRunsTheCommandInFlight_exhausted :
    ∃ (s : State) (sn : Snap) (w : Option Work), s.faults.busyWrite = false ∧ s.engine = .busy sn w ∧ s.schedule = [] :=
  ⟨within 0x9#32 [] 2#32 none [], withinSnap 0x9#32 [] 2#32, none, rfl, rfl, rfl⟩

theorem witness_StepRunsTheRecordOrItem :
    ∃ (s : State) (sn : Snap) (wk : Work) (events : List Event) (i : Instr) (rest : List Byte),
      s.faults.busyWrite = false ∧ s.schedule = .work :: events ∧ sn.off.toNat + sn.len.toNat ≤ s.params.inCap ∧
      sn.ptr.toNat ≤ s.params.outCap ∧ DecodingRow sn wk s ∧
      decode (.record (wk.x == sn.w.toNat)) ((inputSlice sn s).drop wk.p) = .ok i rest :=
  ⟨within 0x5#32 [0x00#8, 0x01#8] 0#32 (some (work 0 [])) [.work, .complete], withinSnap 0x5#32 [0x00#8, 0x01#8] 0#32,
    work 0 [], [.complete], .eob, [], rfl, rfl, by decide, by decide, ⟨some (work 0 []), rfl, rfl, by decide, rfl⟩, by decide⟩

theorem witness_StepRunsTheRecordOrItem_item :
    ∃ (s : State) (sn : Snap) (wk : Work) (events : List Event) (i : Instr) (rest : List Byte),
      s.faults.busyWrite = false ∧ s.schedule = .work :: events ∧ sn.off.toNat + sn.len.toNat ≤ s.params.inCap ∧
      sn.ptr.toNat ≤ s.params.outCap ∧ DecodingItems sn wk s ∧
      decode .item ((inputSlice sn s).drop wk.p) = .ok i rest :=
  ⟨within 0x8#32 [0xC0#8, 0x55#8] 0#32 (some (work 0 [])) [.work], withinSnap 0x8#32 [0xC0#8, 0x55#8] 0#32,
    work 0 [], [], .ctrl 0x00#6 0x55#8, [], rfl, rfl, by decide, by decide, ⟨some (work 0 []), rfl, rfl, by decide, rfl⟩,
    by decide⟩

/-- NopCompletes, IllegalWordCompletes, EveryCommandCompletes: a command in flight; and the flags of IllegalWordCompletes. -/
theorem witness_command_in_flight :
    ∃ (i : Instr) (s : State) (sn : Snap) (w : Option Work), isCommand i = true ∧ s.engine = .busy sn w ∧
      s.status.ovf = false ∧ s.status.haz = false :=
  ⟨.illegal 0x9#32, within 0x9#32 [] 0#32 none [], withinSnap 0x9#32 [] 0#32, none, rfl, rfl, rfl, rfl⟩

/-- GetpixCompletes, HasrepCompletes, ScanCompletes: a slice that ends exactly at IN_CAP; x below W, and x at W. -/
theorem witness_result_commands :
    ∃ (s : State) (sn : Snap) (w : Option Work), s.engine = .busy sn w ∧
      sn.off.toNat + sn.len.toNat = s.params.inCap ∧ sn.x.toNat < sn.w.toNat :=
  ⟨flight 0x3#32 (List.replicate 16 0x12#8) 32#32 31#32 0#32 .count,
    snapOf 0x3#32 (List.replicate 16 0x12#8) 32#32 31#32 0#32 .count, none, rfl, by decide, by decide⟩

theorem witness_result_commands_out_of_range :
    ∃ (s : State) (sn : Snap) (w : Option Work), s.engine = .busy sn w ∧
      s.params.inCap + 1 = sn.off.toNat + sn.len.toNat :=
  ⟨flight 0x1#32 (List.replicate 17 0x12#8) 2#32 0#32 0#32 .count,
    snapOf 0x1#32 (List.replicate 17 0x12#8) 2#32 0#32 0#32 .count, none, rfl, by decide⟩

theorem witness_ScanCompletes_past_the_row :
    ∃ (s : State) (sn : Snap) (w : Option Work), s.engine = .busy sn w ∧
      sn.off.toNat + sn.len.toNat ≤ s.params.inCap ∧ sn.w.toNat = sn.x.toNat :=
  ⟨flight 0x3#32 [0x12#8] 2#32 2#32 0#32 .count, snapOf 0x3#32 [0x12#8] 2#32 2#32 0#32 .count, none, rfl, by decide, by decide⟩

theorem witness_EncRowCompletes :
    ∃ (s : State) (sn : Snap), s.params.Valid ∧ s.engine = .busy sn none ∧ decodeCommand sn.op = .encRow ∧ ¬rangeFails .encRow sn s :=
  ⟨flight 0x4#32 [0x55#8] 2#32 0#32 16#32 .count, snapOf 0x4#32 [0x55#8] 2#32 0#32 16#32 .count, by decide, rfl, by decide,
    by unfold rangeFails; decide⟩

theorem witness_EncRowCompletes_out_of_range :
    ∃ (s : State) (sn : Snap), s.params.Valid ∧ s.engine = .busy sn none ∧ decodeCommand sn.op = .encRow ∧ rangeFails .encRow sn s :=
  ⟨flight 0x4#32 [0x55#8] 2#32 0#32 17#32 .count, snapOf 0x4#32 [0x55#8] 2#32 0#32 17#32 .count, by decide, rfl, by decide,
    by unfold rangeFails; decide⟩

theorem witness_DecRowCompletes :
    ∃ (s : State) (sn : Snap), s.params.Valid ∧ s.engine = .busy sn none ∧ decodeCommand sn.op = .decRow ∧ ¬rangeFails .decRow sn s :=
  ⟨flight 0x5#32 [] 2#32 0#32 16#32 .count, snapOf 0x5#32 [] 2#32 0#32 16#32 .count, by decide, rfl, by decide,
    by unfold rangeFails; decide⟩

theorem witness_DecRowCompletes_out_of_range :
    ∃ (s : State) (sn : Snap), s.params.Valid ∧ s.engine = .busy sn none ∧ decodeCommand sn.op = .decRow ∧ rangeFails .decRow sn s :=
  ⟨flight 0x5#32 [] 2#32 0#32 17#32 .count, snapOf 0x5#32 [] 2#32 0#32 17#32 .count, by decide, rfl, by decide,
    by unfold rangeFails; decide⟩

theorem witness_EmitEobCompletes : ∃ (s : State) (sn : Snap) (w : Option Work),
    s.params.Valid ∧ s.engine = .busy sn w ∧ sn.ptr.toNat = s.params.outCap :=
  ⟨flight 0x6#32 [] 2#32 0#32 16#32 .count, snapOf 0x6#32 [] 2#32 0#32 16#32 .count, none, by decide, rfl, by decide⟩

theorem witness_EmitEobCompletes_out_of_range : ∃ (s : State) (sn : Snap) (w : Option Work),
    s.params.Valid ∧ s.engine = .busy sn w ∧ s.params.outCap < sn.ptr.toNat :=
  ⟨flight 0x6#32 [] 0#32 0#32 17#32 .count, snapOf 0x6#32 [] 0#32 0#32 17#32 .count, none, by decide, rfl, by decide⟩

theorem witness_BrleEncCompletes :
    ∃ (s : State) (sn : Snap), s.params.Valid ∧ s.engine = .busy sn none ∧ decodeCommand sn.op = .brleEnc ∧ ¬rangeFails .brleEnc sn s :=
  ⟨flight 0x7#32 [0xC1#8] 0#32 0#32 0#32 .countM1, snapOf 0x7#32 [0xC1#8] 0#32 0#32 0#32 .countM1, by decide, rfl, by decide,
    by unfold rangeFails; decide⟩

theorem witness_BrleEncCompletes_out_of_range :
    ∃ (s : State) (sn : Snap), s.params.Valid ∧ s.engine = .busy sn none ∧ decodeCommand sn.op = .brleEnc ∧ rangeFails .brleEnc sn s :=
  ⟨flight 0x7#32 [0xC1#8] 0#32 0#32 17#32 .countM1, snapOf 0x7#32 [0xC1#8] 0#32 0#32 17#32 .countM1, by decide, rfl, by decide,
    by unfold rangeFails; decide⟩

theorem witness_BrleDecCompletes :
    ∃ (s : State) (sn : Snap), s.params.Valid ∧ s.engine = .busy sn none ∧ decodeCommand sn.op = .brleDec ∧ ¬rangeFails .brleDec sn s :=
  ⟨flight 0x8#32 [0xC1#8] 0#32 0#32 0#32 .countM1, snapOf 0x8#32 [0xC1#8] 0#32 0#32 0#32 .countM1, by decide, rfl, by decide,
    by unfold rangeFails; decide⟩

theorem witness_BrleDecCompletes_out_of_range :
    ∃ (s : State) (sn : Snap), s.params.Valid ∧ s.engine = .busy sn none ∧ decodeCommand sn.op = .brleDec ∧ rangeFails .brleDec sn s :=
  ⟨flight 0x8#32 [0xC1#8] 0#32 0#32 17#32 .countM1, snapOf 0x8#32 [0xC1#8] 0#32 0#32 17#32 .countM1, by decide, rfl, by decide,
    by unfold rangeFails; decide⟩

/-- BadRangeExactlyOnFailedChecks, CodesPerCommand: a check that fails by one, one that just passes. -/
theorem witness_BadRangeExactlyOnFailedChecks :
    ∃ (i : Instr) (s : State) (sn : Snap) (w : Option Work), isCommand i = true ∧ (∀ word, i ≠ .illegal word) ∧
      s.engine = .busy sn w ∧ Work.Ok sn (workOf sn w) ∧ rangeFails i sn s :=
  ⟨.emitEob, flight 0x6#32 [] 0#32 0#32 17#32 .count, snapOf 0x6#32 [] 0#32 0#32 17#32 .count, none, rfl,
    fun _ h => Instr.noConfusion h, rfl, beginWork_ok _, .inr ⟨rfl, by decide⟩⟩

theorem witness_BadRangeExactlyOnFailedChecks_passing :
    ∃ (i : Instr) (s : State) (sn : Snap) (w : Option Work), isCommand i = true ∧ (∀ word, i ≠ .illegal word) ∧
      s.engine = .busy sn w ∧ Work.Ok sn (workOf sn w) ∧ ¬rangeFails i sn s :=
  ⟨.emitEob, flight 0x6#32 [] 0#32 0#32 16#32 .count, snapOf 0x6#32 [] 0#32 0#32 16#32 .count, none, rfl,
    fun _ h => Instr.noConfusion h, rfl, beginWork_ok _, by unfold rangeFails; decide⟩

theorem witness_CodesPerCommand :
    ∃ (s t : State) (sn : Snap) (w : Option Work), s.engine = .busy sn w ∧ Work.Ok sn (workOf sn w) ∧
      exec .decRow s = .next t ∧ t.status.err = .decTruncated :=
  ⟨flight 0x5#32 [] 2#32 0#32 0#32 .count, _, snapOf 0x5#32 [] 2#32 0#32 0#32 .count, none, rfl, beginWork_ok _, rfl, by decide⟩

/-- NoInstructionWritesItsInputs: an instruction that answers a next state. -/
theorem witness_NoInstructionWritesItsInputs : ∃ s t : State, exec .encRow s = .next t :=
  ⟨flight 0x4#32 [0x55#8] 2#32 0#32 0#32 .count, _, rfl⟩

/-- RunRecordWritesPixels: a run that ends exactly at W. -/
theorem witness_RunRecordWritesPixels :
    ∃ (s : State) (sn : Snap) (wk : Work) (c : Byte), DecodingRow sn wk s ∧ wk.out.length = rowBytes sn.w.toNat ∧
      c ≠ 0#8 ∧ wk.x < sn.w.toNat ∧ wk.x + c.toNat = sn.w.toNat :=
  ⟨within 0x5#32 [] 3#32 (some (work 1 [0x10#8, 0x00#8])) [], withinSnap 0x5#32 [] 3#32, work 1 [0x10#8, 0x00#8], 2#8,
    ⟨some (work 1 [0x10#8, 0x00#8]), rfl, rfl, by decide, rfl⟩, by decide, by decide, by decide, by decide⟩

/-- LiteralRecordWritesPixels: one pixel left for the literal of length 1; a literal of three pixels that ends at W. -/
theorem witness_LiteralRecordWritesPixels :
    ∃ (s : State) (sn : Snap) (wk : Work), DecodingRow sn wk s ∧ wk.out.length = rowBytes sn.w.toNat ∧
      wk.x + 1 = sn.w.toNat :=
  ⟨within 0x5#32 [] 3#32 (some (work 2 [0x10#8, 0x00#8])) [], withinSnap 0x5#32 [] 3#32, work 2 [0x10#8, 0x00#8],
    ⟨some (work 2 [0x10#8, 0x00#8]), rfl, rfl, by decide, rfl⟩, by decide, by decide⟩

theorem witness_LiteralRecordWritesPixels_long :
    ∃ (s : State) (sn : Snap) (wk : Work) (n : Byte) (data : List Byte) (pad : Option Byte), DecodingRow sn wk s ∧
      wk.out.length = rowBytes sn.w.toNat ∧ wk.x < sn.w.toNat ∧ (Instr.lit n data pad).wf = true ∧
      wk.x + n.toNat = sn.w.toNat :=
  ⟨within 0x5#32 [] 3#32 (some (work 0 [0x00#8, 0x00#8])) [], withinSnap 0x5#32 [] 3#32, work 0 [0x00#8, 0x00#8], 3#8,
    [0x12#8, 0x3F#8], none, ⟨some (work 0 [0x00#8, 0x00#8]), rfl, rfl, by decide, rfl⟩, by decide, by decide, by decide,
    by decide⟩

/-- EolRecordEndsTheRow, EobRecordIsAMissingEol, PixelRecordTraps (first clause): a complete row. -/
theorem witness_complete_row :
    ∃ (s : State) (sn : Snap) (wk : Work), DecodingRow sn wk s ∧ wk.x = sn.w.toNat :=
  ⟨within 0x5#32 [] 2#32 (some (work 2 [0x12#8])) [], withinSnap 0x5#32 [] 2#32, work 2 [0x12#8],
    ⟨some (work 2 [0x12#8]), rfl, rfl, by decide, rfl⟩, by decide⟩

/-- PixelRecordTraps (second clause): a record one pixel too long, of each kind. -/
theorem witness_PixelRecordTraps :
    ∃ (s : State) (sn : Snap) (wk : Work) (n : Nat), DecodingRow sn wk s ∧ wk.x ≠ sn.w.toNat ∧ wk.x + n = sn.w.toNat + 1 ∧
      (∃ c v, Instr.run 2#8 0x11#8 = .run c v ∧ n = c.toNat) ∧
      (∃ l data pad, Instr.lit 2#8 [0x12#8] (some 0x00#8) = .lit l data pad ∧ n = l.toNat) :=
  ⟨within 0x5#32 [] 2#32 (some (work 1 [0x10#8])) [], withinSnap 0x5#32 [] 2#32, work 1 [0x10#8], 2,
    ⟨some (work 1 [0x10#8]), rfl, rfl, by decide, rfl⟩, by decide, by decide, ⟨_, _, rfl, rfl⟩, ⟨_, _, _, rfl, rfl⟩⟩

/-- PixelRecordTraps (second clause) for the literal of length 1, whose pixel passes W only where x is past it already. -/
theorem witness_PixelRecordTraps_lit1 :
    ∃ (s : State) (sn : Snap) (wk : Work), DecodingRow sn wk s ∧ wk.x ≠ sn.w.toNat ∧ sn.w.toNat < wk.x + 1 ∧
      (∃ d pad, Instr.lit1 0x70#8 0x00#8 = .lit1 d pad) :=
  ⟨within 0x5#32 [] 1#32 (some (work 2 [0x10#8])) [], withinSnap 0x5#32 [] 1#32, work 2 [0x10#8],
    ⟨some (work 2 [0x10#8]), rfl, rfl, by decide, rfl⟩, by decide, by decide, _, _, rfl⟩

/-- DecoderEndsByTheBytes: for each clause, bytes at its bound: one byte left; EOL and a run at a complete row; EOL, an overrun by
one of a run and of a literal inside the row; a literal that fits with its pad missing. -/
theorem witness_DecoderEndsByTheBytes :
    ([0x00#8] : List Byte).length < (work 0 []).p + 2 ∧
    ((work 2 []).x = 2 ∧ ([0x00#8, 0x00#8] : List Byte).drop (work 2 []).p = [0x00#8, 0x00#8]) ∧
    ((work 2 []).x = 2 ∧ ¬((0x02#8 : Byte) = 0#8 ∧ (0x11#8 : Byte) = 0#8)) ∧
    ((work 1 []).x < 2 ∧ ([0x00#8, 0x00#8] : List Byte).drop (work 1 []).p = [0x00#8, 0x00#8]) ∧
    ((work 1 []).x < 2 ∧ (0x02#8 : Byte) ≠ 0#8 ∧ 2 < (work 1 []).x + (0x02#8 : Byte).toNat) ∧
    ((work 1 []).x < 2 ∧ (0x02#8 : Byte) ≠ 0#8 ∧ ¬2 < (work 1 []).x + (0x01#8 : Byte).toNat) ∧
    ((work 0 []).x < 1 ∧ (work 0 []).x + (0x01#8 : Byte).toNat ≤ 1 ∧
      ([0x00#8, 0x01#8, 0x70#8] : List Byte).length <
        (work 0 []).p + (2 + ((0x01#8 : Byte).toNat + 1) / 2 + ((0x01#8 : Byte).toNat + 1) / 2 % 2)) := by decide

/-- PlainItemsStandForThemselves, ControlItemsRepeatTheirByte: BRLE_DEC in flight. -/
theorem witness_items : ∃ (s : State) (sn : Snap) (wk : Work), DecodingItems sn wk s :=
  ⟨within 0x8#32 [] 0#32 (some (work 0 [])) [], withinSnap 0x8#32 [] 0#32, work 0 [], some (work 0 []), rfl, rfl, by decide, rfl⟩

/-- RowRoundTrip, second clause: an odd row with a clear pad nibble, an even row, and the empty row. -/
theorem witness_RowRoundTrip :
    (([0x12#8, 0x30#8] : List Byte).length = rowBytes 3 ∧ lowNibble (([0x12#8, 0x30#8] : List Byte).getD (rowBytes 3 - 1) 0#8) = 0#4) ∧
    (([0x12#8, 0x34#8] : List Byte).length = rowBytes 4) ∧ (([] : List Byte).length = rowBytes 0) := by decide

/-- EncodedRowSize, first bound. -/
theorem witness_EncodedRowSize : (1 : Nat) ≤ 1 := by decide

/-- UniformRows: widths around the cap's multiples have such rows (the slice's end reads 0). -/
theorem witness_UniformRows :
    (1 : Nat) ≤ 1 ∧ (∀ x, x < 1 → pix [0x70#8] 1 x = 7#4) ∧ (∀ x, x < 2 → pix [0x33#8] 2 x = 3#4) ∧
    (∀ x, x < 256 → pix [] 256 x = 0#4) := by
  refine ⟨by decide, by decide, by decide, fun x _ => ?_⟩
  simp [pix]

/-- NonRepeatingRows: a row of three different pixels, and a row of one. -/
theorem witness_NonRepeatingRows :
    (∀ x, x + 1 < 3 → pix [0x12#8, 0x30#8] 3 x ≠ pix [0x12#8, 0x30#8] 3 (x + 1)) ∧
    (∀ x, x + 1 < 1 → pix [0x70#8] 1 x ≠ pix [0x70#8] 1 (x + 1)) := by
  refine ⟨fun x h => ?_, fun x h => absurd h (by omega)⟩
  obtain rfl | rfl : x = 0 ∨ x = 1 := by omega
  · decide
  · decide

/-- NonRepeatingRows: a row of 256 pixels that alternate, whose first literal ends at the cap, mid-row. -/
theorem witness_NonRepeatingRows_capped :
    (∀ x, x + 1 < 256 → pix (List.replicate 128 0x12#8) 256 x ≠ pix (List.replicate 128 0x12#8) 256 (x + 1)) ∧
    (segmentLength (segmentAt (List.replicate 128 0x12#8) 256 0) = 254) := by
  have hb : ∀ k, k < 128 → (List.replicate 128 0x12#8).getD k 0#8 = 0x12#8 := fun k hk => by
    rw [List.getD_eq_getElem?_getD, List.getElem?_replicate, if_pos hk]; rfl
  have hp : ∀ x, x < 256 → pix (List.replicate 128 0x12#8) 256 x = if x % 2 = 0 then 1#4 else 2#4 := fun x hx => by
    unfold pix
    rw [if_neg (by omega), if_neg (by simp only [List.length_replicate]; omega), hb _ (by omega)]
    rfl
  refine ⟨fun x h => ?_, by decide +kernel⟩
  rw [hp x (by omega), hp (x + 1) h]
  rcases Nat.mod_two_eq_zero_or_one x with hx | hx
  · rw [if_pos hx, if_neg (by omega)]; decide
  · rw [if_neg (by omega), if_pos (by omega)]; decide

/-- SegmentFacts: positions with a run that another pixel ends, a literal that a repetition ends, a literal of length 1 at the row's
end, and the A B B pattern. -/
theorem witness_SegmentFacts :
    (0 < 3 ∧ segmentAt [0x11#8, 0x20#8] 3 0 = .run 2 1#4) ∧ (0 < 4 ∧ segmentAt [0x12#8, 0x33#8] 4 0 = .literal 2 [0x12#8]) ∧
    (2 < 3 ∧ segmentAt [0x11#8, 0x20#8] 3 2 = .literal 1 [0x20#8]) ∧
    (0 < 3 ∧ segmentAt [0x12#8, 0x20#8] 3 0 = .single 1#4) := by decide

/-- ByteCodecSizes: a run at the cap before the same byte, a run another byte ends, a lone byte at the end; the last plain byte and
the first control byte. -/
theorem witness_ByteCodecSizes :
    (1 ≤ 63 ∧ 63 ≤ 63 ∧ ([0x41#8] : List Byte).head? = some 0x41#8) ∧ (1 ≤ 2 ∧ 2 ≤ 63 ∧ ([0x42#8] : List Byte).head? ≠ some 0x41#8) ∧
    (1 ≤ 1 ∧ ([] : List Byte).head? ≠ some 0xC0#8) ∧ (0xBF#8 : Byte).toNat < 0xC0 ∧ 0xC0 ≤ (0xC0#8 : Byte).toNat := by decide

/-- StatusReadsAndClears: a state for each outcome code. -/
theorem witness_StatusReadsAndClears (e : ErrCode) : ∃ s : State, s.status.err = e :=
  ⟨{ State.reset with status := ⟨true, false, false, e⟩ }, rfl⟩

/-- HiddenStepIsInvisible: a hidden step that moves the working state. -/
theorem witness_HiddenStepIsInvisible : ∃ s t : State, hiddenStep s = .next t ∧ t ≠ s :=
  ⟨within 0x5#32 [0x02#8, 0x11#8] 2#32 none [], _, rfl, by decide⟩

/-- HiddenStepKeepsTheCompletion, StepKeepsTheInvariant, CommandStart (second part): a state with the invariant, a command in flight. -/
theorem witness_invariant : ∃ s : State, s.Inv ∧ busy s = true :=
  ⟨startCommand 0x5#32 (State.resetWith small),
    ⟨by decide, by decide, by decide, ⟨rfl, rfl, rfl, rfl, beginWork_ok _⟩, by unfold ResultsOk; decide, by decide⟩, rfl⟩

theorem witness_HiddenStepKeepsTheCompletion :
    ∃ s t : State, s.Inv ∧ hiddenStep s = .next t ∧ t ≠ s :=
  ⟨startCommand 0x5#32 (State.resetWith small), _,
    ⟨by decide, by decide, by decide, ⟨rfl, rfl, rfl, rfl, beginWork_ok _⟩, by unfold ResultsOk; decide, by decide⟩, rfl,
    by decide⟩

theorem witness_StepKeepsTheInvariant : ∃ s t : State, s.Inv ∧ step s = .next t ∧ t ≠ s :=
  ⟨startCommand 0x5#32 (State.resetWith small), _,
    ⟨by decide, by decide, by decide, ⟨rfl, rfl, rfl, rfl, beginWork_ok _⟩, by unfold ResultsOk; decide, by decide⟩, rfl,
    by decide⟩

/-- ResetHasTheInvariant, ResetValues, FirstCommandAfterReset: the smallest and the largest legal parameters. -/
theorem witness_parameters :
    Params.Valid ⟨0, 4, 4⟩ ∧ Params.Valid ⟨0x40000, 65536, 65536⟩ ∧ ¬Params.Valid ⟨4, 4, 4⟩ ∧ ¬Params.Valid ⟨0, 6, 4⟩ ∧
    ¬Params.Valid ⟨0, 4, 65540⟩ := by decide

theorem witness_BusyEndsOnlyByCompletionOrReset :
    ∃ s t : State, busy s = true ∧ step s = .next t ∧ busy t = false :=
  ⟨within 0x0#32 [] 0#32 none [.complete], _, rfl, rfl, rfl⟩

/-- IllegalWordCompletes, second part: an IDLE engine and an illegal word. -/
theorem witness_IllegalWordCompletes_start :
    ∃ (s : State) (word : Word), s.engine = .idle ∧ decodeCommand word = .illegal word :=
  ⟨State.reset, 0x00000014#32, rfl, by decide⟩

/-- ConstantsStayConstant, RecordedFaultsStay, BusErrors (second part): a step with a fault recorded before it. -/
theorem witness_recorded_faults :
    ∃ s t : State, step s = .next t ∧ s.faults.busError = true ∧ s.faults.unwrittenSlice = true :=
  ⟨{ State.resetWith small with faults := ⟨true, true, false⟩, schedule := [.reset] }, _, rfl, rfl, rfl⟩

theorem witness_RecordedFaultsStay_stopped : ∃ s : State, s.faults.busyWrite = true :=
  ⟨{ State.resetWith small with faults := ⟨false, false, true⟩ }, rfl⟩

/-- CommandStart (first part), OperandWritesWhileIdle, InterruptFollowsDone: an IDLE engine. -/
theorem witness_idle : ∃ s : State, s.engine = .idle := ⟨State.reset, rfl⟩

/-- InterruptFollowsDone: a command that answers with the interrupt enabled, and a state with it disabled. -/
theorem witness_InterruptFollowsDone :
    ∃ s t u : State, isCommand .nop = true ∧ exec .nop s = .next t ∧ s.config.irqEn = true ∧ u.config.irqEn = false :=
  ⟨{ within 0x0#32 [] 0#32 none [] with config := ⟨.count, true⟩ }, _, State.reset, rfl, rfl, rfl, rfl⟩

/-- RegisterAccessWhileBusy: BUSY, and the last reserved offset. -/
theorem witness_RegisterAccessWhileBusy : ∃ (s : State) (sn : Snap) (w : Option Work) (off : Nat), s.engine = .busy sn w ∧
    0x038 ≤ off ∧ off = 0xFFC ∧ off % 4 = 0 :=
  ⟨within 0x0#32 [] 0#32 none [], withinSnap 0x0#32 [] 0#32, none, 0xFFC, rfl, by decide, rfl, rfl⟩

/-- IgnoredWritesAndReservedReads: the first and the last reserved offset. -/
theorem witness_IgnoredWritesAndReservedReads :
    (0x038 ≤ 0x038 ∧ 0x038 ≤ 0xFFC ∧ 0x038 % 4 = 0) ∧ (0x038 ≤ 0xFFC ∧ 0xFFC ≤ 0xFFC ∧ 0xFFC % 4 = 0) := by decide

/-- HolesReadZero: the first offset of the first hole, the byte after IN_BUF, the last byte of the window. -/
theorem witness_HolesReadZero :
    small.Valid ∧ widthBytes .b8 = some 1 ∧ widthBytes .b32 = some 4 ∧
    (0x1000 ≤ 0x1000 ∧ ¬(0x10000 ≤ 0x1000 ∧ 0x1000 < 0x10000 + small.inCap) ∧ 0x1000 % 4 = 0) ∧
    (0x1000 ≤ 0x10010 ∧ ¬(0x10000 ≤ 0x10010 ∧ 0x10010 < 0x10000 + small.inCap) ∧ 0x10010 % 4 = 0) ∧
    (0x3FFFF < 0x40000 ∧ ¬(0x20000 ≤ 0x3FFFF ∧ 0x3FFFF < 0x20000 + small.outCap) ∧ 0x3FFFF % 1 = 0) := by decide

/-- BusErrors: one access of each clause, at its bound. -/
theorem witness_BusErrors :
    (0x10001 < 0x40000 ∧ 0x10001 % 2 ≠ 0) ∧ (0x10002 < 0x40000 ∧ 0x10002 % 4 ≠ 0) ∧ (0xFFF < 0x40000 ∧ 0xFFF < 0x1000) := by
  decide

/-- BufferAccessWhileIdle: the last word of each buffer. -/
theorem witness_BufferAccessWhileIdle :
    ∃ s : State, s.params.Valid ∧ s.engine = .idle ∧ widthBytes .b32 = some 4 ∧ 12 % 4 = 0 ∧ 12 + 4 = s.params.inCap ∧
      12 + 4 = s.params.outCap :=
  ⟨State.resetWith small, by decide, rfl, rfl, rfl, rfl, rfl⟩

/-- BufferWriteWhileBusyIsAFault, BufferReadsWhileBusy: the last byte of each buffer, BUSY. -/
theorem witness_buffer_access_while_busy :
    ∃ (s : State) (sn : Snap) (w : Option Work), s.params.Valid ∧ s.engine = .busy sn w ∧ widthBytes .b8 = some 1 ∧
      0x1000F % 1 = 0 ∧ (0x10000 ≤ 0x1000F ∧ 0x1000F + 1 = 0x10000 + s.params.inCap) ∧
      (0x20000 ≤ 0x2000F ∧ 0x2000F + 1 = 0x20000 + s.params.outCap) :=
  ⟨within 0x0#32 [] 0#32 none [], withinSnap 0x0#32 [] 0#32, none, by decide, rfl, rfl, rfl, by decide, by decide⟩

/-- LittleEndianBuffers: the three sizes, and an offset just past the bytes written. -/
theorem witness_LittleEndianBuffers :
    (4 = 1 ∨ 4 = 2 ∨ 4 = 4) ∧ (3 < 4) ∧ ¬(Buffer.inBuf = Buffer.inBuf ∧ 8 ≤ 12 ∧ 12 < 8 + 4) ∧
    ¬(Buffer.outBuf = Buffer.inBuf ∧ 8 ≤ 8 ∧ 8 < 8 + 4) := by decide

/-- ResetStep: reset while BUSY. -/
theorem witness_ResetStep : ∃ (s : State) (rest : List Event), s.faults.busyWrite = false ∧ s.schedule = .reset :: rest ∧
    busy s = true :=
  ⟨within 0x4#32 [0x55#8] 2#32 none [.reset, .complete], [.complete], rfl, rfl, rfl⟩

/-- EncRowReadsOnlyItsSlice: two states that agree on the slice and differ elsewhere. -/
theorem witness_EncRowReadsOnlyItsSlice :
    ∃ (s1 s2 t1 t2 : State) (sn : Snap), s1.params = s2.params ∧ s1.engine = .busy sn none ∧ s2.engine = .busy sn none ∧
      sn.ptr.toNat ≤ s1.params.outCap ∧ sn.off.toNat + sn.len.toNat ≤ s1.params.inCap ∧
      (∀ i, i < sn.len.toNat → bufferByte s1 .inBuf (sn.off.toNat + i) = bufferByte s2 .inBuf (sn.off.toNat + i)) ∧
      exec .encRow s1 = .next t1 ∧ exec .encRow s2 = .next t2 ∧ s1 ≠ s2 :=
  ⟨within 0x4#32 [0x55#8] 2#32 none [], { within 0x4#32 [0x55#8] 2#32 none [] with result := 7#32 }, _, _,
    withinSnap 0x4#32 [0x55#8] 2#32, rfl, rfl, rfl, by decide, by decide, fun _ _ => rfl, rfl, rfl, by decide⟩

end Sys2Proof.Tests
end

section
/-! A hidden step of a decoder, from the schedule's turn down to the fetched record or item (spec/00_scope.md R2), and the
invariant at reset (spec/10_state.md R53). -/

namespace Sys2Proof.Machine

/-! ### The turns of the machine -/

/-- A machine that has not stopped takes the schedule's next event. -/
theorem step_of_schedule_cons (s : State) (e : Event) (events : List Event) (hb : s.faults.busyWrite = false)
    (hs : s.schedule = e :: events) : step s = runEvent { s with schedule := events } e := by
  simp [step, turn, hb, hs]

@[simp] theorem inputSlice_schedule (sn : Snap) (s : State) (events : List Event) :
    inputSlice sn { s with schedule := events } = inputSlice sn s := inputSlice_congr _ _ _ rfl rfl

/-! ### Hidden steps -/

/-- With both range checks passing, a hidden step is that of the command in flight (spec/60_exceptions.md R283). -/
theorem hiddenStep_of_in_range (s : State) (sn : Snap) (w : Option Work) (he : s.engine = .busy sn w)
    (hin : sn.off.toNat + sn.len.toNat ≤ s.params.inCap) (hout : sn.ptr.toNat ≤ s.params.outCap) :
    hiddenStep s = commandStep sn w s (decodeCommand sn.op) := by
  have hr : (inputInRange sn s && outputInRange sn s) = true := by
    rw [Bool.and_eq_true, inputInRange_iff, outputInRange_iff]
    exact ⟨hin, hout⟩
  simp [hiddenStep, he, hr]

/-- A row decoder that has not ended runs the record it fetches. -/
theorem recordStep_of_fetched (sn : Snap) (w : Option Work) (s : State) (i : Instr) (rest : List Byte)
    (hs : (workOf sn w).stop = none)
    (hd : nextRecord sn.w.toNat (inputSlice sn s) (workOf sn w) = .ok i rest) : recordStep sn w s = exec i s := by
  simp [recordStep, hs, hd]

/-- A byte decoder that has not ended runs the item it fetches. -/
theorem itemStep_of_fetched (sn : Snap) (w : Option Work) (s : State) (i : Instr) (rest : List Byte)
    (hs : (workOf sn w).stop = none)
    (hd : nextItem (inputSlice sn s) (workOf sn w).p = .ok i rest) : itemStep sn w s = exec i s := by
  simp [itemStep, hs, hd]

/-- A hidden step of DEC_ROW is the meaning of the record at the input index. -/
theorem hiddenStep_of_decodingRow (s : State) (sn : Snap) (wk : Work) (i : Instr) (rest : List Byte)
    (hin : sn.off.toNat + sn.len.toNat ≤ s.params.inCap) (hout : sn.ptr.toNat ≤ s.params.outCap)
    (hrow : DecodingRow sn wk s) (hd : nextRecord sn.w.toNat (inputSlice sn s) wk = .ok i rest) :
    hiddenStep s = exec i s := by
  obtain ⟨w, he, rfl, hop, hstop⟩ := hrow
  calc hiddenStep s = commandStep sn w s (decodeCommand sn.op) := hiddenStep_of_in_range s sn w he hin hout
    _ = recordStep sn w s := by rw [hop]; rfl
    _ = exec i s := recordStep_of_fetched sn w s i rest hstop hd

/-- A hidden step of BRLE_DEC is the meaning of the item at the input index. -/
theorem hiddenStep_of_decodingItems (s : State) (sn : Snap) (wk : Work) (i : Instr) (rest : List Byte)
    (hin : sn.off.toNat + sn.len.toNat ≤ s.params.inCap) (hout : sn.ptr.toNat ≤ s.params.outCap)
    (hitems : DecodingItems sn wk s) (hd : nextItem (inputSlice sn s) wk.p = .ok i rest) :
    hiddenStep s = exec i s := by
  obtain ⟨w, he, rfl, hop, hstop⟩ := hitems
  calc hiddenStep s = commandStep sn w s (decodeCommand sn.op) := hiddenStep_of_in_range s sn w he hin hout
    _ = itemStep sn w s := by rw [hop]; rfl
    _ = exec i s := itemStep_of_fetched sn w s i rest hstop hd

/-- Settles O6: the turn for a hidden step reaches the decoder's own step, which runs what it fetches. -/
theorem stepRunsTheRecordOrItem : Obligations.StepRunsTheRecordOrItem := by
  intro s sn wk events i rest hb hs hin hout
  rw [step_of_schedule_cons s .work events hb hs]
  constructor
  · intro hrow hd
    exact hiddenStep_of_decodingRow { s with schedule := events } sn wk i rest hin hout hrow
      (by rw [inputSlice_schedule]; exact hd)
  · intro hitems hd
    exact hiddenStep_of_decodingItems { s with schedule := events } sn wk i rest hin hout hitems
      (by rw [inputSlice_schedule]; exact hd)

/-! ### The state after reset -/

/-- After reset the result registers read 0, which is inside every bound (spec/10_state.md R44, R45, R53). -/
theorem resetWith_resultsOk (p : Params) : ResultsOk (State.resetWith p) :=
  ⟨Nat.zero_le _, Nat.zero_le _, (by decide : ((0#32).extractLsb' 16 16).toNat ≤ 130),
    (by decide : (0#32).extractLsb' 10 2 = 0#2)⟩

/-- Settles O41: the buffers hold no written byte, the engine is IDLE, the result registers are 0 and OVF is clear. -/
theorem resetHasTheInvariant : Obligations.ResetHasTheInvariant := by
  intro p hp
  have hengine : EngineOk (State.resetWith p) := trivial
  have hovf : (State.resetWith p).status.ovf ≠ true := Bool.false_ne_true
  exact ⟨hp, Memory.wf_nil _, Memory.wf_nil _, hengine, resetWith_resultsOk p, fun h => absurd h hovf⟩

end Sys2Proof.Machine
end

section
/-! Hidden steps and the completion step (spec/10_state.md R49, R50): a hidden step changes the working state alone, and what a
command outputs is the same from the working state before the step and after it. -/

namespace Sys2Proof.Machine

/-! ### The output from a working state one hidden step on -/

/-- ENC_ROW: the bytes that a turn moves into the output are the first of those that were to come. -/
theorem encodeOutput_encodeStep (sn : Snap) (row : List Byte) (wk : Work)
    (h : AccBounds sn.w.toNat wk.x wk.litLen wk.lit) :
    encodeOutput sn row (encodeStep row sn.w.toNat wk) = encodeOutput sn row wk := by
  simp only [encodeOutput, (encodeStep_spec row sn.w.toNat wk h).1]

/-- The decoder's loop may be entered one turn later: that turn ended it or consumed a byte, so the fuel is still enough. -/
theorem decodeRun_decodeStep (w : Nat) (stream : List Byte) (wk : Work) (hx : wk.x ≤ w) (hp : wk.p ≤ stream.length)
    (hs : wk.stop = none) : decodeRun w stream (decodeStep w stream wk) = decodeRun w stream wk := by
  have k := decodeStep_keeps w stream wk hx hp hs
  have hturn : decodeRun w stream wk = decodeLoop w stream stream.length (decodeStep w stream wk) := by
    simp [decodeRun, decodeLoop, hs]
  rw [hturn, decodeRun]
  rcases k.progress with hstop | hp'
  · rw [decodeLoop_stopped _ _ _ _ hstop, decodeLoop_stopped _ _ _ _ hstop]
  · exact decodeLoop_fuel w stream _ _ _ k.x_le k.p_le (by omega) (by omega)

theorem decodeOutput_decodeStep (sn : Snap) (stream : List Byte) (wk : Work) (hx : wk.x ≤ sn.w.toNat)
    (hp : wk.p ≤ stream.length) (hs : wk.stop = none) :
    decodeOutput sn stream (decodeStep sn.w.toNat stream wk) = decodeOutput sn stream wk := by
  simp only [decodeOutput, decodeRun_decodeStep _ stream wk hx hp hs]

/-- BRLE_ENC: the run that a step moves into the output is the first of those that were to come. -/
theorem brleEncodeOutput_brleEncodeStep (sn : Snap) (bytes : List Byte) (wk : Work) (hp : wk.p ≤ bytes.length) :
    brleEncodeOutput sn bytes (brleEncodeStep sn.profile bytes wk) = brleEncodeOutput sn bytes wk := by
  simp only [brleEncodeOutput, (brleEncodeStep_spec sn.profile bytes wk hp).1]

/-- One turn of the byte decoder's loop at an item, with the fuel the loop began with: an item has at least one byte. -/
theorem brleDecodeFrom_item (p : Profile) (bytes out : List Byte) (i len : Nat)
    (h : itemEffect p (nextItem bytes i) = some (out, len)) :
    brleDecodeFrom p bytes bytes.length i =
      (out ++ (brleDecodeFrom p bytes bytes.length (i + len)).1,
        (brleDecodeFrom p bytes bytes.length (i + len)).2) := by
  rw [brleDecodeFrom_fuel p bytes bytes.length (bytes.length + 1) i (by omega) (by omega)]
  simp [brleDecodeFrom, h]

theorem brleDecodeOutput_advance (sn : Snap) (bytes out : List Byte) (len : Nat) (wk : Work) (hs : wk.stop = none)
    (h : itemEffect sn.profile (nextItem bytes wk.p) = some (out, len)) :
    brleDecodeOutput sn bytes (advance out len wk) = brleDecodeOutput sn bytes wk := by
  simp [brleDecodeOutput, advance, hs, brleDecodeFrom_item _ _ _ _ _ h]

theorem brleDecodeOutput_endItems (sn : Snap) (bytes : List Byte) (wk : Work) (hs : wk.stop = none) (e : DecodeError)
    (h : nextItem bytes wk.p = .bad e) :
    brleDecodeOutput sn bytes (endItems wk) = brleDecodeOutput sn bytes wk := by
  have hnone : itemEffect sn.profile (nextItem bytes wk.p) = none := by rw [h]; rfl
  simp [brleDecodeOutput, endItems, hs, brleDecodeFrom_done _ _ _ _ hnone]

/-! ### The completion from a working state one hidden step on -/

/-- An output command that computes the same from two working states completes the same from both. -/
theorem outputCommand_setWork (compute : Snap → List Byte → Work → Output) (s : State) (sn : Snap) (w : Option Work)
    (wk : Work) (he : s.engine = .busy sn w)
    (h : compute sn (inputSlice sn s) wk = compute sn (inputSlice sn s) (workOf sn w)) :
    outputCommand compute (setWork sn wk s) = outputCommand compute s := by
  rw [outputCommand_busy _ _ _ _ he, outputCommand_busy _ _ _ _ (setWork_engine sn wk s), inputSlice_setWork,
    workOf_some, h, finishOutput_setWork]
  rfl

theorem completionStep_busy (s : State) (sn : Snap) (w : Option Work) (he : s.engine = .busy sn w) :
    completionStep s = exec (decodeCommand sn.op) s := by simp only [completionStep, he]

/-- What the invariant says of a command in flight. -/
theorem State.Inv.busy {s : State} {sn : Snap} {w : Option Work} (h : s.Inv) (he : s.engine = .busy sn w) :
    sn = captureSnap s.cmd s ∧ s.status.done = false ∧ s.status.ovf = false ∧ s.status.err = .none ∧
      Work.Ok sn (workOf sn w) := by
  obtain ⟨-, -, -, hengine, -, -⟩ := h
  rwa [EngineOk, he] at hengine

theorem Work.Ok.bounds {sn : Snap} {wk : Work} (h : Work.Ok sn wk) :
    wk.x ≤ sn.w.toNat ∧ wk.p ≤ sn.len.toNat ∧ AccBounds sn.w.toNat wk.x wk.litLen wk.lit := by
  obtain ⟨hx, hp, hsum, hcap, hodd, hlit, -⟩ := h
  exact ⟨hx, hp, hsum, hcap, hodd, hlit⟩

/-- A decoder in order ends with no code that is decided before it begins (spec/60_exceptions.md R282). -/
theorem Work.Ok.stop_ne {sn : Snap} {wk : Work} (h : Work.Ok sn wk) :
    wk.stop ≠ some .illegalOp ∧ wk.stop ≠ some .badRange := by
  obtain ⟨-, -, -, -, -, -, -, -, hillegal, hrange⟩ := h
  exact ⟨hillegal, hrange⟩

/-- Settles O39, operation by operation: what the command outputs is the same from the working state before the hidden step and
after it. -/
theorem hiddenStepKeepsTheCompletion : Obligations.HiddenStepKeepsTheCompletion := by
  intro s t hinv ht
  rcases hiddenStep_cases s with hsame | ⟨sn, w, wk, he, -, -, hnext, hop⟩
  · cases hsame.symm.trans ht
    rfl
  · cases hnext.symm.trans ht
    obtain ⟨-, -, -, -, hok⟩ := hinv.busy he
    obtain ⟨hx, hp, hacc⟩ := hok.bounds
    rw [← inputSlice_length sn s] at hp
    rw [completionStep_busy s sn w he, completionStep_busy _ sn (some wk) (setWork_engine sn wk s)]
    rcases hop with ⟨hop, rfl⟩ | ⟨hop, hs, rfl⟩ | ⟨hop, rfl⟩ | ⟨hop, hs, hitem⟩ <;> rw [hop]
    · exact outputCommand_setWork _ s sn w _ he (encodeOutput_encodeStep sn _ _ hacc)
    · exact outputCommand_setWork _ s sn w _ he (decodeOutput_decodeStep sn _ _ hx hp hs)
    · exact outputCommand_setWork _ s sn w _ he (brleEncodeOutput_brleEncodeStep sn _ _ hp)
    · refine outputCommand_setWork brleDecodeOutput s sn w _ he ?_
      rcases hitem with ⟨i, rest, out, len, hd, heff, rfl⟩ | ⟨e, hd, rfl⟩
      · exact brleDecodeOutput_advance sn _ out len _ hs (by rw [hd]; exact heff)
      · exact brleDecodeOutput_endItems sn _ _ hs e hd

end Sys2Proof.Machine
end

section
/-! The invariant of the machine (spec/10_state.md R45, R48, spec/60_exceptions.md R287): one lemma for each thing that a step can
do, and the step assembled from them. -/

namespace Sys2Proof.Machine

/-! ### What the invariant asks -/

theorem engineOk_idle (s : State) (he : s.engine = .idle) : EngineOk s := by
  rw [EngineOk, he]; trivial

theorem State.Inv.valid {s : State} (h : s.Inv) : s.params.Valid := h.1

/-- The invariant says nothing of the model's own fields (log 13). -/
theorem State.Inv.setOwnFields {s : State} (h : s.Inv) (epoch draws : Nat) (resp : Response) (faults : FaultMarks)
    (schedule : List Event) :
    State.Inv { s with epoch := epoch, draws := draws, resp := resp, faults := faults, schedule := schedule } := h

/-- While IDLE the invariant says nothing of the operand registers. -/
theorem State.Inv.setOperands {s : State} (h : s.Inv) (he : s.engine = .idle) (c : ConfigReg) (w x off len ptr : Word) :
    State.Inv { s with config := c, width := w, pixX := x, inOff := off, inLen := len, outPtr := ptr } := by
  obtain ⟨hparams, hin, hout, -, hres, hovf⟩ := h
  exact ⟨hparams, hin, hout, engineOk_idle _ he, hres, hovf⟩

/-- Bytes written inside a buffer keep the invariant. -/
theorem State.Inv.writeBuffer {s : State} (h : s.Inv) (buf : Buffer) (off : Nat) (bytes : List Byte)
    (hb : (buf = .inBuf → off + bytes.length ≤ s.params.inCap) ∧
      (buf = .outBuf → off + bytes.length ≤ s.params.outCap)) : (writeBuffer s buf off bytes).Inv := by
  obtain ⟨hparams, hin, hout, hengine, hres, hovf⟩ := h
  cases buf with
  | inBuf => exact ⟨hparams, Memory.wf_setBytes _ _ _ _ (hb.1 rfl) hin, hout, hengine, hres, hovf⟩
  | outBuf => exact ⟨hparams, hin, Memory.wf_setBytes _ _ _ _ (hb.2 rfl) hout, hengine, hres, hovf⟩

theorem State.Inv.setHazard {s : State} (h : s.Inv) : (setHazard s).Inv := h

/-! ### Completions -/

/-- A completion ends with nothing of the engine to keep in order; OVF may be set beside its code if that is no ILLEGAL_OP and no
BAD_RANGE. -/
theorem complete_inv (e : ErrCode) (s : State) (hparams : s.params.Valid)
    (hin : Memory.wf s.params.inCap s.inBuf = true) (hout : Memory.wf s.params.outCap s.outBuf = true)
    (hres : ResultsOk s) (hovf : s.status.ovf = true → e ≠ .illegalOp ∧ e ≠ .badRange) : (complete e s).Inv :=
  ⟨hparams, hin, hout, engineOk_idle _ rfl, hres, hovf⟩

/-- A command that writes no output completes with any code: its start cleared OVF (spec/60_exceptions.md R287). -/
theorem State.Inv.complete {s : State} {sn : Snap} {w : Option Work} (h : s.Inv) (he : s.engine = .busy sn w)
    (e : ErrCode) : (complete e s).Inv := by
  obtain ⟨-, -, hclear, -⟩ := h.busy he
  obtain ⟨hparams, hin, hout, -, hres, -⟩ := h
  exact complete_inv e s hparams hin hout hres fun hset => absurd (hclear.symm.trans hset) Bool.false_ne_true

/-- What the invariant asks of a RESULT (spec/10_state.md R44): RESULT[31:16] at most 130, RESULT[11:10] zero. -/
def ResultWordOk (v : Word) : Prop := (v.extractLsb' 16 16).toNat ≤ 130 ∧ v.extractLsb' 10 2 = 0#2

theorem resultWordOk_of_toNat (v : Word) (reclen low : Nat) (h : v.toNat = reclen * 65536 + low) (hr : reclen ≤ 130)
    (hlow : low < 65536) (hzero : low / 1024 % 4 = 0) : ResultWordOk v := by
  constructor
  · simp only [BitVec.extractLsb'_toNat, Nat.shiftRight_eq_div_pow]; omega
  · apply BitVec.eq_of_toNat_eq
    simp only [BitVec.extractLsb'_toNat, Nat.shiftRight_eq_div_pow, BitVec.toNat_ofNat]; omega

theorem getpixResult_ok (row : List Byte) (w x : Nat) : ResultWordOk (getpixResult row w x) := by
  have hlt := (pix row w x).isLt
  refine resultWordOk_of_toNat _ 0 (pix row w x).toNat ?_ (by omega) (by omega) (by omega)
  simp only [getpixResult, BitVec.toNat_setWidth]; omega

theorem hasrepResult_ok (row : List Byte) (w x : Nat) : ResultWordOk (hasrepResult row w x) := by
  unfold hasrepResult
  split
  · exact ⟨by decide, by decide⟩
  · exact ⟨by decide, by decide⟩

theorem scanResult_ok (row : List Byte) (w x : Nat) : ResultWordOk (scanResult row w x) := by
  by_cases hx : x < w
  · obtain ⟨-, hrec, -⟩ := recordBytes_bounds row w x hx
    obtain ⟨-, hlen, -⟩ := segment_bounds row w x hx
    have hpix := (pix row w x).isLt
    have hkind := (segmentKind (segmentAt row w x)).isLt
    exact resultWordOk_of_toNat _ _ ((pix row w x).toNat * 4096 + (segmentKind (segmentAt row w x)).toNat * 256 +
      segmentLength (segmentAt row w x)) (by rw [scanResult_toNat row w x hx]; omega) hrec (by omega) (by omega)
  · rw [scanResult, if_pos (Nat.le_of_not_lt hx)]
    exact ⟨by decide, by decide⟩

theorem State.Inv.setResult {s : State} (h : s.Inv) (v : Word) (hv : ResultWordOk v) :
    State.Inv { s with result := v } := by
  obtain ⟨hparams, hin, hout, hengine, ⟨hlen, hcons, -, -⟩, hovf⟩ := h
  exact ⟨hparams, hin, hout, hengine, ⟨hlen, hcons, hv.1, hv.2⟩, hovf⟩

/-- What the invariant asks of an output: a CONSUMED inside the slice of `n` bytes, and a code that may stand beside OVF. -/
def Output.Ok (n : Nat) (o : Output) : Prop :=
  (∀ c, o.consumed = some c → c ≤ n) ∧ o.err ≠ .illegalOp ∧ o.err ≠ .badRange

theorem encodeOutput_ok (sn : Snap) (row : List Byte) (wk : Work) : (encodeOutput sn row wk).Ok row.length :=
  ⟨nofun, nofun, nofun⟩

theorem decodeOutput_ok (sn : Snap) (stream : List Byte) (wk : Work) (hx : wk.x ≤ sn.w.toNat)
    (hp : wk.p ≤ stream.length) (h1 : wk.stop ≠ some .illegalOp) (h2 : wk.stop ≠ some .badRange) :
    (decodeOutput sn stream wk).Ok stream.length := by
  obtain ⟨hp', hne1, hne2⟩ := decodeLoop_bounds sn.w.toNat stream (stream.length + 1) wk hx hp h1 h2
  have herr : ∀ e : ErrCode, e ≠ .none → (decodeRun sn.w.toNat stream wk).stop ≠ some e →
      (decodeOutput sn stream wk).err ≠ e := by
    intro e hnone hne heq
    cases hstop : (decodeRun sn.w.toNat stream wk).stop with
    | none => rw [decodeOutput, hstop] at heq; exact hnone heq.symm
    | some c => rw [decodeOutput, hstop] at heq; exact hne (hstop.trans (congrArg some heq))
  refine ⟨?_, herr _ nofun hne1, herr _ nofun hne2⟩
  rintro c ⟨⟩
  exact hp'

theorem brleEncodeOutput_ok (sn : Snap) (bytes : List Byte) (wk : Work) :
    (brleEncodeOutput sn bytes wk).Ok bytes.length := by
  refine ⟨?_, nofun, nofun⟩
  rintro c ⟨⟩
  exact Nat.le_refl _

/-- The byte decoder's final index lies in the stream. -/
theorem brleDecodeFrom_index_le (p : Profile) (bytes : List Byte) (fuel i : Nat) (hi : i ≤ bytes.length) :
    (brleDecodeFrom p bytes fuel i).2 ≤ bytes.length := by
  induction fuel generalizing i with
  | zero => exact hi
  | succ fuel ih =>
    unfold brleDecodeFrom
    split
    · exact hi
    · next out len heff => exact ih _ (itemEffect_bound p bytes i len out heff).2

theorem brleDecodeOutput_ok (sn : Snap) (bytes : List Byte) (wk : Work) (hp : wk.p ≤ bytes.length) :
    (brleDecodeOutput sn bytes wk).Ok bytes.length := by
  unfold brleDecodeOutput
  split <;> refine ⟨?_, nofun, nofun⟩ <;> rintro c ⟨⟩
  · exact hp
  · exact brleDecodeFrom_index_le _ bytes _ _ hp

/-- The completion of an output command (spec/20_memory.md R80): OUT_LEN is at most the room left, CONSUMED lies in the slice. -/
theorem State.Inv.finishOutput {s : State} (h : s.Inv) (sn : Snap) (o : Output) (n : Nat)
    (hptr : sn.ptr.toNat ≤ s.params.outCap) (hn : n ≤ s.params.inCap) (ho : o.Ok n) : (finishOutput sn o s).Inv := by
  obtain ⟨hparams, hin, hout, -, ⟨hlen, hcons, hrec, hzero⟩, -⟩ := h
  obtain ⟨hc, hne⟩ := ho
  have hlen' : (writeConsumed o.consumed (writeOutput sn.ptr.toNat o.bytes s)).outLen.toNat ≤ s.params.outCap := by
    rw [writeConsumed_outLen, writeOutput_outLen, BitVec.toNat_ofNat, List.length_take]
    exact (Nat.mod_le _ _).trans (by omega)
  have hcons' : (writeConsumed o.consumed (writeOutput sn.ptr.toNat o.bytes s)).consumed.toNat ≤ s.params.inCap := by
    cases hoc : o.consumed with
    | none => exact hcons
    | some c =>
      rw [writeConsumed_some, BitVec.toNat_ofNat]
      exact (Nat.mod_le _ _).trans ((hc c hoc).trans hn)
  refine complete_inv o.err _ ?_ ?_ ?_ ⟨?_, ?_, ?_, ?_⟩ fun _ => hne <;>
    simp only [writeConsumed_params, writeOutput_params, writeConsumed_inBuf, writeOutput_inBuf, writeConsumed_outBuf,
      writeConsumed_result, writeOutput_result]
  · exact hparams
  · exact hin
  · exact writeOutput_wf _ _ s hptr hout
  · exact hlen'
  · exact hcons'
  · exact hrec
  · exact hzero

/-- Every command's completion keeps the invariant. -/
theorem exec_command_inv (i : Instr) (s t : State) (hi : isCommand i = true) (h : s.Inv) (ht : exec i s = .next t) :
    t.Inv := by
  obtain ⟨sn, w, he, hcase⟩ := exec_command_cases i s t hi ht
  obtain ⟨-, -, -, -, hok⟩ := h.busy he
  obtain ⟨hx, hp, -⟩ := hok.bounds
  obtain ⟨hillegal, hrange⟩ := hok.stop_ne
  have hnote : (noteSlice sn s).Inv := h.setOwnFields _ _ _ _ _
  rw [← inputSlice_length sn s] at hp
  rcases hcase with rfl | rfl | rfl | ⟨v, -, rfl, hv⟩ | ⟨hptr, -, rfl⟩ | ⟨hslice, hptr, hout⟩
  · exact h.complete he _
  · exact h.complete he _
  · exact h.complete he _
  · have hword : ResultWordOk v := by
      rcases hv with rfl | rfl | rfl
      · exact getpixResult_ok _ _ _
      · exact hasrepResult_ok _ _ _
      · exact scanResult_ok _ _ _
    exact (hnote.setResult v hword).complete (w := w) he _
  · exact h.finishOutput sn _ 0 hptr (Nat.zero_le _) ⟨nofun, nofun, nofun⟩
  · have hn : (inputSlice sn s).length ≤ s.params.inCap := by rw [inputSlice_length]; omega
    have hfinish : ∀ o : Output, o.Ok (inputSlice sn s).length →
        (finishOutput sn o (noteSlice sn s)).Inv := fun o ho => hnote.finishOutput sn o _ hptr hn ho
    rcases hout with ⟨-, rfl⟩ | ⟨-, rfl⟩ | ⟨-, rfl⟩ | ⟨-, rfl⟩
    · exact hfinish _ (encodeOutput_ok sn _ _)
    · exact hfinish _ (decodeOutput_ok sn _ _ hx hp hillegal hrange)
    · exact hfinish _ (brleEncodeOutput_ok sn _ _)
    · exact hfinish _ (brleDecodeOutput_ok sn _ _ hp)

/-! ### Hidden steps -/

/-- A working state that differs in its index and its output alone, DEC_ROW not being in flight. -/
theorem Work.Ok.advance {sn : Snap} {wk : Work} (h : Work.Ok sn wk) (hop : decodeCommand sn.op ≠ .decRow)
    (out : List Byte) (len : Nat) (hp : wk.p + len ≤ sn.len.toNat) : Work.Ok sn (advance out len wk) := by
  obtain ⟨hx, -, hsum, hcap, hodd, hlit, henc, -, hillegal, hrange⟩ := h
  exact ⟨hx, hp, hsum, hcap, hodd, hlit, henc, fun hdec => absurd hdec hop, hillegal, hrange⟩

theorem Work.Ok.endItems {sn : Snap} {wk : Work} (h : Work.Ok sn wk) : Work.Ok sn (endItems wk) := by
  obtain ⟨hx, hp, hsum, hcap, hodd, hlit, henc, hrow, -, -⟩ := h
  exact ⟨hx, hp, hsum, hcap, hodd, hlit, henc, hrow, nofun, nofun⟩

theorem Work.Ok.encodeStep {sn : Snap} {wk : Work} (h : Work.Ok sn wk) (hop : decodeCommand sn.op = .encRow)
    (row : List Byte) : Work.Ok sn (encodeStep row sn.w.toNat wk) := by
  obtain ⟨-, hp, hacc⟩ := h.bounds
  obtain ⟨hillegal, hrange⟩ := h.stop_ne
  obtain ⟨-, ⟨hsum, hcap, hodd, hlit⟩, hp', hstop⟩ := encodeStep_spec row sn.w.toNat wk hacc
  rw [← hp'] at hp
  rw [← hstop] at hillegal hrange
  exact ⟨by omega, hp, hsum, hcap, hodd, hlit, fun hne => absurd hop hne, fun hdec => by simp [hop] at hdec, hillegal,
    hrange⟩

theorem Work.Ok.decodeStep {sn : Snap} {wk : Work} (h : Work.Ok sn wk) (hop : decodeCommand sn.op = .decRow)
    (hs : wk.stop = none) (stream : List Byte) (hl : stream.length = sn.len.toNat) :
    Work.Ok sn (decodeStep sn.w.toNat stream wk) := by
  obtain ⟨hx, hp, -, -, -, hlit, henc, hrow, -, -⟩ := h
  have k := decodeStep_keeps sn.w.toNat stream wk hx (by omega) hs
  have hzero : wk.litLen = 0 := henc (by simp [hop])
  have hx' := k.x_le
  have hp' := k.p_le
  rw [Work.Ok, k.litLen, k.lit, k.out, hzero]
  rw [hzero] at hlit
  exact ⟨hx', by omega, hx', by omega, by omega, hlit, fun _ => rfl, hrow, k.notIllegal, k.notRange⟩

theorem Work.Ok.brleEncodeStep {sn : Snap} {wk : Work} (h : Work.Ok sn wk) (hop : decodeCommand sn.op = .brleEnc)
    (bytes : List Byte) (hl : bytes.length = sn.len.toNat) : Work.Ok sn (brleEncodeStep sn.profile bytes wk) := by
  obtain ⟨-, hp, -⟩ := h.bounds
  have hp' := (brleEncodeStep_spec sn.profile bytes wk (by omega)).2
  unfold Machine.brleEncodeStep at hp' ⊢
  split at hp'
  · exact h
  · exact h.advance (by simp [hop]) _ _ (by rw [← hl]; exact hp')

theorem State.Inv.setWork {s : State} {sn : Snap} {w : Option Work} (h : s.Inv) (he : s.engine = .busy sn w) (wk : Work)
    (hok : Work.Ok sn wk) : (setWork sn wk s).Inv := by
  obtain ⟨hsnap, hdone, hclear, herr, -⟩ := h.busy he
  obtain ⟨hparams, hin, hout, -, hres, hovf⟩ := h
  exact ⟨hparams, hin, hout, ⟨hsnap, hdone, hclear, herr, hok⟩, hres, hovf⟩

/-- A hidden step keeps the invariant: the working state stays in order. -/
theorem hiddenStep_inv (s t : State) (h : s.Inv) (ht : hiddenStep s = .next t) : t.Inv := by
  rcases hiddenStep_cases s with hsame | ⟨sn, w, wk, he, -, -, hnext, hop⟩
  · cases hsame.symm.trans ht
    exact h
  · cases hnext.symm.trans ht
    obtain ⟨-, -, -, -, hok⟩ := h.busy he
    have hl := inputSlice_length sn s
    refine h.setWork he wk ?_
    rcases hop with ⟨hop, rfl⟩ | ⟨hop, hs, rfl⟩ | ⟨hop, rfl⟩ | ⟨hop, -, ⟨i, rest, out, len, hd, heff, rfl⟩ | ⟨e, -, rfl⟩⟩
    · exact hok.encodeStep hop _
    · exact hok.decodeStep hop hs _ hl
    · exact hok.brleEncodeStep hop _ hl
    · have hb := itemEffect_bound sn.profile (inputSlice sn s) (workOf sn w).p len out (by rw [hd]; exact heff)
      exact hok.advance (by simp [hop]) out len (by omega)
    · exact hok.endItems

/-! ### Host accesses -/

/-- A command start (spec/10_state.md R48) puts everything of the engine in order. -/
theorem State.Inv.startCommand {s : State} (h : s.Inv) (op : Word) : (startCommand op s).Inv := by
  obtain ⟨hparams, hin, hout, -, hres, -⟩ := h
  exact ⟨hparams, hin, hout, ⟨rfl, rfl, rfl, rfl, beginWork_ok _⟩, hres, nofun⟩

/-- A STATUS write can only clear DONE and HAZ. -/
theorem State.Inv.writeStatus {s : State} (h : s.Inv) (v : Word) : (writeStatus v s).Inv := by
  have hengine : EngineOk (Machine.writeStatus v s) := by
    cases he : s.engine with
    | idle => exact engineOk_idle _ he
    | busy sn w =>
      obtain ⟨hsnap, hdone, hclear, herr, hok⟩ := h.busy he
      rw [EngineOk, writeStatus_engine, he]
      exact ⟨hsnap, by simp [hdone], hclear, herr, hok⟩
  obtain ⟨hparams, hin, hout, -, hres, hovf⟩ := h
  exact ⟨hparams, hin, hout, hengine, hres, hovf⟩

theorem State.Inv.whileIdle {s taken : State} (h : s.Inv) (ht : s.engine = .idle → taken.Inv) :
    (whileIdle s taken).Inv := by
  cases he : s.engine with
  | idle => simpa [Machine.whileIdle, busy_idle s he] using ht he
  | busy sn w => simpa [Machine.whileIdle, busy_of_engine s sn w he] using h.setHazard

theorem regWrite_inv (s : State) (v : Word) (r : Reg) (h : s.Inv) : (regWrite s v r).Inv := by
  cases r with
  | id | inCap | outCap | outLen | consumed | result => exact h
  | config | width | pixX | inOff | inLen | outPtr => exact h.whileIdle fun he => h.setOperands he _ _ _ _ _ _
  | cmd => exact h.whileIdle fun _ => h.startCommand v
  | status => exact h.writeStatus v

/-- A write of n bytes that lands in a buffer: taken, or while BUSY replaced by free values (spec/70_reset_and_hazards.md R330). -/
theorem bufferAccess_inv (s : State) (buf : Buffer) (off n : Nat) (v : Word) (h : s.Inv)
    (hb : (buf = .inBuf → off + n ≤ s.params.inCap) ∧ (buf = .outBuf → off + n ≤ s.params.outCap)) :
    (writeValue s (.buffer buf off) n v).Inv := by
  simp only [writeValue]
  split
  · have hw := h.writeBuffer buf off ((List.range n).map fun i => Config.collisionByte (s.draws + i)) (by simpa using hb)
    exact (hw.setOwnFields _ (s.draws + n) _ { s.faults with busyWrite := true } _).setHazard
  · have hl : ((bytesOfWord v).take n).length ≤ n := List.length_take_le _ _
    exact h.writeBuffer buf off _ ⟨fun e => by have := hb.1 e; omega, fun e => by have := hb.2 e; omega⟩

theorem writeValue_inv (s : State) (off n : Nat) (width : Width) (v : Word) (h : s.Inv) (hw : widthBytes width = some n)
    (hs : supported (regionAt s.params off) width off = true) : (writeValue s (regionAt s.params off) n v).Inv := by
  cases hr : regionAt s.params off with
  | register o =>
    simp only [writeValue]
    split
    · exact regWrite_inv s v _ h
    · exact h
  | buffer buf o =>
    exact bufferAccess_inv s buf o n v h (supported_buffer_bound s.params off o n buf width h.valid hw hr (hr ▸ hs))
  | hole => exact h

/-- A supported width has its bytes. -/
theorem widthBytes_of_supported (region : Region) (width : Width) (off : Nat) (hs : supported region width off = true) :
    ∃ n, widthBytes width = some n := by
  cases width with
  | b8 | b16 | b32 => exact ⟨_, rfl⟩
  | wider => cases hs

theorem windowAccess_inv (s : State) (off : Nat) (width : Width) (op : BusOp) (h : s.Inv) :
    (windowAccess s off width op).Inv := by
  unfold windowAccess
  simp only []
  split
  · next hs =>
    cases op with
    | read => exact h.setOwnFields _ _ _ _ _
    | write v =>
      obtain ⟨n, hw⟩ := widthBytes_of_supported _ _ _ hs
      rw [hw]
      exact (writeValue_inv s off n width v h hw hs).setOwnFields _ _ _ _ _
  · exact h.setOwnFields _ _ _ _ _

theorem hostAccess_inv (a : Access) (s : State) (h : s.Inv) : (hostAccess a s).Inv := by
  unfold hostAccess
  split
  · exact windowAccess_inv s _ _ _ h
  · exact h.setOwnFields _ _ _ _ _

/-! ### The step -/

theorem applyReset_inv (s : State) (h : s.Inv) : (applyReset s).Inv :=
  (resetHasTheInvariant s.params h.valid).setOwnFields _ _ _ _ _

theorem completionStep_inv (s t : State) (h : s.Inv) (ht : completionStep s = .next t) : t.Inv := by
  cases he : s.engine with
  | idle =>
    simp only [completionStep, he] at ht
    cases ht
    exact h
  | busy sn w =>
    rw [completionStep_busy s sn w he] at ht
    exact exec_command_inv _ s t (by simp [isCommand, decodeCommand_format]) h ht

theorem runEvent_inv (s t : State) (e : Event) (h : s.Inv) (ht : runEvent s e = .next t) : t.Inv := by
  cases e with
  | host a => cases ht; exact hostAccess_inv a s h
  | work => exact hiddenStep_inv s t h ht
  | complete => exact completionStep_inv s t h ht
  | reset => cases ht; exact applyReset_inv s h

/-- If a step answers a next state, the machine had not stopped, and it took the schedule's next event, or with the schedule
exhausted the completion step. -/
theorem step_next_cases (s t : State) (h : step s = .next t) :
    s.faults.busyWrite = false ∧
      ((s.schedule = [] ∧ completionStep s = .next t) ∨
        ∃ e rest, s.schedule = e :: rest ∧ runEvent { s with schedule := rest } e = .next t) := by
  unfold step at h
  split at h
  · cases h
  · next hb =>
    refine ⟨by simpa using hb, ?_⟩
    unfold turn at h
    split at h
    · next hs => exact .inl ⟨hs, h⟩
    · next e rest hs => exact .inr ⟨e, rest, hs, h⟩

/-- Settles O40, turn by turn: a host access, a hidden step, the completion step or a reset. -/
theorem stepKeepsTheInvariant : Obligations.StepKeepsTheInvariant := by
  intro s t hinv ht
  obtain ⟨-, ⟨-, hc⟩ | ⟨e, rest, -, hr⟩⟩ := step_next_cases s t ht
  · exact completionStep_inv s t hinv hc
  · exact runEvent_inv _ t e (hinv.setOwnFields _ _ _ _ rest) hr

end Sys2Proof.Machine
end

section
/-! What commands, hidden steps and the completion step leave (spec/10_state.md R49 to R51), and the machine right after reset
(R53). -/

namespace Sys2Proof.Machine

/-! ### Commands -/

theorem resultCommand_completes (value : List Byte → Nat → Nat → Word) (s : State) (sn : Snap) (w : Option Work)
    (he : s.engine = .busy sn w) :
    ∃ t, resultCommand value s = .next t ∧ t.engine = .idle ∧ t.status.done = true := by
  rw [resultCommand_busy value s sn w he]
  split <;> exact ⟨_, rfl, rfl, rfl⟩

theorem outputCommand_completes (compute : Snap → List Byte → Work → Output) (s : State) (sn : Snap) (w : Option Work)
    (he : s.engine = .busy sn w) :
    ∃ t, outputCommand compute s = .next t ∧ t.engine = .idle ∧ t.status.done = true := by
  rw [outputCommand_busy compute s sn w he]
  split <;> exact ⟨_, rfl, rfl, rfl⟩

/-- EMIT_EOB while a command is in flight. -/
theorem execEmitEob_busy (s : State) (sn : Snap) (w : Option Work) (he : s.engine = .busy sn w) :
    execEmitEob s =
      if sn.ptr.toNat ≤ s.params.outCap then .next (finishOutput sn ⟨eobBytes, none, .none⟩ s)
      else .next (raise .badRange s) := by
  simp only [execEmitEob, he, outputInRange_iff]

/-- Settles O18: every path of every command's meaning ends in a completion. -/
theorem everyCommandCompletes : Obligations.EveryCommandCompletes := by
  intro i s sn w hi he
  cases i with
  | nop => exact ⟨complete .none s, by simp only [exec, execNop, he], rfl, rfl⟩
  | illegal word => exact ⟨raise .illegalOp s, by simp only [exec, execIllegal, he], rfl, rfl⟩
  | getpix | hasrep | scan => exact resultCommand_completes _ s sn w he
  | encRow | decRow | brleEnc | brleDec => exact outputCommand_completes _ s sn w he
  | emitEob =>
    rw [exec, execEmitEob_busy s sn w he]
    split <;> exact ⟨_, rfl, rfl, rfl⟩
  | run | eol | eob | lit1 | lit | rawLo | rawHi | ctrl | esc => cases hi

/-- A command that answers a state has completed there. -/
theorem exec_command_completed (i : Instr) (s t : State) (hi : isCommand i = true) (ht : exec i s = .next t) :
    t.engine = .idle ∧ t.status.done = true := by
  obtain ⟨sn, w, he, -⟩ := exec_command_cases i s t hi ht
  obtain ⟨t', ht', hdone⟩ := everyCommandCompletes i s sn w hi he
  cases ht.symm.trans ht'
  exact hdone

/-! ### Inputs -/

theorem keepsInputs_complete (e : ErrCode) (s : State) : KeepsInputs s (complete e s) := by simp [KeepsInputs]

theorem keepsInputs_setWork (sn : Snap) (wk : Work) (s : State) : KeepsInputs s (setWork sn wk s) := by
  simp [KeepsInputs]

theorem keepsInputs_finishOutput (sn : Snap) (o : Output) (s : State) : KeepsInputs s (finishOutput sn o s) := by
  simp [KeepsInputs, finishOutput]

/-- Marking the slice, and a RESULT, write no input. -/
theorem KeepsInputs.of_noteSlice {sn : Snap} {s t : State} {v : Word}
    (h : KeepsInputs { noteSlice sn s with result := v } t) : KeepsInputs s t := h

/-- Settles O20, by what a command and a stream's instruction can leave. -/
theorem noInstructionWritesItsInputs : Obligations.NoInstructionWritesItsInputs := by
  intro i s t ht
  cases hi : isCommand i with
  | true =>
    obtain ⟨sn, w, -, hcase⟩ := exec_command_cases i s t hi ht
    have hfinish : ∀ o, KeepsInputs s (finishOutput sn o (noteSlice sn s)) := fun o =>
      KeepsInputs.of_noteSlice (sn := sn) (v := s.result) (keepsInputs_finishOutput sn o (noteSlice sn s))
    rcases hcase with rfl | rfl | rfl | ⟨v, -, rfl, -⟩ | ⟨-, -, rfl⟩ | ⟨-, -, hout⟩
    · exact keepsInputs_complete _ s
    · exact keepsInputs_complete _ s
    · exact keepsInputs_complete _ s
    · exact KeepsInputs.of_noteSlice (keepsInputs_complete .none _)
    · exact keepsInputs_finishOutput sn _ s
    · rcases hout with ⟨-, rfl⟩ | ⟨-, rfl⟩ | ⟨-, rfl⟩ | ⟨-, rfl⟩ <;> exact hfinish _
  | false =>
    obtain ⟨sn, w, wk, -, rfl⟩ := exec_stream_cases i s t hi ht
    exact keepsInputs_setWork sn wk s

/-! ### Hidden steps and turns -/

/-- Settles O38: a hidden step does nothing, or puts the working state of the command in flight. -/
theorem hiddenStepIsInvisible : Obligations.HiddenStepIsInvisible := by
  intro s t ht
  rcases hiddenStep_cases s with hsame | ⟨sn, w, wk, he, -, -, hnext, -⟩
  · cases hsame.symm.trans ht
    exact ⟨rfl, rfl, fun _ w he => ⟨w, he⟩⟩
  · cases hnext.symm.trans ht
    refine ⟨rfl, (busy_of_engine s sn w he).symm, fun sn' w' he' => ⟨some wk, ?_⟩⟩
    cases he.symm.trans he'
    rfl

/-- Settles O5: the schedule's turn, or its end, is the completion step. -/
theorem stepRunsTheCommandInFlight : Obligations.StepRunsTheCommandInFlight := by
  intro s sn w hb he
  constructor
  · intro rest hs
    rw [step_of_schedule_cons s .complete rest hb hs]
    exact completionStep_busy { s with schedule := rest } sn w he
  · intro hs
    have hturn : step s = completionStep s := by simp [step, turn, hb, hs]
    rw [hturn, completionStep_busy s sn w he]

/-! ### The interrupt -/

/-- Settles O59: a completion sets DONE and keeps CONFIG; the acknowledge and the command start clear DONE. -/
theorem interruptFollowsDone : Obligations.InterruptFollowsDone := by
  refine ⟨fun _ => rfl, ?_, ?_, ?_, ?_⟩
  · intro i s t hi ht
    obtain ⟨-, hconfig, -⟩ := noInstructionWritesItsInputs i s t ht
    obtain ⟨-, hdone⟩ := exec_command_completed i s t hi ht
    simp [State.irq, hdone, hconfig]
  · intro s
    rw [hostAccess_reg]
    simp [State.irq, regWrite]
  · intro s word he
    rw [hostAccess_reg]
    simp [State.irq, regWrite, whileIdle, busy_idle s he]
  · intro s hen
    simp [State.irq, hen]

/-! ### Reset -/

/-- Settles O57: the register table of spec/10_state.md R31, row by row; a legal capacity fits in 32 bits. -/
theorem resetValues : Obligations.ResetValues := by
  intro p hp
  obtain ⟨-, -, -, hin, -, -, hout⟩ := hp
  refine ⟨rfl, ?_, ?_, ?_, rfl, rfl, fun buf _ => by cases buf <;> rfl⟩
  · exact Nat.mod_eq_of_lt (show p.inCap < 2 ^ 32 by omega)
  · exact Nat.mod_eq_of_lt (show p.outCap < 2 ^ 32 by omega)
  · intro r hid hincap houtcap
    cases r with
    | id => exact absurd rfl hid
    | inCap => exact absurd rfl hincap
    | outCap => exact absurd rfl houtcap
    | config => exact (by decide : configWord ⟨.count, false⟩ = 0#32)
    | status => exact BitVec.eq_of_toNat_eq (statusWord_toNat (State.resetWith p))
    | cmd | width | pixX | inOff | inLen | outPtr | outLen | consumed | result => rfl

end Sys2Proof.Machine
end

section
/-! The host's register accesses (spec/10_state.md R31 to R55): what the words of STATUS and CONFIG hold, and what a write comes to
while IDLE, while BUSY, and where nothing takes it. -/

namespace Sys2Proof.Machine

/-! ### STATUS and CONFIG as words -/

/-- The fields of STATUS in their places (spec/10_state.md R36). -/
theorem statusWord_fields (s : State) :
    (statusWord s).getLsbD 0 = busy s ∧ (statusWord s).getLsbD 1 = s.status.done ∧
      (statusWord s).getLsbD 2 = s.status.ovf ∧ (statusWord s).getLsbD 3 = s.status.haz ∧
      (statusWord s).extractLsb' 4 4 = errNumber s.status.err ∧ (statusWord s).extractLsb' 8 24 = 0#24 := by
  unfold statusWord
  generalize busy s = b; generalize s.status.done = d; generalize s.status.ovf = o; generalize s.status.haz = h
  generalize s.status.err = e
  revert b d o h
  cases e <;> decide

/-- The fields of CONFIG in their places (spec/10_state.md R34). -/
theorem configWord_fields (c : ConfigReg) :
    (configWord c).getLsbD 0 = decide (c.profile = .countM1) ∧ (configWord c).getLsbD 1 = c.irqEn ∧
      (configWord c).extractLsb' 2 30 = 0#30 := by
  obtain ⟨profile, irqEn⟩ := c
  cases profile <;> cases irqEn <;> decide

/-- A word masked by two of its bits. -/
theorem and_twoPow_or_twoPow (v : Word) (i j : Nat) :
    v &&& (BitVec.twoPow 32 i ||| BitVec.twoPow 32 j) =
      (if v.getLsbD i then BitVec.twoPow 32 i else 0#32) ||| (if v.getLsbD j then BitVec.twoPow 32 j else 0#32) := by
  rw [BitVec.and_or_distrib_left, BitVec.and_twoPow, BitVec.and_twoPow]

theorem statusWord_writeStatus (v : Word) (s : State) :
    statusWord (writeStatus v s) = statusWord s &&& ~~~(v &&& 0x0000000A#32) := by
  have hbusy : busy (writeStatus v s) = busy s := rfl
  have hmask : (0x0000000A#32 : Word) = BitVec.twoPow 32 1 ||| BitVec.twoPow 32 3 := by decide
  rw [hmask, and_twoPow_or_twoPow]
  simp only [statusWord, writeStatus_status, hbusy]
  generalize busy s = b; generalize s.status.done = d; generalize s.status.ovf = o; generalize s.status.haz = h
  generalize v.getLsbD 1 = v1; generalize v.getLsbD 3 = v3; generalize s.status.err = e
  revert b d o h v1 v3
  cases e <;> decide

theorem configWord_configOfWord (v : Word) : configWord (configOfWord v) = v &&& 0x00000003#32 := by
  have hmask : (0x00000003#32 : Word) = BitVec.twoPow 32 0 ||| BitVec.twoPow 32 1 := by decide
  rw [hmask, and_twoPow_or_twoPow]
  simp only [configOfWord]
  generalize v.getLsbD 0 = profile; generalize v.getLsbD 1 = irqEn
  revert profile irqEn
  decide

/-! ### Register writes -/

theorem whileIdle_of_idle (s taken : State) (he : s.engine = .idle) : whileIdle s taken = taken := by
  simp [whileIdle, busy_idle s he]

theorem whileIdle_of_busy (s taken : State) (sn : Snap) (w : Option Work) (he : s.engine = .busy sn w) :
    whileIdle s taken = setHazard s := by
  simp [whileIdle, busy_of_engine s sn w he]

/-- The registers that a host writes to no effect (spec/10_state.md R46). -/
theorem regWrite_readOnly (s : State) (v : Word) (r : Reg)
    (hr : r = .id ∨ r = .inCap ∨ r = .outCap ∨ r = .outLen ∨ r = .consumed ∨ r = .result) : regWrite s v r = s := by
  rcases hr with rfl | rfl | rfl | rfl | rfl | rfl <;> rfl

/-- A write to an operand register, to CONFIG or to CMD while BUSY (spec/10_state.md R55). -/
theorem regWrite_busy (s : State) (v : Word) (r : Reg) (sn : Snap) (w : Option Work) (he : s.engine = .busy sn w)
    (hr : r = .config ∨ r = .cmd ∨ r = .width ∨ r = .pixX ∨ r = .inOff ∨ r = .inLen ∨ r = .outPtr) :
    regWrite s v r = setHazard s := by
  rcases hr with rfl | rfl | rfl | rfl | rfl | rfl | rfl <;> exact whileIdle_of_busy s _ sn w he

/-- A write to an operand register, to CONFIG or to CMD while IDLE is taken. -/
theorem hostAccess_write_idle (s : State) (r : Reg) (v : Word) (taken : State) (he : s.engine = .idle)
    (hr : regWrite s v r = whileIdle s taken) :
    hostAccess (regAccess s.params r (.write v)) s = { taken with resp := .written } := by
  rw [hostAccess_reg]
  simp only [hr, whileIdle_of_idle s taken he]

/-- A register stands at its own offset and nowhere else (spec/10_state.md R31). -/
theorem regAt_some (off : Nat) (r : Reg) (h : regAt off = some r) : off = regOffset r := by
  unfold regAt at h
  split at h <;> cases h <;> rfl

theorem regOffset_le (r : Reg) : regOffset r ≤ 0x034 := by cases r <;> decide

theorem regAt_reserved (off : Nat) (h : 0x038 ≤ off) : regAt off = none := by
  cases hr : regAt off with
  | none => rfl
  | some r =>
    have hoff := regAt_some off r hr
    have hle := regOffset_le r
    omega

/-- An aligned 32-bit access to a reserved offset reads 0 and writes nothing (spec/10_state.md R46). -/
theorem hostAccess_reserved (s : State) (off : Nat) (hlo : 0x038 ≤ off) (hhi : off ≤ 0xFFC) (halign : off % 4 = 0) :
    hostAccess ⟨s.params.base + off, .b32, .read⟩ s = { s with resp := .data 0#32 } ∧
      ∀ v, hostAccess ⟨s.params.base + off, .b32, .write v⟩ s = { s with resp := .written } := by
  have hregion : regionAt s.params off = .register off := by rw [regionAt, if_pos (by omega)]
  have hsupported : supported (.register off) .b32 off = true := by simp [supported, widthBytes, halign]
  have hnone := regAt_reserved off hlo
  constructor
  · rw [hostAccess_window s off _ _ (by omega)]
    simp [windowAccess, hregion, hsupported, readValue, readDraws, hnone]
  · intro v
    rw [hostAccess_window s off _ _ (by omega)]
    simp [windowAccess, hregion, hsupported, writeValue, hnone]

/-! ### The statements -/

/-- Settles O48, by the fields of the word and the mask of a write. -/
theorem statusReadsAndClears : Obligations.StatusReadsAndClears := by
  intro s v
  obtain ⟨hbusy, hdone, hovf, hhaz, herr, hzero⟩ := statusWord_fields s
  have hcode : ∀ e, s.status.err = e → (regRead s .status).extractLsb' 4 4 = errNumber e := fun e he => he ▸ herr
  refine ⟨hbusy, hdone, hovf, hhaz, hcode _, hcode _, hcode _, hcode _, hcode _, hcode _, hcode _, hzero, ?_⟩
  rintro t rfl
  rw [hostAccess_reg]
  exact ⟨rfl, statusWord_writeStatus v s⟩

/-- Settles O45: a CMD write while IDLE is the command start; the invariant says what `snap` is. -/
theorem commandStart : Obligations.CommandStart := by
  constructor
  · intro s word he
    exact hostAccess_write_idle s .cmd word (startCommand word s) he rfl
  · intro s sn w hinv he
    obtain ⟨hsnap, -⟩ := hinv.busy he
    exact hsnap

/-- Settles O46: while IDLE each operand register takes the word, CONFIG its two stored bits. -/
theorem operandWritesWhileIdle : Obligations.OperandWritesWhileIdle := by
  intro s v he
  exact ⟨hostAccess_write_idle s .width v _ he rfl, hostAccess_write_idle s .pixX v _ he rfl,
    hostAccess_write_idle s .inOff v _ he rfl, hostAccess_write_idle s .inLen v _ he rfl,
    hostAccess_write_idle s .outPtr v _ he rfl,
    configOfWord v, hostAccess_write_idle s .config v _ he rfl, configWord_configOfWord v⟩

/-- Settles O47: reads by the register's field, writes while BUSY by the register's class. -/
theorem registerAccessWhileBusy : Obligations.RegisterAccessWhileBusy := by
  refine ⟨fun s r => hostAccess_reg s r .read, fun s => ?_, fun s sn w r v he => ⟨?_, ?_, ?_, ?_⟩⟩
  · obtain ⟨hprofile, hirq, -⟩ := configWord_fields s.config
    exact ⟨rfl, rfl, rfl, rfl, rfl, rfl, rfl, rfl, rfl, rfl, rfl, hprofile, hirq⟩
  · intro hr
    simp only [hostAccess_reg, regWrite_busy s v r sn w he hr]
    rfl
  · rintro rfl
    exact hostAccess_reg s .status (.write v)
  · intro hr
    simp only [hostAccess_reg, regWrite_readOnly s v r hr]
  · intro off hlo hhi halign
    exact (hostAccess_reserved s off hlo hhi halign).2 v

/-- Settles O49: the read-only registers, the reserved offsets, and the reserved bits of CONFIG and STATUS. -/
theorem ignoredWritesAndReservedReads : Obligations.IgnoredWritesAndReservedReads := by
  intro s v
  obtain ⟨-, -, hconfig⟩ := configWord_fields s.config
  obtain ⟨-, -, -, -, -, hstatus⟩ := statusWord_fields s
  refine ⟨fun r hr => ?_, fun off hlo hhi halign => ?_, hconfig, hstatus⟩
  · simp only [hostAccess_reg, regWrite_readOnly s v r hr]
  · obtain ⟨hread, hwrite⟩ := hostAccess_reserved s off hlo hhi halign
    exact ⟨hwrite v, hread⟩

end Sys2Proof.Machine
end

section
/-! The host's memory (spec/20_memory.md R71 to R78): what a supported and an unsupported access come to, the holes, the bytes of the
buffers, the bus errors, and that no step clears a recorded fault (R78, spec/70_reset_and_hazards.md R322, R330). -/

namespace Sys2Proof.Machine

/-! ### A supported access -/

/-- A supported access inside the window reads or writes at the place it lands on (spec/20_memory.md R76). -/
theorem hostAccess_supported (s : State) (off n : Nat) (width : Width) (region : Region) (hoff : off < 0x40000)
    (hw : widthBytes width = some n) (hr : regionAt s.params off = region) (hs : supported region width off = true) :
    hostAccess ⟨s.params.base + off, width, .read⟩ s =
        { s with resp := .data (readValue s region n), draws := s.draws + readDraws s region n } ∧
      ∀ v, hostAccess ⟨s.params.base + off, width, .write v⟩ s =
        { writeValue s region n v with resp := .written } := by
  constructor
  · rw [hostAccess_window s off width _ hoff]
    simp only [windowAccess, hr, hs, hw, if_true, Option.getD_some]
  · intro v
    rw [hostAccess_window s off width _ hoff]
    simp only [windowAccess, hr, hs, hw, if_true, Option.getD_some]

/-! ### Holes -/

/-- Outside register space and both buffers the window has a hole (spec/20_memory.md R71, R72). -/
theorem regionAt_hole (p : Params) (off : Nat) (hreg : 0x1000 ≤ off)
    (hin : ¬(0x10000 ≤ off ∧ off < 0x10000 + p.inCap)) (hout : ¬(0x20000 ≤ off ∧ off < 0x20000 + p.outCap)) :
    regionAt p off = .hole := by
  unfold regionAt inBufStart outBufStart
  rw [if_neg (by omega), if_neg hin, if_neg hout]

theorem supported_hole (off n : Nat) (width : Width) (hw : widthBytes width = some n) (halign : off % n = 0) :
    supported .hole width off = true := by simp [supported, hw, halign]

/-- Settles O50: the access is supported and lands on a hole, which reads 0 and takes nothing. -/
theorem holesReadZero : Obligations.HolesReadZero := by
  intro s off n width v _ hreg hoff hin hout hw halign
  obtain ⟨hread, hwrite⟩ := hostAccess_supported s off n width .hole hoff hw (regionAt_hole s.params off hreg hin hout)
    (supported_hole off n width hw halign)
  exact ⟨hread, hwrite v⟩

/-! ### Buffers -/

/-- While IDLE, an access that lands on a buffer is MemRead or MemWrite there (spec/20_memory.md R75, R77). -/
theorem hostAccess_buffer_idle (s : State) (off o n : Nat) (width : Width) (buf : Buffer) (he : s.engine = .idle)
    (hoff : off < 0x40000) (hw : widthBytes width = some n) (hr : regionAt s.params off = .buffer buf o)
    (hs : supported (.buffer buf o) width off = true) :
    hostAccess ⟨s.params.base + off, width, .read⟩ s = { s with resp := .data (bufferRead s buf o n) } ∧
      ∀ v, hostAccess ⟨s.params.base + off, width, .write v⟩ s =
        { bufferWrite s buf o n v with resp := .written } := by
  obtain ⟨hread, hwrite⟩ := hostAccess_supported s off n width _ hoff hw hr hs
  have hidle := busy_idle s he
  constructor
  · rw [hread]
    cases buf with
    | inBuf => rfl
    | outBuf => simp [readValue, readDraws, hidle]
  · intro v
    rw [hwrite v]
    simp [writeValue, hidle]

/-- Settles O53: each buffer stands at its place in the window, where the access is MemRead or MemWrite. -/
theorem bufferAccessWhileIdle : Obligations.BufferAccessWhileIdle := by
  intro s off n width v hvalid he hw halign
  obtain ⟨hin, hout⟩ := regionAt_buffer s.params off n width hvalid hw halign
  obtain ⟨-, -, -, hinCap, -, -, houtCap⟩ := hvalid
  constructor
  · intro hlt
    obtain ⟨hr, hs⟩ := hin hlt
    obtain ⟨hread, hwrite⟩ := hostAccess_buffer_idle s _ off n width .inBuf he (by omega) hw hr hs
    rw [Nat.add_assoc]
    exact ⟨hread, hwrite v⟩
  · intro hlt
    obtain ⟨hr, hs⟩ := hout hlt
    obtain ⟨hread, hwrite⟩ := hostAccess_buffer_idle s _ off n width .outBuf he (by omega) hw hr hs
    rw [Nat.add_assoc]
    exact ⟨hread, hwrite v⟩

/-! ### Bytes of a buffer -/

/-- The byte of a buffer at an offset where a byte was just written. -/
theorem bufferByte_writeBuffer_inside (s : State) (buf : Buffer) (off i : Nat) (bytes : List Byte) (b : Byte)
    (hb : bytes[i]? = some b) : bufferByte (writeBuffer s buf off bytes) buf (off + i) = b := by
  obtain ⟨hi, -⟩ := List.getElem?_eq_some_iff.mp hb
  rw [bufferByte, writeBuffer, memory_setMemory_same, Memory.get?_setBytes, if_pos (by omega), Nat.add_sub_cancel_left, hb]
  rfl

/-- Every byte that a buffer write does not address stays, of the other buffer too. -/
theorem bufferByte_writeBuffer_outside (s : State) (buf buf' : Buffer) (off k : Nat) (bytes : List Byte)
    (hk : ¬(buf' = buf ∧ off ≤ k ∧ k < off + bytes.length)) :
    bufferByte (writeBuffer s buf off bytes) buf' k = bufferByte s buf' k := by
  rw [bufferByte, writeBuffer_epoch, writeBuffer]
  by_cases hbuf : buf' = buf
  · subst hbuf
    rw [memory_setMemory_same, Memory.get?_setBytes, if_neg fun h => hk ⟨rfl, h⟩, bufferByte]
  · rw [memory_setMemory_other s buf buf' _ hbuf, bufferByte]

/-- Byte i of a word is `v[8i+7:8i]` (spec/20_memory.md R77). -/
theorem bytesOfWord_getElem? (v : Word) (i : Nat) (hi : i < 4) :
    (bytesOfWord v)[i]? = some (v.extractLsb' (8 * i) 8) := by
  match i, hi with
  | 0, _ | 1, _ | 2, _ | 3, _ => rfl

/-- MemRead as a sum (spec/20_memory.md R77). -/
theorem bufferRead_toNat (s : State) (buf : Buffer) (a n : Nat) (hn : n ≤ 4) :
    (bufferRead s buf a n).toNat =
      ((List.range n).map fun i => (bufferByte s buf (a + i)).toNat * 2 ^ (8 * i)).sum := by
  obtain ⟨hsum, -⟩ := wordOfLittle_toNat ((List.range n).map fun i => bufferByte s buf (a + i)) (by simpa using hn)
  rw [bufferRead, hsum, List.length_map, List.length_range]
  congr 1
  refine List.map_congr_left fun i hi => ?_
  have hlt : i < n := List.mem_range.mp hi
  simp [List.getD_eq_getElem?_getD, hlt]

/-- Settles O52: the sum of the bytes read, the bytes of the word written, and the bytes left. -/
theorem littleEndianBuffers : Obligations.LittleEndianBuffers := by
  intro s buf a n v hn
  have hn4 : n ≤ 4 := by omega
  refine ⟨bufferRead_toNat s buf a n hn4, fun i hi => ?_, fun buf' k hk => ?_⟩
  · refine bufferByte_writeBuffer_inside s buf a i _ _ ?_
    rw [List.getElem?_take_of_lt hi, bytesOfWord_getElem? v i (by omega)]
  · have hlen : ((bytesOfWord v).take n).length = n := by
      rw [List.length_take]
      exact Nat.min_eq_left hn4
    exact bufferByte_writeBuffer_outside s buf buf' a k _ (by rwa [hlen])

/-! ### Bus errors -/

/-- Supported accesses are aligned to their width (spec/20_memory.md R76). -/
theorem aligned_of_supported (region : Region) (width : Width) (off n : Nat) (hw : widthBytes width = some n)
    (hs : supported region width off = true) : off % n = 0 := by
  cases region with
  | register o =>
    simp only [supported, hw, Bool.and_eq_true, beq_iff_eq] at hs
    obtain ⟨-, halign⟩ := hs
    exact halign
  | buffer | hole => simpa only [supported, hw, beq_iff_eq] using hs

/-- Register space takes 32 bits only (spec/20_memory.md R76). -/
theorem width_of_supported_register (o off : Nat) (width : Width) (hs : supported (.register o) width off = true) :
    width = .b32 := by
  cases width with
  | b32 => rfl
  | b8 | b16 | wider => cases hs

/-- The accesses that spec/20_memory.md R78 lists are not supported. -/
theorem supported_eq_false (p : Params) (off : Nat) (width : Width)
    (h : width = .wider ∨ (width = .b16 ∧ off % 2 ≠ 0) ∨ (width = .b32 ∧ off % 4 ≠ 0) ∨
      (off < 0x1000 ∧ (width = .b8 ∨ width = .b16))) :
    supported (regionAt p off) width off = false := by
  rw [Bool.eq_false_iff]
  intro hs
  rcases h with rfl | ⟨rfl, hodd⟩ | ⟨rfl, hodd⟩ | ⟨hlow, hnarrow⟩
  · cases hs
  · exact hodd (aligned_of_supported _ .b16 off 2 rfl hs)
  · exact hodd (aligned_of_supported _ .b32 off 4 rfl hs)
  · rw [regionAt, if_pos hlow] at hs
    cases width_of_supported_register off off width hs
    simp at hnarrow

/-- An unsupported access inside the window gets the bus-error response (spec/20_memory.md R78). -/
theorem hostAccess_unsupported (s : State) (off : Nat) (width : Width) (op : BusOp) (hoff : off < 0x40000)
    (hs : supported (regionAt s.params off) width off = false) :
    hostAccess ⟨s.params.base + off, width, op⟩ s = busErrorResponse s := by
  rw [hostAccess_window s off width op hoff]
  simp [windowAccess, hs]

/-! ### Recorded faults -/

/-- The marks with which a machine goes on stay (spec/20_memory.md R78, spec/70_reset_and_hazards.md R322 (b)). -/
def KeepsMarks (s t : State) : Prop :=
  (s.faults.busError = true → t.faults.busError = true) ∧
    (s.faults.unwrittenSlice = true → t.faults.unwrittenSlice = true)

theorem KeepsMarks.of_faults_eq {s t : State} (h : t.faults = s.faults) : KeepsMarks s t := by
  rw [KeepsMarks, h]
  exact ⟨id, id⟩

/-- Noting an unwritten slice only sets its mark. -/
theorem KeepsMarks.of_noteSlice {s t : State} (sn : Snap) (h : t.faults = (noteSlice sn s).faults) : KeepsMarks s t := by
  rw [KeepsMarks, h]
  exact ⟨id, fun hs => by simp [hs]⟩

@[simp] theorem finishOutput_faults (sn : Snap) (o : Output) (s : State) : (finishOutput sn o s).faults = s.faults := by
  simp [finishOutput]

theorem exec_keepsMarks (i : Instr) (s t : State) (ht : exec i s = .next t) : KeepsMarks s t := by
  cases hi : isCommand i with
  | true =>
    obtain ⟨sn, w, -, hcase⟩ := exec_command_cases i s t hi ht
    rcases hcase with rfl | rfl | rfl | ⟨v, -, rfl, -⟩ | ⟨-, -, rfl⟩ | ⟨-, -, hout⟩
    · exact .of_faults_eq rfl
    · exact .of_faults_eq rfl
    · exact .of_faults_eq rfl
    · exact .of_noteSlice sn rfl
    · exact .of_faults_eq (finishOutput_faults sn _ s)
    · rcases hout with ⟨-, rfl⟩ | ⟨-, rfl⟩ | ⟨-, rfl⟩ | ⟨-, rfl⟩ <;> exact .of_noteSlice sn (finishOutput_faults sn _ _)
  | false =>
    obtain ⟨sn, w, wk, -, rfl⟩ := exec_stream_cases i s t hi ht
    exact .of_faults_eq rfl

theorem completionStep_keepsMarks (s t : State) (ht : completionStep s = .next t) : KeepsMarks s t := by
  cases he : s.engine with
  | idle =>
    simp only [completionStep, he] at ht
    cases ht
    exact .of_faults_eq rfl
  | busy sn w =>
    rw [completionStep_busy s sn w he] at ht
    exact exec_keepsMarks _ s t ht

theorem hiddenStep_keepsMarks (s t : State) (ht : hiddenStep s = .next t) : KeepsMarks s t := by
  obtain ⟨hsame, -⟩ := hiddenStepIsInvisible s t ht
  rw [hsame]
  exact .of_faults_eq rfl

theorem whileIdle_faults (s taken : State) (h : taken.faults = s.faults) : (whileIdle s taken).faults = s.faults := by
  rw [whileIdle]
  split
  · rfl
  · exact h

/-- A register write records no fault. -/
theorem regWrite_faults (s : State) (v : Word) (r : Reg) : (regWrite s v r).faults = s.faults := by
  cases r with
  | id | inCap | outCap | outLen | consumed | result | status => rfl
  | config | cmd | width | pixX | inOff | inLen | outPtr => exact whileIdle_faults s _ rfl

/-- A host write records at most a buffer write while BUSY (spec/70_reset_and_hazards.md R330), and clears no mark. -/
theorem writeValue_keepsMarks (s : State) (region : Region) (n : Nat) (v : Word) :
    KeepsMarks s (writeValue s region n v) := by
  cases region with
  | register off =>
    simp only [writeValue]
    split
    · exact .of_faults_eq (regWrite_faults s v _)
    · exact .of_faults_eq rfl
  | buffer buf off =>
    simp only [writeValue]
    split
    · exact ⟨id, id⟩
    · exact .of_faults_eq (writeBuffer_faults s buf off _)
  | hole => exact .of_faults_eq rfl

theorem windowAccess_keepsMarks (s : State) (off : Nat) (width : Width) (op : BusOp) :
    KeepsMarks s (windowAccess s off width op) := by
  simp only [windowAccess]
  split
  · cases op with
    | read => exact .of_faults_eq rfl
    | write v => exact writeValue_keepsMarks s _ _ v
  · exact ⟨fun _ => rfl, id⟩

theorem hostAccess_keepsMarks (a : Access) (s : State) : KeepsMarks s (hostAccess a s) := by
  rw [hostAccess]
  split
  · exact windowAccess_keepsMarks s _ _ _
  · exact .of_faults_eq rfl

theorem runEvent_keepsMarks (s t : State) (e : Event) (ht : runEvent s e = .next t) : KeepsMarks s t := by
  cases e with
  | host a => cases ht; exact hostAccess_keepsMarks a s
  | work => exact hiddenStep_keepsMarks s t ht
  | complete => exact completionStep_keepsMarks s t ht
  | reset => cases ht; exact .of_faults_eq (applyReset_faults s)

/-- Every step that answers a state keeps the marks. -/
theorem step_keepsMarks (s t : State) (ht : step s = .next t) : KeepsMarks s t := by
  obtain ⟨-, ⟨-, hc⟩ | ⟨e, rest, -, hr⟩⟩ := step_next_cases s t ht
  · exact completionStep_keepsMarks s t hc
  · exact runEvent_keepsMarks { s with schedule := rest } t e hr

/-- Settles O44: the marks stay over every turn, and the mark of a buffer write while BUSY stops the machine. -/
theorem recordedFaultsStay : Obligations.RecordedFaultsStay :=
  fun s => ⟨step_keepsMarks s, fun hb => if_pos hb⟩

/-- Settles O51: the accesses that are not supported, and the mark they leave. -/
theorem busErrors : Obligations.BusErrors := by
  constructor
  · intro s off width op hoff h
    exact hostAccess_unsupported s off width op hoff (supported_eq_false s.params off width h)
  · intro s t hb ht
    obtain ⟨hbus, -⟩ := step_keepsMarks s t ht
    exact hbus hb

end Sys2Proof.Machine
end

section
/-! The encoding (spec/30_encoding.md), format by format: what the decoder answers on an encoding, and that the bytes it
accepts are an encoding. -/

namespace Sys2Proof

/-! ### Command words -/

/-- The fields of a legal word (spec/30_encoding.md R100) are those of the numbers up to 8. -/
theorem legal_fields_iff (w : Word) :
    w.extractLsb' 4 28 = 0#28 ∧ (w.extractLsb' 0 4).toNat ≤ 8 ↔ w.toNat ≤ 8 := by
  have hfields := word_fields w
  have hop : (w.extractLsb' 0 4).toNat < 16 := (w.extractLsb' 0 4).isLt
  rw [← BitVec.toNat_inj, BitVec.toNat_ofNat]
  omega

/-- An ILLEGAL instruction is well-formed with a word above 8 (spec/30_encoding.md R102). -/
theorem wf_illegal_iff (w : Word) : (Instr.illegal w).wf = true ↔ 8 < w.toNat := by
  rw [Instr.wf, Bool.not_eq_true', Bool.eq_false_iff, Ne, legalCommand, Bool.and_eq_true, beq_iff_eq, decide_eq_true_iff,
    legal_fields_iff, not_le]

/-- A legal word decodes to a command that encodes back to it (spec/30_encoding.md R101). -/
theorem decodeCommand_of_le (w : Word) (h : w.toNat ≤ 8) :
    decodeCommand w ≠ .illegal w ∧ (decodeCommand w).wf = true ∧ encode (decodeCommand w) = bytesOfWord w := by
  obtain ⟨k, hk, rfl⟩ := word_of_le w h
  revert k
  decide

theorem decodeCommand_eq_illegal_iff (w : Word) : decodeCommand w = .illegal w ↔ 8 < w.toNat := by
  constructor
  · intro hill
    by_contra hle
    obtain ⟨hlegal, -⟩ := decodeCommand_of_le w (by omega)
    exact hlegal hill
  · exact decodeCommand_of_gt w

/-- Every command word decodes to a well-formed instruction that encodes back to it. -/
theorem encode_decodeCommand (w : Word) :
    (decodeCommand w).wf = true ∧ encode (decodeCommand w) = bytesOfWord w := by
  by_cases hw : 8 < w.toNat
  · rw [decodeCommand_of_gt w hw]
    exact ⟨(wf_illegal_iff w).mpr hw, rfl⟩
  · obtain ⟨-, hback⟩ := decodeCommand_of_le w (by omega)
    exact hback

theorem decode_bytesOfWord (w : Word) (rest : List Byte) :
    decode .command (bytesOfWord w ++ rest) = .ok (decodeCommand w) rest :=
  congrArg (fun v => Decoded.ok (decodeCommand v) rest) (wordOfBytes_extract w)

/-- Bytes that the command decoder accepts are the encoding of a well-formed command. -/
theorem encode_of_decode_command (bytes : List Byte) (i : Instr) (rest : List Byte)
    (h : decode .command bytes = .ok i rest) : i.wf = true ∧ encode i ++ rest = bytes := by
  match bytes with
  | [] | [_] | [_, _] | [_, _, _] => cases h
  | b0 :: b1 :: b2 :: b3 :: tail =>
    cases h
    obtain ⟨hwf, henc⟩ := encode_decodeCommand (wordOfBytes b0 b1 b2 b3)
    rw [henc, bytesOfWord_wordOfBytes]
    exact ⟨hwf, rfl⟩

/-! ### Item bytes -/

/-- The tag bits of a byte stand above the rest of it (spec/30_encoding.md R120). -/
theorem toNat_append_eq_add {m k : Nat} (tag : BitVec m) (x : BitVec k) :
    (tag ++ x).toNat = tag.toNat * 2 ^ k + x.toNat := by
  rw [BitVec.toNat_append, ← Nat.shiftLeft_add_eq_or_of_lt x.isLt, Nat.shiftLeft_eq]

@[simp] theorem rawLoByte_toNat (x : BitVec 7) : (rawLoByte x).toNat = x.toNat :=
  (toNat_append_eq_add 0#1 x).trans (Nat.zero_add _)

@[simp] theorem rawHiByte_toNat (x : BitVec 6) : (rawHiByte x).toNat = 0x80 + x.toNat := toNat_append_eq_add 2#2 x

@[simp] theorem controlByte_toNat (n : BitVec 6) : (controlByte n).toNat = 0xC0 + n.toNat := toNat_append_eq_add 3#2 n

@[simp] theorem escapedByte_toNat (d : BitVec 6) : (escapedByte d).toNat = 0xC0 + d.toNat := controlByte_toNat d

@[simp] theorem rawLoByte_low (x : BitVec 7) : (rawLoByte x).extractLsb' 0 7 = x := BitVec.extractLsb'_append_eq_right

@[simp] theorem rawHiByte_low (x : BitVec 6) : (rawHiByte x).extractLsb' 0 6 = x := BitVec.extractLsb'_append_eq_right

@[simp] theorem controlByte_low (n : BitVec 6) : (controlByte n).extractLsb' 0 6 = n := BitVec.extractLsb'_append_eq_right

@[simp] theorem escapedByte_low (d : BitVec 6) : (escapedByte d).extractLsb' 0 6 = d := controlByte_low d

/-- The escape pair's control byte `0xC1` is that of n = 1 (spec/30_encoding.md R122). -/
theorem controlByte_eq_escape_iff (n : BitVec 6) : controlByte n = 0xC1#8 ↔ n = 1#6 := by
  rw [← BitVec.toNat_inj, ← BitVec.toNat_inj, controlByte_toNat, BitVec.toNat_ofNat, BitVec.toNat_ofNat]
  omega

/-- A byte from 0xC0 on has the pattern `11dddddd` of an escaped byte (spec/30_encoding.md R122). -/
theorem exists_escapedByte (d : Byte) (h : 0xC0 ≤ d.toNat) : ∃ e, d = escapedByte e := by
  have hd : d.toNat < 256 := d.isLt
  refine ⟨BitVec.ofNat 6 (d.toNat - 0xC0), BitVec.eq_of_toNat_eq ?_⟩
  rw [escapedByte_toNat, BitVec.toNat_ofNat]
  omega

/-- A byte has one of the three patterns of spec/30_encoding.md R120. -/
theorem byte_pattern (c : Byte) : (∃ x, c = rawLoByte x) ∨ (∃ x, c = rawHiByte x) ∨ ∃ n, c = controlByte n := by
  rcases Nat.lt_or_ge c.toNat 0x80 with hlo | hlo
  · refine .inl ⟨BitVec.ofNat 7 c.toNat, BitVec.eq_of_toNat_eq ?_⟩
    rw [rawLoByte_toNat, BitVec.toNat_ofNat]
    omega
  rcases Nat.lt_or_ge c.toNat 0xC0 with hhi | hhi
  · refine .inr (.inl ⟨BitVec.ofNat 6 (c.toNat - 0x80), BitVec.eq_of_toNat_eq ?_⟩)
    rw [rawHiByte_toNat, BitVec.toNat_ofNat]
    omega
  · exact .inr (.inr (exists_escapedByte c hhi))

/-! ### Items -/

theorem decodeItem_rawLo (x : BitVec 7) (rest : List Byte) :
    decodeItem (rawLoByte x :: rest) = .ok (.rawLo x) rest := by
  have hx : x.toNat < 128 := x.isLt
  rw [decodeItem, rawLoByte_toNat, if_pos hx, rawLoByte_low]

theorem decodeItem_rawHi (x : BitVec 6) (rest : List Byte) :
    decodeItem (rawHiByte x :: rest) = .ok (.rawHi x) rest := by
  have hx : x.toNat < 64 := x.isLt
  rw [decodeItem, rawHiByte_toNat, if_neg (by omega), if_pos (by omega), rawHiByte_low]

theorem decodeItem_controlByte (n : BitVec 6) (rest : List Byte) :
    decodeItem (controlByte n :: rest) = decodeControl (controlByte n) rest := by
  rw [decodeItem, controlByte_toNat, if_neg (by omega), if_neg (by omega)]

theorem decodeItem_esc (e : BitVec 6) (rest : List Byte) :
    decodeItem (0xC1#8 :: escapedByte e :: rest) = .ok (.esc e) rest :=
  calc decodeItem (controlByte 1#6 :: escapedByte e :: rest)
      = decodeControl (controlByte 1#6) (escapedByte e :: rest) := decodeItem_controlByte 1#6 _
    _ = .ok (.esc e) rest := by rw [decodeControl, if_pos ⟨rfl, by simp⟩, escapedByte_low]

/-- A CTRL instruction is a control pair that is no escape pair (spec/30_encoding.md R122). -/
theorem wf_ctrl_iff (n : BitVec 6) (d : Byte) : (Instr.ctrl n d).wf = true ↔ ¬(n = 1#6 ∧ 0xC0 ≤ d.toNat) := by
  rw [Instr.wf, Bool.not_eq_true', Bool.eq_false_iff, Ne, Bool.and_eq_true, beq_iff_eq, decide_eq_true_iff]

theorem decodeItem_ctrl (n : BitVec 6) (d : Byte) (rest : List Byte) (h : (Instr.ctrl n d).wf = true) :
    decodeItem (controlByte n :: d :: rest) = .ok (.ctrl n d) rest := by
  have hpair : ¬(controlByte n = 0xC1#8 ∧ 0xC0 ≤ d.toNat) := by rwa [controlByte_eq_escape_iff, ← wf_ctrl_iff]
  rw [decodeItem_controlByte, decodeControl, if_neg hpair, controlByte_low]

/-- Bytes that the item decoder accepts are the encoding of a well-formed item. -/
theorem encode_of_decodeItem (bytes : List Byte) (i : Instr) (rest : List Byte) (h : decodeItem bytes = .ok i rest) :
    i.wf = true ∧ encode i ++ rest = bytes := by
  cases bytes with
  | nil => cases h
  | cons c tail =>
    rcases byte_pattern c with ⟨x, rfl⟩ | ⟨x, rfl⟩ | ⟨n, rfl⟩
    · rw [decodeItem_rawLo] at h
      cases h
      exact ⟨rfl, rfl⟩
    · rw [decodeItem_rawHi] at h
      cases h
      exact ⟨rfl, rfl⟩
    · cases tail with
      | nil =>
        rw [decodeItem_controlByte] at h
        cases h
      | cons d tail =>
        by_cases hesc : n = 1#6 ∧ 0xC0 ≤ d.toNat
        · obtain ⟨rfl, hd⟩ := hesc
          obtain ⟨e, rfl⟩ := exists_escapedByte d hd
          cases (decodeItem_esc e tail).symm.trans h
          exact ⟨rfl, rfl⟩
        · have hwf := (wf_ctrl_iff n d).mpr hesc
          rw [decodeItem_ctrl n d tail hwf] at h
          cases h
          exact ⟨hwf, rfl⟩

/-! ### Literal records -/

/-- A literal of n pixels has its data bytes, and a pad byte exactly when their number is odd (spec/30_encoding.md R112). -/
theorem wf_lit_iff (n : Byte) (data : List Byte) (pad : Option Byte) :
    (Instr.lit n data pad).wf = true ↔
      2 ≤ n.toNat ∧ data.length = literalDataBytes n.toNat ∧ pad.toList.length = data.length % 2 := by
  have hpad : pad.isSome = (data.length % 2 == 1) ↔ pad.toList.length = data.length % 2 := by
    cases pad with
    | none => simp; omega
    | some b => simp; omega
  simp only [Instr.wf, literalDataBytes, Bool.and_eq_true, decide_eq_true_eq, beq_iff_eq, and_assoc, hpad]

theorem decodeLiteral_append (n : Byte) (data : List Byte) (pad : Option Byte) (rest : List Byte)
    (hdata : data.length = literalDataBytes n.toNat) (hpad : pad.toList.length = data.length % 2) :
    decodeLiteral n (data ++ pad.toList ++ rest) = .ok (.lit n data pad) rest := by
  have htrailer : literalTrailerBytes n.toNat = (data ++ pad.toList).length := by
    rw [literalTrailerBytes, ← hdata, ← hpad, List.length_append]
  have hpadByte : (if data.length % 2 = 1 then (data ++ pad.toList ++ rest)[data.length]? else none) = pad := by
    cases pad with
    | none => rw [if_neg (by rw [← hpad]; simp)]
    | some b =>
      have hodd : data.length % 2 = 1 := hpad.symm
      rw [if_pos hodd]
      simp
  rw [decodeLiteral, htrailer, if_neg (by simp), ← hdata]
  dsimp only
  rw [hpadByte, List.drop_left, List.append_assoc, List.take_left]

/-- Enough bytes after a literal's header are its data, its pad and what follows. -/
theorem exists_literal_trailer (n : Nat) (bytes : List Byte) (h : literalTrailerBytes n ≤ bytes.length) :
    ∃ (data : List Byte) (pad : Option Byte) (rest : List Byte), bytes = data ++ pad.toList ++ rest ∧
      data.length = literalDataBytes n ∧ pad.toList.length = data.length % 2 := by
  rw [literalTrailerBytes] at h
  have hlen : (bytes.take (literalDataBytes n)).length = literalDataBytes n := List.length_take_of_le (by omega)
  rcases Nat.mod_two_eq_zero_or_one (literalDataBytes n) with hmod | hmod
  · refine ⟨bytes.take (literalDataBytes n), none, bytes.drop (literalDataBytes n), ?_, hlen, ?_⟩
    · simp
    · rw [hlen, hmod]; rfl
  · have hlt : literalDataBytes n < bytes.length := by omega
    refine ⟨bytes.take (literalDataBytes n), some bytes[literalDataBytes n], bytes.drop (literalDataBytes n + 1),
      ?_, hlen, ?_⟩
    · rw [Option.toList_some, List.append_assoc, List.singleton_append, ← List.drop_eq_getElem_cons hlt,
        List.take_append_drop]
    · rw [hlen, hmod]; rfl

/-- Bytes that the literal decoder accepts after a header `00 n`, n >= 2, are the encoding of a well-formed literal. -/
theorem encode_of_decodeLiteral (n : Byte) (bytes : List Byte) (i : Instr) (rest : List Byte) (hn : 2 ≤ n.toNat)
    (h : decodeLiteral n bytes = .ok i rest) : i.wf = true ∧ encode i ++ rest = 0x00#8 :: n :: bytes := by
  by_cases hshort : bytes.length < literalTrailerBytes n.toNat
  · rw [decodeLiteral, if_pos hshort] at h
    cases h
  · obtain ⟨data, pad, tail, rfl, hdata, hpad⟩ := exists_literal_trailer n.toNat bytes (by omega)
    rw [decodeLiteral_append n data pad tail hdata hpad] at h
    cases h
    exact ⟨(wf_lit_iff n data pad).mpr ⟨hn, hdata, hpad⟩, rfl⟩

/-! ### Records -/

/-- Bytes accepted after a header `00 01`, in either context, are an end of bitmap or a one-pixel literal
(spec/30_encoding.md R116). -/
theorem encode_of_decodeZeroOne (rowDone : Bool) (bytes : List Byte) (i : Instr) (rest : List Byte)
    (h : decodeZeroOne rowDone bytes = .ok i rest) : i.wf = true ∧ encode i ++ rest = 0x00#8 :: 0x01#8 :: bytes := by
  cases rowDone with
  | true => cases h; exact ⟨rfl, rfl⟩
  | false =>
    match bytes with
    | [] | [_] => cases h
    | _ :: _ :: _ => cases h; exact ⟨rfl, rfl⟩

theorem decodeRecord_run (rowDone : Bool) (count value : Byte) (rest : List Byte) (h : count ≠ 0#8) :
    decodeRecord rowDone (count :: value :: rest) = .ok (.run count value) rest := by
  rw [decodeRecord, if_pos h]

/-- A header `00 n`, n >= 2, starts a literal in either context (spec/30_encoding.md R112, R116). -/
theorem decodeRecord_literal (rowDone : Bool) (n : Byte) (rest : List Byte) (h : 2 ≤ n.toNat) :
    decodeRecord rowDone (0x00#8 :: n :: rest) = decodeLiteral n rest := by
  have hzero : n ≠ 0#8 := by rintro rfl; contradiction
  have hone : n ≠ 1#8 := by rintro rfl; contradiction
  rw [decodeRecord, if_neg (by simp), if_neg hzero, if_neg hone]

/-- Bytes that the record decoder accepts in either context are the encoding of a well-formed record. -/
theorem encode_of_decodeRecord (rowDone : Bool) (bytes : List Byte) (i : Instr) (rest : List Byte)
    (h : decodeRecord rowDone bytes = .ok i rest) : i.wf = true ∧ encode i ++ rest = bytes := by
  match bytes with
  | [] | [_] => cases h
  | b0 :: b1 :: tail =>
    by_cases hrun : b0 = 0#8
    · subst hrun
      by_cases heol : b1 = 0#8
      · subst heol
        cases h
        exact ⟨rfl, rfl⟩
      by_cases hone : b1 = 1#8
      · subst hone
        exact encode_of_decodeZeroOne rowDone tail i rest h
      · have hn : 2 ≤ b1.toNat := by
          rw [← BitVec.toNat_inj, BitVec.toNat_ofNat] at heol hone
          omega
        exact encode_of_decodeLiteral b1 tail i rest hn ((decodeRecord_literal rowDone b1 tail hn).symm.trans h)
    · rw [decodeRecord_run rowDone b0 b1 tail hrun] at h
      cases h
      exact ⟨bne_iff_ne.mpr hrun, rfl⟩

/-! ### The statements -/

/-- Settles O1, by running the decoder on each word listed. -/
theorem listedWordsDecode : Obligations.ListedWordsDecode := by
  unfold Obligations.ListedWordsDecode
  decide

/-- Settles O2: both sides say that the word is above 8. -/
theorem illegalWordsAreTheReservedOnes : Obligations.IllegalWordsAreTheReservedOnes := by
  intro w
  rw [decodeCommand_eq_illegal_iff, ← not_le, ← legal_fields_iff, not_and_or, not_le]
  exact Iff.rfl

/-- Settles O3: by format, the decoder's answer on each kind of encoding. -/
theorem decodeOfEncode : Obligations.DecodeOfEncode := by
  intro i rest h
  cases i with
  | nop | getpix | hasrep | scan | encRow | decRow | emitEob | brleEnc | brleDec => exact decode_bytesOfWord _ rest
  | illegal w =>
    calc decode .command (bytesOfWord w ++ rest) = .ok (decodeCommand w) rest := decode_bytesOfWord w rest
      _ = .ok (.illegal w) rest := by rw [decodeCommand_of_gt w ((wf_illegal_iff w).mp h)]
  | run count value => exact decodeRecord_run false count value rest (bne_iff_ne.mp h)
  | eol | eob | lit1 => rfl
  | lit n data pad =>
    obtain ⟨hn, hdata, hpad⟩ := (wf_lit_iff n data pad).mp h
    exact (decodeRecord_literal false n _ hn).trans (decodeLiteral_append n data pad rest hdata hpad)
  | rawLo x => exact decodeItem_rawLo x rest
  | rawHi x => exact decodeItem_rawHi x rest
  | ctrl n d => exact decodeItem_ctrl n d rest h
  | esc e => exact decodeItem_esc e rest

/-- Settles O4: by format, what the bytes are that the decoder accepts. -/
theorem encodeOfDecode : Obligations.EncodeOfDecode := by
  intro f bytes i rest h
  cases f with
  | command => exact encode_of_decode_command bytes i rest h
  | record rowDone => exact encode_of_decodeRecord rowDone bytes i rest h
  | item => exact encode_of_decodeItem bytes i rest h

end Sys2Proof

namespace Sys2Proof.Machine

/-! ### Plain items -/

/-- While BRLE_DEC is in flight and has not ended, an item appends its bytes to the output and advances by its length
(spec/43_byte_rle.md R247). -/
theorem withItem_advance (bytes : Snap → List Byte) (len : Nat) (s : State) (sn : Snap) (wk : Work)
    (h : DecodingItems sn wk s) :
    withItem (fun sn wk => .next (setWork sn (advance (bytes sn) len wk) s)) s =
      .next (setWork sn (advance (bytes sn) len wk) s) := by
  obtain ⟨w, he, rfl, hop, hstop⟩ := h
  exact withItem_busy _ s sn w he hop hstop

/-- Settles O27: the byte that a plain item appends is the number given. -/
theorem plainItemsStandForThemselves : Obligations.PlainItemsStandForThemselves := by
  intro s sn wk h
  refine ⟨fun x => ?_, fun x => ?_⟩
  · rw [← rawLoByte_toNat, BitVec.ofNat_toNat, BitVec.setWidth_eq]
    exact withItem_advance (fun _ => [rawLoByte x]) 1 s sn wk h
  · rw [← rawHiByte_toNat, BitVec.ofNat_toNat, BitVec.setWidth_eq]
    exact withItem_advance (fun _ => [rawHiByte x]) 1 s sn wk h

end Sys2Proof.Machine
end

section
/-! The pixel commands and the scanner (spec/40_pixel_access.md): which segment stands at a position (R146, R147, R149), and what
GETPIX, HASREP and SCAN leave (R150 to R152). -/

namespace Sys2Proof.Machine

/-! ### Runs and literals -/

/-- A run is what step 1 counted (spec/40_pixel_access.md R146). -/
theorem segment_run_eq (row : List Byte) (w x c : Nat) (p : Nibble) (h : segmentAt row w x = .run c p) :
    c = runCount row w x ∧ p = pix row w x := by
  unfold segmentAt at h
  split at h
  · cases h
    exact ⟨rfl, rfl⟩
  · unfold literalSegment literalOrSingle at h
    split at h <;> cases h

/-- A run ends at the cap, at W, or before a pixel that differs (spec/40_pixel_access.md R146). -/
theorem segment_run_stops (row : List Byte) (w x c : Nat) (p : Nibble) (hx : x < w) (h : segmentAt row w x = .run c p) :
    c = 255 ∨ x + c = w ∨ pix row w (x + c) ≠ p := by
  obtain ⟨-, hcap, hend, -⟩ := segment_run row w x hx c p h
  obtain ⟨rfl, rfl⟩ := segment_run_eq row w x c p h
  by_contra! hgo
  obtain ⟨hc, hw, hp⟩ := hgo
  exact runCount_stops row w x ⟨by omega, by omega, hp⟩

theorem hasRep_of_segment_run (row : List Byte) (w x c : Nat) (p : Nibble) (hx : x < w) (h : segmentAt row w x = .run c p) :
    hasRep row w x = true := by
  obtain ⟨hc, -⟩ := segment_run row w x hx c p h
  obtain ⟨rfl, -⟩ := segment_run_eq row w x c p h
  exact (two_le_runCount_iff row w x).mp hc

/-- No pixel that a turn of the literal loop takes begins a repetition (spec/40_pixel_access.md R147). -/
theorem hasRep_of_literalTurn (row : List Byte) (w x n d : Nat) (b : Byte) (h : literalTurn row w x n = some (d, b))
    (k : Nat) (hlo : n ≤ k) (hhi : k < n + d) : hasRep row w (x + k) = false := by
  rcases literalTurn_some row w x n d b h with ⟨rfl, -, -, hrep, hrep', -⟩ | ⟨rfl, hlast, -⟩
  · obtain rfl | rfl : k = n ∨ k = n + 1 := by omega
    · exact hrep
    · exact hrep'
  · rw [Bool.eq_false_iff, ne_eq, hasRep_iff]
    omega

/-- No pixel of a literal begins a repetition. -/
theorem segment_literal_hasRep (row : List Byte) (w x n : Nat) (data : List Byte) (hx : x < w)
    (h : segmentAt row w x = .literal n data) (k : Nat) (hk : k < n) : hasRep row w (x + k) = false := by
  obtain ⟨-, -, -, hloop⟩ := segment_literal row w x hx n data h
  obtain ⟨rfl, -⟩ := Prod.mk.inj hloop
  refine literalFrom_induct row w x (fun m _ => ∀ j < m, hasRep row w (x + j) = false) ?_ 256 0 [] (by simp) k hk
  intro m acc d b hacc hturn j hj
  by_cases hjm : j < m
  · exact hacc j hjm
  · exact hasRep_of_literalTurn row w x m d b hturn j (by omega) hj

/-- A literal ends at W, at 254 pixels, or where a repetition is ahead (spec/40_pixel_access.md R147). -/
theorem segment_literal_stops (row : List Byte) (w x n : Nat) (data : List Byte) (hx : x < w)
    (h : segmentAt row w x = .literal n data) :
    x + n = w ∨ n = 254 ∨ hasRep row w (x + n) = true ∨ hasRep row w (x + n + 1) = true := by
  obtain ⟨-, ⟨hend, hcap, hodd, -⟩, -, hloop⟩ := segment_literal row w x hx n data h
  obtain ⟨hn, -⟩ := Prod.mk.inj hloop
  have hstop : literalTurn row w x n = none := by
    rw [hn]
    exact literalFrom_stops row w x 255 0 [] (by omega)
  rcases (literalTurn_none_iff row w x n).mp hstop with hw | ⟨hmid, hrep | hrep | hlong⟩
  · exact .inl (by omega)
  · exact .inr (.inr (.inl hrep))
  · exact .inr (.inr (.inr hrep))
  · exact .inr (.inl (by omega))

/-! ### Where each kind of segment stands -/

/-- A run stands exactly where the pixel repeats (spec/40_pixel_access.md R146). -/
theorem exists_segment_run_iff (row : List Byte) (w x : Nat) (hx : x < w) :
    (∃ c p, segmentAt row w x = .run c p) ↔ hasRep row w x = true := by
  constructor
  · rintro ⟨c, p, h⟩
    exact hasRep_of_segment_run row w x c p hx h
  · intro hrep
    cases h : segmentAt row w x with
    | run c p => exact ⟨c, p, rfl⟩
    | literal n data =>
      obtain ⟨-, -, hno, -⟩ := segment_literal row w x hx n data h
      exact absurd hrep (Bool.eq_false_iff.mp hno)
    | single p =>
      obtain ⟨-, hno, -⟩ := segment_single row w x p h
      exact absurd hrep (Bool.eq_false_iff.mp hno)

/-- SINGLE stands where the pixel does not repeat and the next one does: the first pair is refused. -/
theorem segment_single_hasRep (row : List Byte) (w x : Nat) (p : Nibble) (hx : x < w) (h : segmentAt row w x = .single p) :
    x + 1 < w ∧ hasRep row w x = false ∧ hasRep row w (x + 1) = true := by
  obtain ⟨-, hno, hturn⟩ := segment_single row w x p h
  rcases (literalTurn_none_iff row w x 0).mp hturn with hw | ⟨hmid, hrep | hrep | hlong⟩
  · omega
  · exact absurd hrep (Bool.eq_false_iff.mp hno)
  · exact ⟨hmid, hno, hrep⟩
  · omega

/-- SINGLE stands exactly at the pattern A B B (spec/40_pixel_access.md R149 (c)). -/
theorem exists_segment_single_iff (row : List Byte) (w x : Nat) (hx : x < w) :
    (∃ p, segmentAt row w x = .single p) ↔
      (x + 2 < w ∧ pix row w x ≠ pix row w (x + 1) ∧ pix row w (x + 1) = pix row w (x + 2)) := by
  constructor
  · rintro ⟨p, h⟩
    obtain ⟨hmid, hno, hrep⟩ := segment_single_hasRep row w x p hx h
    obtain ⟨hw, heq⟩ := (hasRep_iff row w (x + 1)).mp hrep
    refine ⟨hw, fun hsame => ?_, heq⟩
    exact Bool.eq_false_iff.mp hno ((hasRep_iff row w x).mpr ⟨hmid, hsame⟩)
  · rintro ⟨hw, hne, heq⟩
    have hrep : hasRep row w (x + 1) = true := (hasRep_iff row w (x + 1)).mpr ⟨hw, heq⟩
    cases h : segmentAt row w x with
    | single p => exact ⟨p, rfl⟩
    | run c p =>
      obtain ⟨-, hsame⟩ := (hasRep_iff row w x).mp (hasRep_of_segment_run row w x c p hx h)
      exact absurd hsame hne
    | literal n data =>
      obtain ⟨hn, ⟨-, -, hodd, -⟩, -, -⟩ := segment_literal row w x hx n data h
      have hlong : 1 < n := by
        by_contra hshort
        have := hodd (by omega)
        omega
      exact absurd hrep (Bool.eq_false_iff.mp (segment_literal_hasRep row w x n data hx h 1 hlong))

/-- A literal of length 1 stands exactly at the row's last pixel (spec/40_pixel_access.md R149 (d)). -/
theorem exists_segment_literal_one_iff (row : List Byte) (w x : Nat) (hx : x < w) :
    (∃ data, segmentAt row w x = .literal 1 data) ↔ x + 1 = w := by
  constructor
  · rintro ⟨data, h⟩
    obtain ⟨-, ⟨-, -, hodd, -⟩, -, -⟩ := segment_literal row w x hx 1 data h
    exact hodd rfl
  · intro hlast
    cases h : segmentAt row w x with
    | literal n data =>
      obtain ⟨hn, ⟨hend, -⟩, -, -⟩ := segment_literal row w x hx n data h
      obtain rfl : n = 1 := by omega
      exact ⟨data, rfl⟩
    | run c p =>
      obtain ⟨hc, -, hend, -⟩ := segment_run row w x hx c p h
      omega
    | single p =>
      obtain ⟨hmid, -, -⟩ := segment_single_hasRep row w x p hx h
      omega

/-- Settles O35, kind by kind: the loops' bounds, what they hold, where they stop, and where each kind stands. -/
theorem segmentFacts : Obligations.SegmentFacts := by
  intro row w x hx
  refine ⟨segment_bounds row w x hx, exists_segment_run_iff row w x hx, fun c p h => ?_, fun n data h => ?_,
    fun p h => (segment_single row w x p h).1, exists_segment_single_iff row w x hx, exists_segment_literal_one_iff row w x hx⟩
  · obtain ⟨hc, -, -, hpix⟩ := segment_run row w x hx c p h
    exact ⟨hc, (segment_run_eq row w x c p h).2, hpix, segment_run_stops row w x c p hx h⟩
  · obtain ⟨-, ⟨hend, hcap, hodd, hlen, hpix, hpad⟩, -, -⟩ := segment_literal row w x hx n data h
    exact ⟨hodd, by omega, hcap, hlen, hpix, hpad, segment_literal_hasRep row w x n data hx h,
      segment_literal_stops row w x n data hx h⟩

/-! ### The result commands -/

/-- A result command whose slice is out of range completes with BAD_RANGE (spec/60_exceptions.md R283). -/
theorem resultCommand_badRange (value : List Byte → Nat → Nat → Word) (s : State) (sn : Snap) (w : Option Work)
    (he : s.engine = .busy sn w) (hr : s.params.inCap < sn.off.toNat + sn.len.toNat) :
    resultCommand value s = .next (complete .badRange s) := by
  rw [resultCommand_busy value s sn w he, if_neg (Nat.not_le_of_lt hr), raise]

/-- A result command whose slice is in range writes its value into RESULT, marks the slice, completes, and leaves everything
else. -/
theorem resultCommand_in_range (value : List Byte → Nat → Nat → Word) (s : State) (sn : Snap) (w : Option Work)
    (he : s.engine = .busy sn w) (hr : sn.off.toNat + sn.len.toNat ≤ s.params.inCap) :
    ∃ t, resultCommand value s = .next t ∧ t.result = value (inputSlice sn s) sn.w.toNat sn.x.toNat ∧
      Completes .none s t ∧ KeepsInputs s t ∧ KeepsOutput s t ∧ t.consumed = s.consumed ∧ MarksSlice sn s t := by
  rw [resultCommand_busy value s sn w he, if_pos hr]
  exact ⟨_, rfl, rfl, ⟨rfl, rfl, rfl, rfl⟩, .of_noteSlice (sn := sn) (keepsInputs_complete .none _),
    ⟨rfl, rfl, rfl, rfl⟩, rfl, rfl⟩

/-- Settles O9: RESULT is the pixel of the slice, zero-extended. -/
theorem getpixCompletes : Obligations.GetpixCompletes := by
  intro s sn w he
  refine ⟨rfl, resultCommand_badRange getpixResult s sn w he, fun hr => ?_⟩
  obtain ⟨t, ht, hres, hframe⟩ := resultCommand_in_range getpixResult s sn w he hr
  exact ⟨t, ht, by rw [hres, getpixResult, pix_inputSlice], hframe⟩

/-- Settles O10: RESULT says whether the pixel of the slice repeats. -/
theorem hasrepCompletes : Obligations.HasrepCompletes := by
  intro s sn w he
  refine ⟨rfl, resultCommand_badRange hasrepResult s sn w he, fun hr => ?_⟩
  obtain ⟨t, ht, hres, hframe⟩ := resultCommand_in_range hasrepResult s sn w he hr
  exact ⟨t, ht, by simp only [hres, hasrepResult, hasRep_iff, pix_inputSlice], hframe⟩

/-- SCAN's RESULT below W holds RECLEN, PIXEL, 00, KIND and LEN in their places (spec/10_state.md R44): RECLEN and LEN fit in
theirs. -/
theorem scanResult_fields (row : List Byte) (w x : Nat) (hx : x < w) :
    ((scanResult row w x).extractLsb' 16 16).toNat = (recordBytes (segmentAt row w x)).length ∧
      (scanResult row w x).extractLsb' 12 4 = pix row w x ∧
      (scanResult row w x).extractLsb' 10 2 = 0#2 ∧
      (scanResult row w x).extractLsb' 8 2 = segmentKind (segmentAt row w x) ∧
      ((scanResult row w x).extractLsb' 0 8).toNat = segmentLength (segmentAt row w x) := by
  have hword := scanResult_toNat row w x hx
  obtain ⟨-, hrec, -⟩ := recordBytes_bounds row w x hx
  obtain ⟨-, hlen, -⟩ := segment_bounds row w x hx
  have hpix := (pix row w x).isLt
  have hkind := (segmentKind (segmentAt row w x)).isLt
  simp only [BitVec.toNat_eq, BitVec.extractLsb'_toNat, Nat.shiftRight_eq_div_pow, BitVec.toNat_ofNat, hword]
  omega

/-- Settles O11: 0 at or past W, else the fields of RESULT, read back from the word. -/
theorem scanCompletes : Obligations.ScanCompletes := by
  intro s sn w he
  refine ⟨rfl, resultCommand_badRange scanResult s sn w he, fun hr => ?_⟩
  obtain ⟨t, ht, hres, hframe⟩ := resultCommand_in_range scanResult s sn w he hr
  refine ⟨t, ht, fun hx => hres.trans (if_pos hx), fun hx => ?_, hframe⟩
  rw [← pix_inputSlice, hres]
  exact scanResult_fields _ _ _ hx

end Sys2Proof.Machine
end

section
/-! The row encoder and the end-of-bitmap marker (spec/41_row_encoder.md): the host's walk through a row's segments (R171,
R176), the size and the shape of an encoded row (R177 to R179), and what ENC_ROW and EMIT_EOB write (R175, R180, R181). -/

namespace Sys2Proof.Machine

/-! ### The host's walk -/

/-- RESULT.LEN ends the walk at and past W, and nowhere else. -/
theorem scanResult_len_eq_zero_iff (row : List Byte) (w x : Nat) :
    (scanResult row w x).extractLsb' 0 8 = 0#8 ↔ w ≤ x := by
  constructor
  · intro hzero
    by_contra hx
    obtain ⟨-, -, -, -, hlen⟩ := scanResult_fields row w x (by omega)
    obtain ⟨hpos, -⟩ := segment_bounds row w x (by omega)
    rw [hzero, BitVec.toNat_ofNat] at hlen
    omega
  · intro hx
    rw [scanResult, if_pos hx]
    rfl

theorem scanPositions_done (row : List Byte) (w fuel x : Nat) (hx : w ≤ x) : scanPositions row w fuel x = [] := by
  cases fuel with
  | zero => rfl
  | succ fuel => exact if_pos ((scanResult_len_eq_zero_iff row w x).mpr hx)

/-- Inside the row the walk goes on by the segment's length. -/
theorem scanPositions_turn (row : List Byte) (w fuel x : Nat) (hx : x < w) :
    scanPositions row w (fuel + 1) x = x :: scanPositions row w fuel (x + segmentLength (segmentAt row w x)) := by
  obtain ⟨-, -, -, -, hlen⟩ := scanResult_fields row w x hx
  have hgo : ¬(scanResult row w x).extractLsb' 0 8 = 0#8 := by
    rw [scanResult_len_eq_zero_iff]
    omega
  rw [scanPositions, ← hlen]
  exact if_neg hgo

theorem lt_of_mem_scanPositions (row : List Byte) (w fuel x y : Nat) (hy : y ∈ scanPositions row w fuel x) : y < w := by
  induction fuel generalizing x with
  | zero => cases hy
  | succ fuel ih =>
    by_cases hx : x < w
    · rw [scanPositions_turn row w fuel x hx, List.mem_cons] at hy
      rcases hy with rfl | hy
      · exact hx
      · exact ih _ hy
    · rw [scanPositions_done row w _ x (by omega)] at hy
      cases hy

/-- The walk's sum of RESULT.RECLEN counts the bytes of the records it visits. -/
theorem scanWalk_eq_length (row : List Byte) (w fuel x : Nat) :
    scanWalk row w fuel x =
      ((scanPositions row w fuel x).flatMap fun y => recordBytes (segmentAt row w y)).length := by
  induction fuel generalizing x with
  | zero => rfl
  | succ fuel ih =>
    rw [scanWalk]
    by_cases hx : x < w
    · obtain ⟨hreclen, -, -, -, hlen⟩ := scanResult_fields row w x hx
      simp only [scanResult_len_eq_zero_iff, if_neg (Nat.not_le_of_lt hx), hreclen, hlen, ih,
        scanPositions_turn row w fuel x hx, List.flatMap_cons, List.length_append]
    · simp only [scanResult_len_eq_zero_iff, if_pos (Nat.le_of_not_lt hx),
        scanPositions_done row w _ x (Nat.le_of_not_lt hx), List.flatMap_nil, List.length_nil]

@[simp] theorem eolBytes_length : eolBytes.length = 2 := rfl

/-- The encoder's loop emits the records of the segments on the walk, in order, and EOL. -/
theorem flatMap_scanPositions (row : List Byte) (w fuel x : Nat) (hf : w ≤ x + fuel) :
    (scanPositions row w fuel x).flatMap (fun y => recordBytes (segmentAt row w y)) ++ eolBytes =
      encodeFrom row w fuel x := by
  induction fuel generalizing x with
  | zero => rfl
  | succ fuel ih =>
    by_cases hx : x < w
    · obtain ⟨hpos, -⟩ := segment_bounds row w x hx
      rw [scanPositions_turn row w fuel x hx, List.flatMap_cons, List.append_assoc, ih _ (by omega), encodeFrom, if_pos hx]
    · rw [scanPositions_done row w _ x (by omega), encodeFrom_done row w _ x (by omega)]
      rfl

/-- spec/41_row_encoder.md R171, R176: the whole row, walked from pixel 0. -/
theorem encodeRow_eq_walk (row : List Byte) (w : Nat) :
    encodeRow row w =
      (scanPositions row w (w + 1) 0).flatMap (fun y => recordBytes (segmentAt row w y)) ++ eolBytes := by
  rw [flatMap_scanPositions row w (w + 1) 0 (by omega)]
  exact encodeFrom_fuel row w w (w + 1) 0 (by omega) (by omega)

/-- Settles O36: the encoder's records are those of the walk, and RESULT.RECLEN is the length of each. -/
theorem scanWalkMeetsTheEncoder : Obligations.ScanWalkMeetsTheEncoder := by
  intro row w
  refine ⟨(encodeRow_eq_walk row w).symm, ?_⟩
  rw [scanWalk_eq_length, encodeRow_eq_walk, List.length_append, eolBytes_length]

/-! ### The size of an encoded row -/

/-- The segment at the row's last pixel is the literal of that pixel (spec/40_pixel_access.md R149 (d)). -/
theorem segmentAt_last (row : List Byte) (w x : Nat) (hx : x + 1 = w) :
    segmentAt row w x = .literal 1 [packNibbles (pix row w x) 0#4] := by
  obtain ⟨data, hseg⟩ := (exists_segment_literal_one_iff row w x (by omega)).mpr hx
  obtain ⟨-, ⟨-, -, -, hlen, hpix, hpad⟩, -, -⟩ := segment_literal row w x (by omega) 1 data hseg
  match data, hlen with
  | [b], _ =>
    have hhigh : highNibble b = pix row w x := hpix 0 (by omega)
    have hlow : lowNibble b = 0#4 := hpad rfl
    rw [hseg, ← hhigh, ← hlow, pack_nibbles]

/-- The encoder's loop from pixel x on: an even number of bytes, the EOL among them, and at most two for every pixel left but
four for a last pixel on its own (spec/41_row_encoder.md R177). -/
theorem encodeFrom_length_bounds (row : List Byte) (w fuel x : Nat) (hx : x ≤ w) :
    (encodeFrom row w fuel x).length % 2 = 0 ∧ 2 ≤ (encodeFrom row w fuel x).length ∧
      (encodeFrom row w fuel x).length ≤ 2 * (w - x) + 4 := by
  induction fuel generalizing x with
  | zero =>
    rw [encodeFrom, eolBytes_length]
    omega
  | succ fuel ih =>
    by_cases hlt : x < w
    · have heven := recordBytes_length_even (segmentAt row w x)
      obtain ⟨-, -, hrec⟩ := recordBytes_bounds row w x hlt
      obtain ⟨-, -, hend⟩ := segment_bounds row w x hlt
      obtain ⟨hrest, hmin, hmax⟩ := ih (x + segmentLength (segmentAt row w x)) hend
      rw [encodeFrom, if_pos hlt, List.length_append]
      refine ⟨by omega, by omega, ?_⟩
      rcases hrec with htwo | ⟨hlast, hfour, -⟩
      · omega
      · rw [encodeFrom_done row w fuel _ hlast.ge, hfour, eolBytes_length]
        omega
    · rw [encodeFrom_done row w _ x (by omega), eolBytes_length]
      omega

/-- A row of one pixel is a literal of length 1 and EOL. -/
theorem encodeRow_one (row : List Byte) :
    encodeRow row 1 = [0x00#8, 0x01#8, packNibbles (pix row 1 0) 0#4, 0x00#8, 0x00#8, 0x00#8] := by
  rw [encodeRow, encodeFrom, if_pos Nat.zero_lt_one, segmentAt_last row 1 0 rfl]
  rfl

/-- Settles O32, by the bounds of the loop; below W the first record adds two bytes to the EOL. -/
theorem encodedRowSize : Obligations.EncodedRowSize := by
  intro row w
  obtain ⟨heven, -, hmax⟩ := encodeFrom_length_bounds row w w 0 (Nat.zero_le w)
  refine ⟨heven, fun hw => ?_, hmax, by rw [encodeRow_one]; rfl⟩
  obtain ⟨hrec, -⟩ := recordBytes_bounds row w 0 hw
  obtain ⟨-, -, hend⟩ := segment_bounds row w 0 hw
  obtain ⟨-, hmin, -⟩ := encodeFrom_length_bounds row w w _ hend
  rw [encodeRow, encodeFrom_turn row w w w 0 hw (by omega) (by omega), List.length_append]
  omega

/-! ### Uniform rows -/

/-- In a row of one pixel value a run goes on to the cap or to W (spec/40_pixel_access.md R146). -/
theorem runCount_of_uniform (row : List Byte) (w x : Nat) (p : Nibble) (hp : ∀ y, y < w → pix row w y = p) (hx : x < w) :
    runCount row w x = min 255 (w - x) := by
  obtain ⟨hend, hcap⟩ := runCount_bounds row w x hx
  by_contra hne
  refine runCount_stops row w x ⟨by omega, by omega, ?_⟩
  rw [hp _ (by omega), hp x hx]

theorem segmentAt_of_uniform (row : List Byte) (w x : Nat) (p : Nibble) (hp : ∀ y, y < w → pix row w y = p)
    (hx : x + 2 ≤ w) : segmentAt row w x = .run (min 255 (w - x)) p := by
  have hcount := runCount_of_uniform row w x p hp (by omega)
  rw [segmentAt, if_pos (by omega), hcount, hp x (by omega)]

/-- What follows the runs of 255 in a uniform row, for r pixels left (spec/41_row_encoder.md R178). -/
def uniformRemainder (p : Nibble) (r : Nat) : List Byte :=
  if r = 0 then [] else if r = 1 then [0x00#8, 0x01#8, packNibbles p 0#4, 0x00#8] else [BitVec.ofNat 8 r, packNibbles p p]

/-- Fewer than 255 pixels left make one record at most. -/
theorem encodeFrom_uniform_remainder (row : List Byte) (w x r : Nat) (p : Nibble) (hp : ∀ y, y < w → pix row w y = p)
    (hr : r < 255) (hx : x + r = w) : encodeFrom row w w x = uniformRemainder p r ++ eolBytes := by
  match r with
  | 0 => exact encodeFrom_done row w w x hx.ge
  | 1 =>
    rw [encodeFrom_turn row w w w x (by omega) (by omega) (by omega), segmentAt_last row w x hx, hp x (by omega),
      segmentLength, encodeFrom_done row w w _ hx.ge]
    rfl
  | r + 2 =>
    rw [encodeFrom_turn row w w w x (by omega) (by omega) (by omega), segmentAt_of_uniform row w x p hp (by omega),
      show min 255 (w - x) = r + 2 by omega, segmentLength, encodeFrom_done row w w _ hx.ge]
    rfl

/-- Every 255 pixels before the remainder make a run record. -/
theorem encodeFrom_uniform (row : List Byte) (w x k r : Nat) (p : Nibble) (hp : ∀ y, y < w → pix row w y = p)
    (hr : r < 255) (hx : x + 255 * k + r = w) :
    encodeFrom row w w x =
      (List.replicate k [0xFF#8, packNibbles p p]).flatten ++ uniformRemainder p r ++ eolBytes := by
  induction k generalizing x with
  | zero => exact encodeFrom_uniform_remainder row w x r p hp hr hx
  | succ k ih =>
    rw [encodeFrom_turn row w w w x (by omega) (by omega) (by omega), segmentAt_of_uniform row w x p hp (by omega),
      show min 255 (w - x) = 255 by omega, segmentLength, ih (x + 255) (by omega)]
    rfl

/-- Settles O33: W is 255 times its quotient and the remainder. -/
theorem uniformRows : Obligations.UniformRows := by
  intro row w p _ hp
  exact encodeFrom_uniform row w 0 (w / 255) (w % 255) p hp (Nat.mod_lt w (by omega)) (by omega)

/-! ### Rows without repetition -/

theorem hasRep_eq_false_of_ne (row : List Byte) (w : Nat) (hne : ∀ x, x + 1 < w → pix row w x ≠ pix row w (x + 1))
    (x : Nat) : hasRep row w x = false := by
  rw [Bool.eq_false_iff, ne_eq, hasRep_iff]
  rintro ⟨hx, heq⟩
  exact hne x hx heq

/-- A run needs a repetition at its first pixel, SINGLE one at the next: without repetition only a literal is left. -/
theorem exists_literal_of_hasRep_false (row : List Byte) (w x : Nat) (hrep : ∀ y, hasRep row w y = false) (hx : x < w) :
    ∃ n data, segmentAt row w x = .literal n data := by
  cases hseg : segmentAt row w x with
  | literal n data => exact ⟨n, data, rfl⟩
  | run c p =>
    have hrun := hasRep_of_segment_run row w x c p hx hseg
    exact absurd hrun (Bool.eq_false_iff.mp (hrep x))
  | single p =>
    obtain ⟨-, -, hnext⟩ := segment_single_hasRep row w x p hx hseg
    exact absurd hnext (Bool.eq_false_iff.mp (hrep (x + 1)))

/-- Settles O34: without repetition every segment is a literal, which only the cap or W ends. -/
theorem nonRepeatingRows : Obligations.NonRepeatingRows := by
  intro row w hne
  have hrep := hasRep_eq_false_of_ne row w hne
  refine ⟨hrep, fun x hx => ?_, fun g hg => ?_, ?_⟩
  · obtain ⟨n, data, hseg⟩ := exists_literal_of_hasRep_false row w x hrep hx
    obtain ⟨-, ⟨-, hcap, -⟩, -, -⟩ := segment_literal row w x hx n data hseg
    refine ⟨n, data, hseg, ?_⟩
    rcases segment_literal_stops row w x n data hx hseg with hend | hlong | hahead | hahead
    · exact .inr ⟨hend, hcap⟩
    · exact .inl hlong
    · exact absurd hahead (Bool.eq_false_iff.mp (hrep _))
    · exact absurd hahead (Bool.eq_false_iff.mp (hrep _))
  · obtain ⟨x, hwalk, rfl⟩ := List.mem_map.mp hg
    have hx := lt_of_mem_scanPositions row w _ 0 x hwalk
    obtain ⟨n, data, hseg⟩ := exists_literal_of_hasRep_false row w x hrep hx
    obtain ⟨hpos, ⟨-, hcap, -, hlen, -⟩, -, -⟩ := segment_literal row w x hx n data hseg
    exact ⟨n, data, hseg, hpos, hcap, hlen⟩
  · rw [List.flatMap_map, encodeRow_eq_walk]
    rfl

/-! ### Output commands -/

/-- The range checks of a command that reads its slice and writes output (spec/60_exceptions.md R283). -/
theorem not_rangeFails_iff (i : Instr) (sn : Snap) (s : State) (hread : readsIn i = true) (hwrite : writesOut i = true) :
    ¬rangeFails i sn s ↔ sn.off.toNat + sn.len.toNat ≤ s.params.inCap ∧ sn.ptr.toNat ≤ s.params.outCap := by
  simp [rangeFails, hread, hwrite]

/-- An output command whose slice or pointer is out of range completes with BAD_RANGE. -/
theorem outputCommand_badRange (compute : Snap → List Byte → Work → Output) (s : State) (sn : Snap) (w : Option Work)
    (he : s.engine = .busy sn w)
    (hr : ¬(sn.off.toNat + sn.len.toNat ≤ s.params.inCap ∧ sn.ptr.toNat ≤ s.params.outCap)) :
    outputCommand compute s = .next (complete .badRange s) := by
  rw [outputCommand_busy compute s sn w he, if_neg hr, raise]

/-- What an output command in range writes and leaves: the slice's mark is all that it adds to `finishOutput_spec`. -/
theorem outputCommand_in_range (compute : Snap → List Byte → Work → Output) (s : State) (sn : Snap) (w : Option Work)
    (o : Output) (hp : s.params.Valid) (he : s.engine = .busy sn w) (ho : compute sn (inputSlice sn s) (workOf sn w) = o)
    (hr : sn.off.toNat + sn.len.toNat ≤ s.params.inCap ∧ sn.ptr.toNat ≤ s.params.outCap) :
    ∃ t, outputCommand compute s = .next t ∧ WritesOutput sn.ptr.toNat o.bytes s t ∧ Completes o.err s t ∧
      KeepsInputs s t ∧ t.result = s.result ∧
      t.consumed = (match o.consumed with | some n => BitVec.ofNat 32 n | none => s.consumed) ∧ MarksSlice sn s t := by
  obtain ⟨hwrites, hcompletes, hkeeps, hresult, hconsumed, hfaults⟩ :=
    finishOutput_spec sn o (noteSlice sn s) hp hr.2
  rw [outputCommand_busy compute s sn w he, if_pos hr, ho]
  exact ⟨_, rfl, hwrites, hcompletes, .of_noteSlice (sn := sn) (v := s.result) hkeeps, hresult, hconsumed,
    congrArg FaultMarks.unwrittenSlice hfaults⟩

/-- What is written of an output depends on the parameters, the pointer and the output alone (spec/20_memory.md R80). -/
theorem finishOutput_written_congr (sn : Snap) (o : Output) (s1 s2 : State) (hp : s1.params = s2.params) :
    (finishOutput sn o s1).outLen = (finishOutput sn o s2).outLen ∧
      (finishOutput sn o s1).outPtr = (finishOutput sn o s2).outPtr ∧
      (finishOutput sn o s1).status.ovf = (finishOutput sn o s2).status.ovf ∧
      ∀ i, i < (finishOutput sn o s1).outLen.toNat →
        Memory.get? (finishOutput sn o s1).outBuf (sn.ptr.toNat + i) =
          Memory.get? (finishOutput sn o s2).outBuf (sn.ptr.toNat + i) := by
  simp only [finishOutput, complete_outLen, complete_outPtr, complete_status, complete_outBuf, writeConsumed_outLen,
    writeConsumed_outPtr, writeConsumed_status, writeConsumed_outBuf, writeOutput_outLen, writeOutput_outPtr,
    writeOutput_status, writeOutput_outBuf, hp, true_and]
  intro i hi
  have hin : i < (o.bytes.take (s2.params.outCap - sn.ptr.toNat)).length := by
    rw [BitVec.toNat_ofNat] at hi
    exact lt_of_lt_of_le hi (Nat.mod_le _ _)
  rw [Memory.get?_setBytes, Memory.get?_setBytes, if_pos (by omega), if_pos (by omega)]

/-! ### ENC_ROW -/

/-- From the working state in which ENC_ROW begins, the whole row is still to be emitted. -/
theorem encodeOutput_beginWork (sn : Snap) (row : List Byte) (hop : decodeCommand sn.op = .encRow) :
    encodeOutput sn row (beginWork sn) = ⟨encodeRow row sn.w.toNat, none, .none⟩ := by
  simp [encodeOutput, encodeRest, beginWork, hop, encodeRow]

/-- Settles O12: the output of ENC_ROW's first working state is the encoded row. -/
theorem encRowCompletes : Obligations.EncRowCompletes := by
  intro s sn hp he hop
  refine ⟨rfl, fun hr => ?_, fun hr => ?_⟩
  · refine outputCommand_badRange encodeOutput s sn none he ?_
    rw [← not_rangeFails_iff .encRow sn s rfl rfl]
    exact not_not_intro hr
  · obtain ⟨t, ht, hwrites, hcompletes, hkeeps, hresult, hconsumed, hmarks⟩ :=
      outputCommand_in_range encodeOutput s sn none _ hp he (encodeOutput_beginWork sn (inputSlice sn s) hop)
        ((not_rangeFails_iff .encRow sn s rfl rfl).mp hr)
    exact ⟨t, ht, hwrites, hcompletes, hkeeps, hconsumed, hresult, hmarks⟩

/-- Equal bytes at the slice's offsets make equal slices. -/
theorem inputSlice_eq_of_bytes (sn : Snap) (s1 s2 : State)
    (h : ∀ i, i < sn.len.toNat →
      bufferByte s1 .inBuf (sn.off.toNat + i) = bufferByte s2 .inBuf (sn.off.toNat + i)) :
    inputSlice sn s1 = inputSlice sn s2 :=
  List.map_congr_left fun i hi => h i (List.mem_range.mp hi)

/-- Settles O60: equal slices and working states give equal outputs, and what is written depends on nothing else. -/
theorem encRowReadsOnlyItsSlice : Obligations.EncRowReadsOnlyItsSlice := by
  intro s1 s2 t1 t2 sn hp he1 he2 hptr hslice hbytes ht1 ht2
  rw [exec, execEncRow, outputCommand_busy _ s1 sn none he1, if_pos ⟨hslice, hptr⟩,
    inputSlice_eq_of_bytes sn s1 s2 hbytes] at ht1
  rw [exec, execEncRow, outputCommand_busy _ s2 sn none he2, if_pos ⟨hp ▸ hslice, hp ▸ hptr⟩] at ht2
  cases ht1
  cases ht2
  exact finishOutput_written_congr sn _ (noteSlice sn s1) (noteSlice sn s2) hp

/-! ### EMIT_EOB -/

/-- Settles O14: no slice is read, so only the pointer is checked, and the output is the marker. -/
theorem emitEobCompletes : Obligations.EmitEobCompletes := by
  intro s sn w hp he
  refine ⟨rfl, fun hr => ?_, fun hr => ?_⟩
  · rw [EndsBadRange, exec, execEmitEob_busy s sn w he, if_neg (Nat.not_le_of_lt hr)]
    rfl
  · obtain ⟨hwrites, hcompletes, hkeeps, hresult, hconsumed, hfaults⟩ :=
      finishOutput_spec sn ⟨eobBytes, none, .none⟩ s hp hr
    rw [exec, execEmitEob_busy s sn w he, if_pos hr]
    exact ⟨_, rfl, hwrites, hcompletes, hkeeps, hconsumed, hresult, hfaults⟩

end Sys2Proof.Machine
end

section
/-! The row decoder (spec/42_row_decoder.md): what each record does to the working state (R204 to R209), when the bytes at the
record offset end the decoder (R206 to R211), what DEC_ROW writes (R202), and that it gives back what the row encoder read
(R213). -/

namespace Sys2Proof.Machine

/-! ### Records of pixels -/

theorem pixelRecord_of_complete (w n len : Nat) (px : Nat → Nibble) (wk : Work) (hx : wk.x = w) :
    pixelRecord w n len px wk = stopDecoder .decMissingEol wk := if_pos hx

theorem pixelRecord_of_overrun (w n len : Nat) (px : Nat → Nibble) (wk : Work) (hx : wk.x ≠ w) (hn : w < wk.x + n) :
    pixelRecord w n len px wk = stopDecoder .decRowOverrun wk := (if_neg hx).trans (if_pos hn)

theorem pixelRecord_of_fits (w n len : Nat) (px : Nat → Nibble) (wk : Work) (hx : wk.x < w) (hn : wk.x + n ≤ w) :
    pixelRecord w n len px wk =
      { wk with x := wk.x + n, p := wk.p + len, out := setPixels wk.out wk.x n px } :=
  (if_neg hx.ne).trans (if_neg (Nat.not_lt.mpr hn))

/-- A record that fits has the effect of spec/42_row_decoder.md R204, R205, in a row long enough for W pixels. -/
theorem pixelRecord_writesPixels (w n len : Nat) (px : Nat → Nibble) (wk : Work) (hs : wk.stop = none)
    (hout : wk.out.length = rowBytes w) (hx : wk.x < w) (hn : wk.x + n ≤ w) :
    WritesPixels n len px wk (pixelRecord w n len px wk) := by
  have hroom : wk.x + n ≤ 2 * wk.out.length := by rw [hout, rowBytes]; omega
  rw [pixelRecord_of_fits w n len px wk hx hn]
  refine ⟨rfl, rfl, hs, rfl, rfl, setPixels_length _ _ _ _, fun k hk => ?_, fun j hj => ?_⟩
  · rw [rowPixel_setPixels _ _ _ _ _ hroom, if_pos (by omega), Nat.add_sub_cancel_left]
  · rw [rowPixel_setPixels _ _ _ _ _ hroom, if_neg hj]

/-- Only the n pixels that a record has matter. -/
theorem WritesPixels.congr {n len : Nat} {px px' : Nat → Nibble} {wk wk' : Work} (h : WritesPixels n len px wk wk')
    (hpx : ∀ k, k < n → px k = px' k) : WritesPixels n len px' wk wk' := by
  obtain ⟨hx, hp, hs, hn, hl, hlen, hin, hout⟩ := h
  exact ⟨hx, hp, hs, hn, hl, hlen, fun k hk => (hin k hk).trans (hpx k hk), hout⟩

/-- A literal's pixels are those of its data bytes as a packed row. -/
theorem literalPixel_eq_rowPixel (data : List Byte) : literalPixel data = rowPixel data := rfl

/-! ### The next record -/

theorem decodeStep_of_fetched (w : Nat) (stream : List Byte) (wk : Work) (i : Instr) (rest : List Byte)
    (h : nextRecord w stream wk = .ok i rest) : decodeStep w stream wk = recordEffect w i wk := by
  rw [decodeStep, h]

theorem decodeStep_of_bad (w : Nat) (stream : List Byte) (wk : Work) (e : DecodeError)
    (h : nextRecord w stream wk = .bad e) : decodeStep w stream wk = shortRecord w e wk := by
  rw [decodeStep, h]

theorem nextRecord_eq (w : Nat) (stream : List Byte) (wk : Work) (bytes : List Byte) (h : stream.drop wk.p = bytes) :
    nextRecord w stream wk = decodeRecord (wk.x == w) bytes := by rw [← h]; rfl

/-- The context of spec/30_encoding.md R116 inside a row. -/
theorem nextRecord_inside (w : Nat) (stream : List Byte) (wk : Work) (bytes : List Byte) (hx : wk.x ≠ w)
    (h : stream.drop wk.p = bytes) : nextRecord w stream wk = decodeRecord false bytes := by
  rw [nextRecord_eq w stream wk bytes h, beq_false_of_ne hx]

/-- Fewer than two bytes at the record offset (spec/42_row_decoder.md R210). -/
theorem decodeStep_of_short (w : Nat) (stream : List Byte) (wk : Work) (h : stream.length < wk.p + 2) :
    decodeStep w stream wk = stopDecoder .decTruncated wk := by
  refine decodeStep_of_bad w stream wk .shortHeader ?_
  have hlen : (stream.drop wk.p).length < 2 := by rw [List.length_drop]; omega
  rw [nextRecord_eq w stream wk _ rfl]
  match stream.drop wk.p, hlen with
  | [], _ | [_], _ => rfl
  | _ :: _ :: _, hlong => simp at hlong

theorem decodeStep_run (w : Nat) (stream : List Byte) (wk : Work) (c v : Byte) (rest : List Byte)
    (h : stream.drop wk.p = c :: v :: rest) (hc : c ≠ 0#8) : decodeStep w stream wk = runRecord w c v wk :=
  decodeStep_of_fetched w stream wk _ rest
    ((nextRecord_eq w stream wk _ h).trans (decodeRecord_run _ c v rest hc))

theorem decodeStep_eol (w : Nat) (stream : List Byte) (wk : Work) (rest : List Byte)
    (h : stream.drop wk.p = 0#8 :: 0#8 :: rest) : decodeStep w stream wk = eolRecord w wk :=
  decodeStep_of_fetched w stream wk .eol rest (nextRecord_eq w stream wk _ h)

/-- A byte that is neither 0 nor 1 is a literal's length from 2 on (spec/30_encoding.md R112). -/
theorem two_le_of_ne (n : Byte) (h0 : n ≠ 0#8) (h1 : n ≠ 1#8) : 2 ≤ n.toNat := by
  rw [Ne, ← BitVec.toNat_inj, BitVec.toNat_ofNat] at h0 h1
  omega

/-- Inside a row a header `00 n`, n >= 1, is a literal's, and its data and pad stand after it or run past the stream. -/
theorem decodeStep_literal (w : Nat) (stream : List Byte) (wk : Work) (n : Byte) (rest : List Byte) (hx : wk.x ≠ w)
    (h : stream.drop wk.p = 0#8 :: n :: rest) (hn : n ≠ 0#8) :
    decodeStep w stream wk =
      if rest.length < literalTrailerBytes n.toNat then shortRecord w (.shortLiteral n) wk
      else literalRecord w n.toNat (rest.take (literalDataBytes n.toNat)) wk := by
  have hnext := nextRecord_inside w stream wk _ hx h
  by_cases hone : n = 1#8
  · subst hone
    match rest with
    | [] | [_] => exact decodeStep_of_bad w stream wk _ hnext
    | d :: pad :: rest =>
      have hlong : ¬(d :: pad :: rest).length < literalTrailerBytes (1#8).toNat := by
        simp [literalTrailerBytes, literalDataBytes]
      rw [if_neg hlong]
      exact decodeStep_of_fetched w stream wk _ rest hnext
  · rw [decodeRecord_literal false n rest (two_le_of_ne n hn hone), decodeLiteral] at hnext
    split
    · next hshort => exact decodeStep_of_bad w stream wk _ (by rw [hnext, if_pos hshort])
    · next hlong => exact decodeStep_of_fetched w stream wk _ _ (by rw [hnext, if_neg hlong])

/-- At a complete row every record but EOL is a missing EOL (spec/42_row_decoder.md R207). -/
theorem decodeStep_of_complete (w : Nat) (stream : List Byte) (wk : Work) (b0 b1 : Byte) (rest : List Byte)
    (hx : wk.x = w) (h : stream.drop wk.p = b0 :: b1 :: rest) (hb : ¬(b0 = 0#8 ∧ b1 = 0#8)) :
    decodeStep w stream wk = stopDecoder .decMissingEol wk := by
  by_cases hrun : b0 = 0#8
  · subst hrun
    have hnext := nextRecord_eq w stream wk _ h
    by_cases hone : b1 = 1#8
    · subst hone
      rw [beq_iff_eq.mpr hx] at hnext
      exact decodeStep_of_fetched w stream wk .eob rest hnext
    · have hn := two_le_of_ne b1 (fun hzero => hb ⟨rfl, hzero⟩) hone
      rw [decodeRecord_literal _ b1 rest hn, decodeLiteral] at hnext
      split at hnext
      · exact (decodeStep_of_bad w stream wk _ hnext).trans (if_pos hx)
      · exact (decodeStep_of_fetched w stream wk _ _ hnext).trans (pixelRecord_of_complete w _ _ _ wk hx)
  · rw [decodeStep_run w stream wk b0 b1 rest h hrun]
    exact pixelRecord_of_complete w _ _ _ wk hx

/-- A literal that would pass W is an overrun whatever bytes follow its header (spec/42_row_decoder.md R211). -/
theorem decodeStep_literal_overrun (w : Nat) (stream : List Byte) (wk : Work) (n : Byte) (rest : List Byte)
    (hx : wk.x ≠ w) (h : stream.drop wk.p = 0#8 :: n :: rest) (hn : n ≠ 0#8) (hover : w < wk.x + n.toNat) :
    decodeStep w stream wk = stopDecoder .decRowOverrun wk := by
  rw [decodeStep_literal w stream wk n rest hx h hn]
  split
  · exact (if_neg hx).trans (if_pos hover)
  · exact pixelRecord_of_overrun w _ _ _ wk hx hover

/-- A literal that fits but whose bytes run past the stream is truncated (spec/42_row_decoder.md R210). -/
theorem decodeStep_literal_truncated (w : Nat) (stream : List Byte) (wk : Work) (n : Byte) (rest : List Byte)
    (hx : wk.x ≠ w) (h : stream.drop wk.p = 0#8 :: n :: rest) (hn : n ≠ 0#8) (hfit : wk.x + n.toNat ≤ w)
    (hshort : rest.length < literalTrailerBytes n.toNat) :
    decodeStep w stream wk = stopDecoder .decTruncated wk := by
  rw [decodeStep_literal w stream wk n rest hx h hn, if_pos hshort]
  exact (if_neg hx).trans (if_neg (Nat.not_lt.mpr hfit))

/-! ### The pixels of the normal row -/

theorem rowResized_length (n : Nat) (row : List Byte) : (rowResized n row).length = n := by
  simp [rowResized]

theorem rowPixel_rowResized (n : Nat) (row : List Byte) (j : Nat) (hj : j < 2 * n) :
    rowPixel (rowResized n row) j = rowPixel row j := by
  have hbyte : (rowResized n row).getD (j / 2) 0#8 = row.getD (j / 2) 0#8 := by
    rw [List.getD_eq_getElem?_getD, List.getD_eq_getElem?_getD, rowResized, List.getElem?_take_of_lt (by omega)]
    by_cases hin : j / 2 < row.length
    · rw [List.getElem?_append_left hin]
    · rw [List.getElem?_append_right (by omega), List.getElem?_replicate, List.getElem?_eq_none (by omega)]
      split <;> rfl
  rw [rowPixel, hbyte, rowPixel]

/-- Clearing the pad nibble is a `setpix` just past the last pixel. -/
theorem normalRow_of_odd (row : List Byte) (w : Nat) (hw : w % 2 = 1) :
    normalRow row w = setPixel (rowResized (rowBytes w) row) w 0#4 := by
  have hlast : rowBytes w - 1 = w / 2 := by rw [rowBytes]; omega
  have hodd : ¬w % 2 = 0 := by omega
  simp only [normalRow, if_pos hw, setPixel, hlast, if_neg hodd]

theorem normalRow_of_even (row : List Byte) (w : Nat) (hw : w % 2 = 0) :
    normalRow row w = rowResized (rowBytes w) row := if_neg (by omega)

theorem normalRow_length (row : List Byte) (w : Nat) : (normalRow row w).length = rowBytes w := by
  rcases Nat.mod_two_eq_zero_or_one w with hw | hw
  · rw [normalRow_of_even row w hw, rowResized_length]
  · rw [normalRow_of_odd row w hw, setPixel_length, rowResized_length]

/-- R' of spec/42_row_decoder.md R213, pixel by pixel: the row's below W, and a clear pad nibble. -/
theorem rowPixel_normalRow (row : List Byte) (w j : Nat) (hj : j < 2 * rowBytes w) :
    rowPixel (normalRow row w) j = if j < w then pix row w j else 0#4 := by
  have hrow : j < w → rowPixel (rowResized (rowBytes w) row) j = pix row w j := fun hlt => by
    rw [rowPixel_rowResized _ row j hj, pix_eq_rowPixel row w j hlt]
  have hsize : 2 * rowBytes w = w + w % 2 := by rw [rowBytes]; omega
  rcases Nat.mod_two_eq_zero_or_one w with hw | hw
  · have hlt : j < w := by omega
    rw [normalRow_of_even row w hw, if_pos hlt, hrow hlt]
  · rw [normalRow_of_odd row w hw, rowPixel_setPixel _ w j _ (by rw [rowResized_length]; omega)]
    by_cases hlt : j < w
    · rw [if_neg hlt.ne, if_pos hlt, hrow hlt]
    · rw [if_pos (by omega), if_neg hlt]

/-- A packed row of RB bytes with a clear pad nibble is its own normal row (spec/42_row_decoder.md R213). -/
theorem normalRow_eq_self (row : List Byte) (w : Nat) (hlen : row.length = rowBytes w)
    (hpad : w % 2 = 1 → lowNibble (row.getD (rowBytes w - 1) 0#8) = 0#4) : normalRow row w = row := by
  refine row_ext _ row ((normalRow_length row w).trans hlen.symm) fun j hj => ?_
  rw [normalRow_length] at hj
  rw [rowPixel_normalRow row w j hj]
  split
  · next hlt => exact pix_eq_rowPixel row w j hlt
  · next hge =>
    obtain ⟨rfl, hodd⟩ : j = w ∧ w % 2 = 1 := by rw [rowBytes] at hj; omega
    have hlast : rowBytes j - 1 = j / 2 := by rw [rowBytes]; omega
    rw [hlast] at hpad
    rw [rowPixel, if_neg (by omega), hpad hodd]

/-! ### Decoding what the encoder wrote -/

/-- Both nibbles of an encoded run's value are its pixel (spec/40_pixel_access.md R148). -/
theorem runPixel_pack (p : Nibble) (k : Nat) : runPixel (packNibbles p p) k = p := by
  rw [runPixel, highNibble_pack, lowNibble_pack, ite_self]

/-- A literal's record is its header, its data bytes, and a pad byte after an odd number of them
(spec/40_pixel_access.md R148). -/
theorem recordBytes_literal_length (n : Nat) (data : List Byte) (hlen : data.length = (n + 1) / 2) :
    (recordBytes (.literal n data)).length = 2 + literalTrailerBytes n := by
  rw [recordBytes, literalTrailerBytes, literalDataBytes, ← hlen]
  rcases Nat.mod_two_eq_zero_or_one data.length with hmod | hmod <;> simp [hmod] <;> omega

/-- A segment's record writes the segment's own pixels and is consumed whole (spec/40_pixel_access.md R146 to R149). -/
theorem recordEffect_segmentRecord (row : List Byte) (w x : Nat) (wk : Work) (hx : x < w) :
    ∃ px, (∀ k, k < segmentLength (segmentAt row w x) → px k = pix row w (x + k)) ∧
      recordEffect w (segmentRecord (segmentAt row w x)) wk =
        pixelRecord w (segmentLength (segmentAt row w x)) (recordBytes (segmentAt row w x)).length px wk := by
  obtain ⟨-, hcap, -⟩ := segment_bounds row w x hx
  cases hseg : segmentAt row w x with
  | run c p =>
    rw [hseg] at hcap
    obtain ⟨-, -, -, hpix⟩ := segment_run row w x hx c p hseg
    refine ⟨runPixel (packNibbles p p), fun k hk => (runPixel_pack p k).trans (hpix k hk).symm, ?_⟩
    have hc : (BitVec.ofNat 8 c).toNat = c := Nat.mod_eq_of_lt (Nat.lt_succ_of_le hcap)
    simp only [segmentRecord, recordEffect, runRecord, hc, segmentLength, recordBytes, List.length_cons, List.length_nil]
  | single p =>
    obtain ⟨rfl, -⟩ := segment_single row w x p hseg
    refine ⟨runPixel (packNibbles _ _), fun k hk => ?_, rfl⟩
    obtain rfl : k = 0 := Nat.lt_one_iff.mp hk
    exact runPixel_pack _ 0
  | literal n data =>
    rw [hseg] at hcap
    obtain ⟨-, ⟨-, -, -, hlen, hpix, -⟩, -, -⟩ := segment_literal row w x hx n data hseg
    refine ⟨literalPixel data, hpix, ?_⟩
    have hbytes := recordBytes_literal_length n data hlen
    by_cases hone : n = 1
    · subst hone
      match data, hlen with
      | [d], _ => rfl
    · have hn : (BitVec.ofNat 8 n).toNat = n := Nat.mod_eq_of_lt (Nat.lt_succ_of_le hcap)
      simp only [segmentRecord, if_neg hone, recordEffect, literalRecord, hn, segmentLength, hbytes]

/-- With the pixels before x already the row's and the others clear, writing the row's next n pixels moves x on by n. -/
theorem rowPixel_setPixels_next (row : List Byte) (w x n : Nat) (out : List Byte) (px : Nat → Nibble)
    (hroom : x + n ≤ 2 * out.length) (hout : ∀ j, rowPixel out j = if j < x then pix row w j else 0#4)
    (hpx : ∀ k, k < n → px k = pix row w (x + k)) (j : Nat) :
    rowPixel (setPixels out x n px) j = if j < x + n then pix row w j else 0#4 := by
  rw [rowPixel_setPixels _ _ _ _ _ hroom, hout j]
  by_cases hin : x ≤ j ∧ j < x + n
  · rw [if_pos hin, if_pos hin.2, hpx _ (by omega), Nat.add_sub_cancel' hin.1]
  · rw [if_neg hin]
    by_cases hlt : j < x
    · rw [if_pos hlt, if_pos (by omega)]
    · rw [if_neg hlt, if_neg (by omega)]

/-- The row decoder at a record of an encoded row: the pixels before x are the row's, the others clear, and what stands at p is
the encoder's output from x on. -/
structure InEncodedRow (row : List Byte) (w : Nat) (stream : List Byte) (wk : Work) : Prop where
  x_le : wk.x ≤ w
  running : wk.stop = none
  ahead : stream.drop wk.p = encodeFrom row w w wk.x
  out_length : wk.out.length = rowBytes w
  pixels : ∀ j, rowPixel wk.out j = if j < wk.x then pix row w j else 0#4

/-- At least the EOL is still to come. -/
theorem InEncodedRow.p_le {row : List Byte} {w : Nat} {stream : List Byte} {wk : Work}
    (h : InEncodedRow row w stream wk) : wk.p ≤ stream.length := by
  obtain ⟨-, hmin, -⟩ := encodeFrom_length_bounds row w w wk.x h.x_le
  have hlen := congrArg List.length h.ahead
  rw [List.length_drop] at hlen
  omega

theorem inEncodedRow_decodeStart (row : List Byte) (w : Nat) :
    InEncodedRow row w (encodeRow row w) (decodeStart w) where
  x_le := Nat.zero_le w
  running := rfl
  ahead := rfl
  out_length := List.length_replicate
  pixels := rowPixel_replicate (rowBytes w)

/-- Inside the row one turn decodes the next segment's record. -/
theorem InEncodedRow.decodeStep_keeps {row : List Byte} {w : Nat} {stream : List Byte} {wk : Work}
    (h : InEncodedRow row w stream wk) (hx : wk.x < w) :
    InEncodedRow row w stream (decodeStep w stream wk) ∧ wk.x < (decodeStep w stream wk).x := by
  obtain ⟨hpos, -, hend⟩ := segment_bounds row w wk.x hx
  obtain ⟨px, hpx, heffect⟩ := recordEffect_segmentRecord row w wk.x wk hx
  obtain ⟨hwf, hencode⟩ := segmentRecord_spec row w wk.x hx
  have hahead := h.ahead
  rw [encodeFrom_turn row w w w wk.x hx (by omega) (by omega)] at hahead
  have hnext : nextRecord w stream wk =
      .ok (segmentRecord (segmentAt row w wk.x)) (encodeFrom row w w (wk.x + segmentLength (segmentAt row w wk.x))) := by
    rw [nextRecord_inside w stream wk _ hx.ne hahead, ← hencode]
    have hdecode := decodeOfEncode _ (encodeFrom row w w (wk.x + segmentLength (segmentAt row w wk.x))) hwf
    rwa [segmentRecord_format] at hdecode
  rw [decodeStep_of_fetched w stream wk _ _ hnext, heffect, pixelRecord_of_fits w _ _ px wk hx hend]
  have hrest : stream.drop (wk.p + (recordBytes (segmentAt row w wk.x)).length) =
      encodeFrom row w w (wk.x + segmentLength (segmentAt row w wk.x)) := by
    rw [← List.drop_drop, hahead, List.drop_left]
  have hroom : wk.x + segmentLength (segmentAt row w wk.x) ≤ 2 * wk.out.length := by
    rw [h.out_length, rowBytes]
    omega
  exact ⟨⟨hend, h.running, hrest, (setPixels_length _ _ _ _).trans h.out_length,
    rowPixel_setPixels_next row w wk.x _ wk.out px hroom h.pixels hpx⟩, Nat.lt_add_of_pos_right hpos⟩

/-- At the row's end the EOL is consumed, and the row decoded is the normal row. -/
theorem InEncodedRow.decodeRun_of_complete {row : List Byte} {w : Nat} {stream : List Byte} {wk : Work}
    (h : InEncodedRow row w stream wk) (hx : wk.x = w) :
    (decodeRun w stream wk).out = normalRow row w ∧ (decodeRun w stream wk).stop = some .none ∧
      (decodeRun w stream wk).p = stream.length := by
  have hahead := h.ahead
  rw [encodeFrom_done row w w _ hx.ge] at hahead
  have hp : stream.length - wk.p = 2 := by rw [← List.length_drop, hahead]; rfl
  have hstep : decodeStep w stream wk = stopAfterEol .none wk := by
    rw [decodeStep_eol w stream wk [] hahead, eolRecord, if_pos hx]
  rw [← decodeRun_decodeStep w stream wk h.x_le h.p_le h.running, hstep, decodeRun, decodeLoop_stopped _ _ _ _ rfl]
  refine ⟨row_ext _ _ (h.out_length.trans (normalRow_length row w).symm) fun j hj => ?_, rfl, ?_⟩
  · rw [rowPixel_normalRow row w j (by rw [← h.out_length]; exact hj), ← hx]
    exact hx ▸ h.pixels j
  · show wk.p + 2 = stream.length
    omega

/-- The rest of an encoded row decodes to the normal row, segment by segment. -/
theorem InEncodedRow.decodeRun_normalRow {row : List Byte} {w : Nat} {stream : List Byte} (left : Nat) {wk : Work}
    (h : InEncodedRow row w stream wk) (hleft : w ≤ wk.x + left) :
    (decodeRun w stream wk).out = normalRow row w ∧ (decodeRun w stream wk).stop = some .none ∧
      (decodeRun w stream wk).p = stream.length := by
  induction left generalizing wk with
  | zero => exact h.decodeRun_of_complete (Nat.le_antisymm h.x_le hleft)
  | succ left ih =>
    rcases h.x_le.eq_or_lt with hx | hx
    · exact h.decodeRun_of_complete hx
    · obtain ⟨hnext, hprogress⟩ := h.decodeStep_keeps hx
      rw [← decodeRun_decodeStep w stream wk h.x_le h.p_le h.running]
      exact ih hnext (by omega)

/-- Settles O29: the decoder runs through the encoded row from its first working state. -/
theorem rowRoundTrip : Obligations.RowRoundTrip := by
  intro row w
  obtain ⟨hout, hstop, hp⟩ := (inEncodedRow_decodeStart row w).decodeRun_normalRow w (Nat.le_add_left _ _)
  refine ⟨?_, normalRow_eq_self row w⟩
  simp only [decodeRow, hout, hstop, hp, Option.getD_some]

/-! ### DEC_ROW -/

/-- From the working state in which DEC_ROW begins, the output is that of `decodeRow`. -/
theorem decodeOutput_beginWork (sn : Snap) (stream : List Byte) (hop : decodeCommand sn.op = .decRow) :
    decodeOutput sn stream (beginWork sn) =
      ⟨(decodeRow stream sn.w.toNat).1, some (decodeRow stream sn.w.toNat).2.2, (decodeRow stream sn.w.toNat).2.1⟩ := by
  have hbegin : beginWork sn = decodeStart sn.w.toNat := by rw [beginWork, if_pos hop, decodeStart]
  rw [hbegin]
  rfl

/-- The decoder stops inside its stream. -/
theorem decodeRow_consumed_le (stream : List Byte) (w : Nat) : (decodeRow stream w).2.2 ≤ stream.length :=
  (decodeLoop_bounds w stream _ (decodeStart w) (Nat.zero_le _) (Nat.zero_le _) nofun nofun).1

/-- Settles O13: the output of DEC_ROW's first working state is the decoded row, and CONSUMED holds its offset. -/
theorem decRowCompletes : Obligations.DecRowCompletes := by
  intro s sn hp he hop
  refine ⟨rfl, fun hr => ?_, fun hr => ?_⟩
  · refine outputCommand_badRange decodeOutput s sn none he ?_
    rw [← not_rangeFails_iff .decRow sn s rfl rfl]
    exact not_not_intro hr
  · obtain ⟨t, ht, hwrites, hcompletes, hkeeps, hresult, hconsumed, hmarks⟩ :=
      outputCommand_in_range decodeOutput s sn none _ hp he (decodeOutput_beginWork sn (inputSlice sn s) hop)
        ((not_rangeFails_iff .decRow sn s rfl rfl).mp hr)
    have hle := decodeRow_consumed_le (inputSlice sn s) sn.w.toNat
    rw [inputSlice_length] at hle
    refine ⟨t, ht, hwrites, hcompletes, ?_, hkeeps, hresult, hmarks⟩
    rw [hconsumed]
    exact Nat.mod_eq_of_lt (hle.trans_lt sn.len.isLt)

/-! ### The records' meanings -/

/-- While DEC_ROW is in flight and has not ended, a record's meaning is a step on the working state. -/
theorem withRecord_decodingRow (k : Snap → Work → Outcome) (s : State) (sn : Snap) (wk : Work)
    (h : DecodingRow sn wk s) : withRecord k s = k sn wk := by
  obtain ⟨w, he, rfl, hop, hstop⟩ := h
  exact withRecord_busy k s sn w he hop hstop

theorem DecodingRow.running {sn : Snap} {wk : Work} {s : State} (h : DecodingRow sn wk s) : wk.stop = none := by
  obtain ⟨-, -, -, -, hstop⟩ := h
  exact hstop

/-- The meaning of a run: two bytes. -/
theorem exec_run_decodingRow (s : State) (sn : Snap) (wk : Work) (c v : Byte) (h : DecodingRow sn wk s) :
    exec (.run c v) s = .next (setWork sn (pixelRecord sn.w.toNat c.toNat 2 (runPixel v) wk) s) := by
  rw [exec, execRun, withRecord_decodingRow _ s sn wk h]
  rfl

/-- The meaning of a literal of length 1: two header bytes, its data byte and its pad. -/
theorem exec_lit1_decodingRow (s : State) (sn : Snap) (wk : Work) (d pad : Byte) (h : DecodingRow sn wk s) :
    exec (.lit1 d pad) s = .next (setWork sn (pixelRecord sn.w.toNat 1 4 (literalPixel [d]) wk) s) := by
  rw [exec, execLit1, withRecord_decodingRow _ s sn wk h]
  rfl

/-- The meaning of a longer literal. -/
theorem exec_lit_decodingRow (s : State) (sn : Snap) (wk : Work) (n : Byte) (data : List Byte) (pad : Option Byte)
    (h : DecodingRow sn wk s) :
    exec (.lit n data pad) s =
      .next (setWork sn (pixelRecord sn.w.toNat n.toNat (2 + literalTrailerBytes n.toNat) (literalPixel data) wk) s) := by
  rw [exec, execLit, withRecord_decodingRow _ s sn wk h]
  rfl

/-- Settles O21: the run's pixels are its value's nibbles in turn. -/
theorem runRecordWritesPixels : Obligations.RunRecordWritesPixels := by
  intro s sn wk c v h hout _ hx hfit
  exact ⟨_, exec_run_decodingRow s sn wk c v h, pixelRecord_writesPixels _ _ _ _ wk h.running hout hx hfit⟩

/-- Settles O22: the literal's pixels are those of its data bytes; the pad is not looked at. -/
theorem literalRecordWritesPixels : Obligations.LiteralRecordWritesPixels := by
  refine ⟨fun s sn wk h hout hx => ⟨fun d pad => ?_, fun n data pad _ hfit => ?_⟩, fun _ _ _ => rfl⟩
  · refine ⟨_, exec_lit1_decodingRow s sn wk d pad h, ?_⟩
    refine (pixelRecord_writesPixels _ _ _ _ wk h.running hout hx hx).congr fun k hk => ?_
    obtain rfl : k = 0 := Nat.lt_one_iff.mp hk
    rfl
  · refine ⟨_, exec_lit_decodingRow s sn wk n data pad h, ?_⟩
    rw [Nat.add_assoc, ← literalPixel_eq_rowPixel]
    exact pixelRecord_writesPixels _ _ _ _ wk h.running hout hx hfit

/-- Settles O23: EOL's meaning is the end of the decoder. -/
theorem eolRecordEndsTheRow : Obligations.EolRecordEndsTheRow := by
  intro s sn wk h
  rw [exec, execEol, withRecord_decodingRow _ s sn wk h]
  rfl

/-- Settles O24: at a complete row EOB is not refused, and is a missing EOL. -/
theorem eobRecordIsAMissingEol : Obligations.EobRecordIsAMissingEol := by
  intro s sn wk h hx
  rw [exec, execEob, withRecord_decodingRow _ s sn wk h, if_neg hx.not_lt]
  rfl

/-- A run or a literal of n pixels acts as a record of n pixels. -/
theorem exec_pixelRecord (s : State) (sn : Snap) (wk : Work) (i : Instr) (n : Nat) (h : DecodingRow sn wk s)
    (hi : (∃ c v, i = .run c v ∧ n = c.toNat) ∨ (∃ d pad, i = .lit1 d pad ∧ n = 1) ∨
      (∃ l data pad, i = .lit l data pad ∧ n = l.toNat)) :
    ∃ len px, exec i s = .next (setWork sn (pixelRecord sn.w.toNat n len px wk) s) := by
  rcases hi with ⟨c, v, rfl, rfl⟩ | ⟨d, pad, rfl, rfl⟩ | ⟨l, data, pad, rfl, rfl⟩
  · exact ⟨_, _, exec_run_decodingRow s sn wk c v h⟩
  · exact ⟨_, _, exec_lit1_decodingRow s sn wk d pad h⟩
  · exact ⟨_, _, exec_lit_decodingRow s sn wk l data pad h⟩

/-- Settles O25, by the two ends of a record of pixels. -/
theorem pixelRecordTraps : Obligations.PixelRecordTraps := by
  intro s sn wk i n h hi
  obtain ⟨len, px, hexec⟩ := exec_pixelRecord s sn wk i n h hi
  constructor
  · intro hx
    rw [hexec, pixelRecord_of_complete _ n len px wk hx]
    rfl
  · intro hx hn
    rw [hexec, pixelRecord_of_overrun _ n len px wk hx hn]
    rfl

/-- Settles O26: at each kind of header, the end that it calls for. -/
theorem decoderEndsByTheBytes : Obligations.DecoderEndsByTheBytes := by
  intro w stream wk _
  refine ⟨decodeStep_of_short w stream wk, fun b0 b1 rest h => ⟨?_, ?_, ?_, ?_, ?_, ?_⟩, rfl⟩
  · rintro hx rfl rfl
    rw [decodeStep_eol w stream wk rest h, eolRecord, if_pos hx]
    rfl
  · intro hx hb
    exact decodeStep_of_complete w stream wk b0 b1 rest hx h hb
  · rintro hx rfl rfl
    rw [decodeStep_eol w stream wk rest h, eolRecord, if_neg hx.ne]
    rfl
  · intro hx hrun hover
    rw [decodeStep_run w stream wk b0 b1 rest h hrun]
    exact pixelRecord_of_overrun w _ _ _ wk hx.ne hover
  · rintro hx rfl hn hover
    exact decodeStep_literal_overrun w stream wk b1 rest hx.ne h hn hover
  · rintro hx rfl hn hfit hshort
    have hlen := congrArg List.length h
    rw [List.length_drop, List.length_cons, List.length_cons] at hlen
    refine decodeStep_literal_truncated w stream wk b1 rest hx.ne h hn hfit ?_
    rw [literalTrailerBytes, literalDataBytes]
    omega

end Sys2Proof.Machine
end

section
/-! The byte codec (spec/43_byte_rle.md): a sequence run by run and a stream item by item (R243, R247), the sizes of what they
become (R245, R249), the round trip in each profile (R250), and the commands BRLE_ENC and BRLE_DEC (R244, R248). -/

namespace Sys2Proof.Machine

/-! ### The run partition -/

/-- The run that stands at the head of a sequence as the loop of spec/43_byte_rle.md R243 finds it: l copies of v, no more than
63, and no shorter than it could be. -/
structure IsByteRun (l : Nat) (v : Byte) (rest : List Byte) : Prop where
  pos : 1 ≤ l
  le_cap : l ≤ 63
  maximal : l = 63 ∨ rest.head? ≠ some v

/-- The count stops at the cap or where another byte or none follows. -/
theorem leadCount_maximal (v : Byte) (cap : Nat) (bytes : List Byte) :
    leadCount v cap bytes = cap ∨ (bytes.drop (leadCount v cap bytes)).head? ≠ some v := by
  induction cap generalizing bytes with
  | zero => exact .inl rfl
  | succ cap ih =>
    cases bytes with
    | nil => exact .inr nofun
    | cons b bs =>
      rw [leadCount]
      split
      · exact (ih bs).imp_left (congrArg (· + 1))
      · next hb => exact .inr fun h => hb (Option.some.inj h)

theorem leadCount_replicate_append (v : Byte) (cap k : Nat) (rest : List Byte) (hk : k ≤ cap)
    (hmax : k = cap ∨ rest.head? ≠ some v) : leadCount v cap (List.replicate k v ++ rest) = k := by
  induction k generalizing cap with
  | zero =>
    match cap, rest with
    | 0, _ | _ + 1, [] => rfl
    | _ + 1, b :: bs =>
      have hb : b ≠ v := fun h => hmax.elim nofun (· (congrArg some h))
      exact if_neg hb
  | succ k ih =>
    obtain ⟨cap, rfl⟩ : ∃ c, cap = c + 1 := ⟨cap - 1, by omega⟩
    rw [List.replicate_succ, List.cons_append, leadCount, if_pos rfl, ih cap (by omega) (hmax.imp_left (by omega))]

/-- The encoder finds the whole run at the head of a sequence. -/
theorem IsByteRun.byteRunLength_eq {k : Nat} {v : Byte} {rest : List Byte} (h : IsByteRun (k + 1) v rest) :
    byteRunLength v (List.replicate k v ++ rest) = k + 1 := by
  obtain ⟨-, hcap, hmax⟩ := h
  rw [byteRunLength, leadCount_replicate_append v 62 k rest (by omega) (hmax.imp_left (by omega)), Nat.add_comm]

/-- What the loop of spec/43_byte_rle.md R243 takes from a nonempty sequence is a run. -/
theorem isByteRun_byteRunLength (v : Byte) (rest : List Byte) :
    IsByteRun (byteRunLength v rest) v (rest.drop (byteRunLength v rest - 1)) := by
  obtain ⟨hpos, hcap, -⟩ := byteRunLength_spec v rest
  refine ⟨hpos, hcap, ?_⟩
  rw [byteRunLength, Nat.add_sub_cancel_left]
  exact (leadCount_maximal v 62 rest).imp_left (congrArg (1 + ·))

/-- Induction along the run partition of a sequence (spec/43_byte_rle.md R243). -/
theorem byteRuns_induction {motive : List Byte → Prop} (nil : motive [])
    (run : ∀ l v rest, IsByteRun l v rest → motive rest → motive (List.replicate l v ++ rest)) (bytes : List Byte) :
    motive bytes := by
  induction hn : bytes.length using Nat.strong_induction_on generalizing bytes with
  | _ n ih =>
    cases bytes with
    | nil => exact nil
    | cons v rest =>
      obtain ⟨-, -, -, hsplit⟩ := byteRunLength_spec v rest
      rw [hsplit]
      refine run _ v _ (isByteRun_byteRunLength v rest) (ih _ ?_ _ rfl)
      rw [← hn, List.length_drop, List.length_cons]
      omega

/-! ### Encoding run by run -/

/-- One turn of the encoder's loop (spec/43_byte_rle.md R243). -/
theorem brleEncode_run (p : Profile) {l : Nat} {v : Byte} {rest : List Byte} (h : IsByteRun l v rest) :
    brleEncode (List.replicate l v ++ rest) p = byteRunItem p l v ++ brleEncode rest p := by
  obtain ⟨k, rfl⟩ := Nat.exists_eq_add_of_le' h.pos
  rw [List.replicate_succ, List.cons_append, brleEncode, List.length_cons, brleEncodeFrom, h.byteRunLength_eq,
    Nat.add_sub_cancel, List.drop_left' List.length_replicate,
    brleEncodeFrom_fuel p _ rest.length rest (by simp) le_rfl, brleEncode]

/-- spec/43_byte_rle.md R245 (f): no run becomes longer than twice itself. -/
theorem brleEncode_length_le (p : Profile) (bytes : List Byte) : (brleEncode bytes p).length ≤ 2 * bytes.length := by
  induction bytes using byteRuns_induction with
  | nil => exact le_rfl
  | run l v rest h ih =>
    obtain ⟨-, hitem⟩ := byteRunItem_length p l v
    have hpos := h.pos
    rw [brleEncode_run p h, List.length_append, List.length_append, List.length_replicate]
    omega

theorem hasLoneControl_fuel (f f' : Nat) (bytes : List Byte) (h : bytes.length ≤ f) (h' : bytes.length ≤ f') :
    hasLoneControl f bytes = hasLoneControl f' bytes := by
  induction f generalizing f' bytes with
  | zero =>
    obtain rfl : bytes = [] := List.length_eq_zero_iff.mp (Nat.le_zero.mp h)
    cases f' <;> rfl
  | succ f ih =>
    match bytes, f' with
    | [], 0 | [], _ + 1 => rfl
    | v :: rest, f' + 1 =>
      rw [List.length_cons] at h h'
      rw [hasLoneControl, hasLoneControl, ih f' _ (by simp; omega) (by simp; omega)]

/-- The run at the head of a sequence is a lone control value, or one of the later runs is (spec/43_byte_rle.md R250). -/
theorem hasLoneControl_run {l : Nat} {v : Byte} {rest : List Byte} (h : IsByteRun l v rest) :
    hasLoneControl (List.replicate l v ++ rest).length (List.replicate l v ++ rest) =
      (l == 1 && decide (0xC0 ≤ v.toNat) || hasLoneControl rest.length rest) := by
  obtain ⟨k, rfl⟩ := Nat.exists_eq_add_of_le' h.pos
  rw [List.replicate_succ, List.cons_append, List.length_cons, hasLoneControl, h.byteRunLength_eq,
    Nat.add_sub_cancel, List.drop_left' List.length_replicate,
    hasLoneControl_fuel _ rest.length rest (by simp) le_rfl]

/-! ### Decoding item by item -/

/-- A byte from 0xC0 on is the control byte of its low six bits (spec/30_encoding.md R121). -/
theorem exists_controlByte (c : Byte) (h : 0xC0 ≤ c.toNat) : ∃ n, c = controlByte n := exists_escapedByte c h

theorem itemEffect_plain (p : Profile) (c : Byte) (rest : List Byte) (h : c.toNat < 0xC0) :
    itemEffect p (decodeItem (c :: rest)) = some ([c], 1) := by
  rcases byte_pattern c with ⟨x, rfl⟩ | ⟨x, rfl⟩ | ⟨n, rfl⟩
  · rw [decodeItem_rawLo]
    rfl
  · rw [decodeItem_rawHi]
    rfl
  · rw [controlByte_toNat] at h
    omega

/-- An escape pair too is a control pair, with n = 1 (spec/43_byte_rle.md R249 (e)). -/
theorem itemEffect_controlByte (p : Profile) (n : BitVec 6) (d : Byte) (rest : List Byte) :
    itemEffect p (decodeItem (controlByte n :: d :: rest)) = some (controlBytes p n d, 2) := by
  by_cases hesc : n = 1#6 ∧ 0xC0 ≤ d.toNat
  · obtain ⟨rfl, hd⟩ := hesc
    obtain ⟨e, rfl⟩ := exists_escapedByte d hd
    exact congrArg (itemEffect p) (decodeItem_esc e rest)
  · rw [decodeItem_ctrl n d rest ((wf_ctrl_iff n d).mpr hesc)]
    rfl

/-- The decoder reads the same from index i of a sequence as with other bytes before it. -/
theorem brleDecodeFrom_append (p : Profile) (front bytes : List Byte) (fuel i : Nat) :
    brleDecodeFrom p (front ++ bytes) fuel (i + front.length) =
      ((brleDecodeFrom p bytes fuel i).1, (brleDecodeFrom p bytes fuel i).2 + front.length) := by
  have hnext (j : Nat) : nextItem (front ++ bytes) (j + front.length) = nextItem bytes j := by
    rw [nextItem, nextItem, Nat.add_comm, List.drop_length_add_append]
  induction fuel generalizing i with
  | zero => rfl
  | succ fuel ih =>
    rw [brleDecodeFrom, brleDecodeFrom, hnext]
    cases itemEffect p (nextItem bytes i) with
    | none => rfl
    | some effect =>
      obtain ⟨out, len⟩ := effect
      simp only [Nat.add_right_comm i front.length len, ih]

/-- One turn of the decoder's loop (spec/43_byte_rle.md R247). -/
theorem brleDecode_item (p : Profile) (item rest out : List Byte)
    (h : itemEffect p (decodeItem (item ++ rest)) = some (out, item.length)) :
    brleDecode (item ++ rest) p = (out ++ (brleDecode rest p).1, (brleDecode rest p).2 + item.length) := by
  have hfuel : brleDecodeFrom p rest (item ++ rest).length 0 = brleDecode rest p :=
    brleDecodeFrom_fuel p rest _ _ 0 (by simp) (by simp)
  rw [brleDecode, brleDecodeFrom_item p _ out 0 item.length h, brleDecodeFrom_append, hfuel]

theorem brleDecode_plain (p : Profile) (c : Byte) (rest : List Byte) (h : c.toNat < 0xC0) :
    brleDecode (c :: rest) p = (c :: (brleDecode rest p).1, (brleDecode rest p).2 + 1) :=
  brleDecode_item p [c] rest [c] (itemEffect_plain p c rest h)

theorem brleDecode_controlByte (p : Profile) (n : BitVec 6) (d : Byte) (rest : List Byte) :
    brleDecode (controlByte n :: d :: rest) p =
      (controlBytes p n d ++ (brleDecode rest p).1, (brleDecode rest p).2 + 2) :=
  brleDecode_item p [controlByte n, d] rest _ (itemEffect_controlByte p n d rest)

/-- A trailing control byte is dropped (spec/43_byte_rle.md R247). -/
theorem brleDecode_lastControl (p : Profile) (n : BitVec 6) : brleDecode [controlByte n] p = ([], 0) := by
  refine brleDecodeFrom_done p _ _ 0 ?_
  rw [nextItem, List.drop_zero, decode, decodeItem_controlByte]
  rfl

/-- Induction along the items of a byte-RLE stream (spec/43_byte_rle.md R247). -/
theorem byteItems_induction {motive : List Byte → Prop} (nil : motive [])
    (plain : ∀ c rest, c.toNat < 0xC0 → motive rest → motive (c :: rest))
    (lastControl : ∀ n, motive [controlByte n])
    (pair : ∀ n d rest, motive rest → motive (controlByte n :: d :: rest)) : ∀ bytes, motive bytes
  | [] => nil
  | c :: rest => by
    rcases Nat.lt_or_ge c.toNat 0xC0 with hc | hc
    · exact plain c rest hc (byteItems_induction nil plain lastControl pair rest)
    · obtain ⟨n, rfl⟩ := exists_controlByte c hc
      match rest with
      | [] => exact lastControl n
      | d :: rest => exact pair n d rest (byteItems_induction nil plain lastControl pair rest)

/-- A control pair stands for at most 64 bytes (spec/43_byte_rle.md R246). -/
theorem controlBytes_length_le (p : Profile) (n : BitVec 6) (d : Byte) : (controlBytes p n d).length ≤ 64 := by
  have hn : n.toNat < 64 := n.isLt
  rw [controlBytes, List.length_replicate]
  cases p <;> rw [copies] <;> omega

/-- spec/43_byte_rle.md R249 (f). -/
theorem brleDecode_length_le (p : Profile) (bytes : List Byte) :
    (brleDecode bytes p).1.length ≤ 64 * (bytes.length / 2) + bytes.length % 2 := by
  induction bytes using byteItems_induction with
  | nil => exact le_rfl
  | plain c rest hc ih =>
    rw [brleDecode_plain p c rest hc, List.length_cons, List.length_cons]
    omega
  | lastControl n =>
    rw [brleDecode_lastControl]
    exact Nat.zero_le _
  | pair n d rest ih =>
    have hpair := controlBytes_length_le p n d
    rw [brleDecode_controlByte, List.length_append, List.length_cons, List.length_cons]
    omega

/-- spec/43_byte_rle.md R248: the decoder reads everything but a control byte that comes last. -/
theorem brleDecode_index (p : Profile) (bytes : List Byte) :
    (brleDecode bytes p).2 = bytes.length ∨
      ((brleDecode bytes p).2 + 1 = bytes.length ∧ ∃ c, bytes.getLast? = some c ∧ 0xC0 ≤ c.toNat) := by
  induction bytes using byteItems_induction with
  | nil => exact .inl rfl
  | plain c rest hc ih =>
    rw [brleDecode_plain p c rest hc]
    refine ih.imp (congrArg (· + 1)) fun ⟨hidx, last, hlast, hctrl⟩ => ⟨congrArg (· + 1) hidx, last, ?_, hctrl⟩
    rw [List.getLast?_cons, hlast, Option.getD_some]
  | lastControl n =>
    rw [brleDecode_lastControl]
    exact .inr ⟨rfl, controlByte n, rfl, by simp⟩
  | pair n d rest ih =>
    rw [brleDecode_controlByte]
    refine ih.imp (congrArg (· + 2)) fun ⟨hidx, last, hlast, hctrl⟩ => ⟨congrArg (· + 2) hidx, last, ?_, hctrl⟩
    rw [List.getLast?_cons, List.getLast?_cons, hlast, Option.getD_some, Option.getD_some]

/-! ### The round trip -/

/-- How many copies of v the decoder makes of the encoder's item for a run of l: as many as there were, but two of an escape
pair under COUNT_M1 (spec/43_byte_rle.md R250). -/
def decodedCopies (p : Profile) (l : Nat) (v : Byte) : Nat :=
  if p = .countM1 ∧ l = 1 ∧ 0xC0 ≤ v.toNat then 2 else l

theorem le_decodedCopies (p : Profile) (l : Nat) (v : Byte) : l ≤ decodedCopies p l v := by
  rw [decodedCopies]
  split <;> omega

theorem decodedCopies_eq_iff (p : Profile) (l : Nat) (v : Byte) :
    decodedCopies p l v = l ↔ ¬(p = .countM1 ∧ l = 1 ∧ 0xC0 ≤ v.toNat) := by
  rw [decodedCopies]
  split
  · next hesc =>
    obtain ⟨hp, rfl, hv⟩ := hesc
    exact iff_of_false nofun (not_not_intro ⟨hp, rfl, hv⟩)
  · next hesc => exact iff_of_true rfl hesc

/-- A run's control byte has the run's length as its number of copies (spec/43_byte_rle.md R242, R246). -/
theorem exists_runControl_eq (p : Profile) (l : Nat) (hpos : 1 ≤ l) (hcap : l ≤ 63) :
    ∃ n, runControl p l = controlByte n ∧ copies p n = l := by
  have hbyte (c : Nat) (hc : c < 64) : BitVec.ofNat 8 (0xC0 + c) = controlByte (BitVec.ofNat 6 c) := by
    refine BitVec.eq_of_toNat_eq ?_
    rw [controlByte_toNat, BitVec.toNat_ofNat, BitVec.toNat_ofNat]
    omega
  cases p with
  | count => exact ⟨_, hbyte l (by omega), Nat.mod_eq_of_lt (by omega)⟩
  | countM1 =>
    refine ⟨BitVec.ofNat 6 (l - 1), ?_, ?_⟩
    · rw [← hbyte (l - 1) (by omega), runControl, Nat.add_sub_assoc hpos]
    · rw [copies, BitVec.toNat_ofNat]
      omega

/-- Decoding the encoder's item for a run. -/
theorem brleDecode_byteRunItem (p : Profile) (l : Nat) (v : Byte) (rest : List Byte) (hpos : 1 ≤ l) (hcap : l ≤ 63) :
    brleDecode (byteRunItem p l v ++ rest) p =
      (List.replicate (decodedCopies p l v) v ++ (brleDecode rest p).1,
        (brleDecode rest p).2 + (byteRunItem p l v).length) := by
  rw [byteRunItem]
  split
  · obtain ⟨n, hbyte, hcopies⟩ := exists_runControl_eq p l hpos hcap
    have hexact : decodedCopies p l v = l := (decodedCopies_eq_iff p l v).mpr (by omega)
    rw [hbyte, hexact, ← hcopies]
    exact brleDecode_controlByte p n v rest
  · obtain rfl : l = 1 := by omega
    split
    · next hv =>
      have hesc : decodedCopies p 1 v = copies p 1#6 := by cases p <;> simp [decodedCopies, copies, hv]
      rw [hesc]
      exact brleDecode_controlByte p 1#6 v rest
    · next hv =>
      have hexact : decodedCopies p 1 v = 1 := (decodedCopies_eq_iff p 1 v).mpr fun ⟨_, _, hesc⟩ => hv hesc
      rw [hexact]
      exact brleDecode_plain p v rest (Nat.lt_of_not_le hv)

theorem brleDecode_brleEncode_run (p : Profile) {l : Nat} {v : Byte} {rest : List Byte} (h : IsByteRun l v rest) :
    brleDecode (brleEncode (List.replicate l v ++ rest) p) p =
      (List.replicate (decodedCopies p l v) v ++ (brleDecode (brleEncode rest p) p).1,
        (brleDecode (brleEncode rest p) p).2 + (byteRunItem p l v).length) := by
  rw [brleEncode_run p h, brleDecode_byteRunItem p l v _ h.pos h.le_cap]

/-- The decoder consumes all that the encoder wrote, in either profile. -/
theorem brleDecode_brleEncode_index (p : Profile) (bytes : List Byte) :
    (brleDecode (brleEncode bytes p) p).2 = (brleEncode bytes p).length := by
  induction bytes using byteRuns_induction with
  | nil => rfl
  | run l v rest h ih =>
    rw [brleDecode_brleEncode_run p h, brleEncode_run p h, List.length_append, ih, Nat.add_comm]

/-- No byte is lost, in either profile. -/
theorem length_le_brleDecode_brleEncode (p : Profile) (bytes : List Byte) :
    bytes.length ≤ (brleDecode (brleEncode bytes p) p).1.length := by
  induction bytes using byteRuns_induction with
  | nil => exact le_rfl
  | run l v rest h ih =>
    rw [brleDecode_brleEncode_run p h]
    simp only [List.length_append, List.length_replicate]
    exact Nat.add_le_add (le_decodedCopies p l v) ih

/-- A run comes back with what follows it exactly when it is copied exactly: one copy too many makes the whole too long. -/
theorem decodedCopies_append_eq_iff (p : Profile) (l : Nat) (v : Byte) (rest : List Byte) :
    List.replicate (decodedCopies p l v) v ++ (brleDecode (brleEncode rest p) p).1 = List.replicate l v ++ rest ↔
      decodedCopies p l v = l ∧ (brleDecode (brleEncode rest p) p).1 = rest := by
  constructor
  · intro heq
    have hlen := congrArg List.length heq
    simp only [List.length_append, List.length_replicate] at hlen
    have hrun := le_decodedCopies p l v
    have hrest := length_le_brleDecode_brleEncode p rest
    have hexact : decodedCopies p l v = l := by omega
    rw [hexact] at heq
    exact ⟨hexact, List.append_cancel_left heq⟩
  · rintro ⟨hexact, hrest⟩
    rw [hexact, hrest]

/-- The bytes come back under COUNT, and under COUNT_M1 when no run is a lone control value (spec/43_byte_rle.md R250). -/
theorem brleDecode_brleEncode_bytes_iff (p : Profile) (bytes : List Byte) :
    (brleDecode (brleEncode bytes p) p).1 = bytes ↔ (p = .countM1 → hasLoneControl bytes.length bytes = false) := by
  induction bytes using byteRuns_induction with
  | nil => exact iff_of_true rfl fun _ => rfl
  | run l v rest h ih =>
    rw [brleDecode_brleEncode_run p h, decodedCopies_append_eq_iff, decodedCopies_eq_iff, ih, hasLoneControl_run h]
    cases p <;> simp

theorem brleDecode_brleEncode_iff (p : Profile) (bytes : List Byte) :
    brleDecode (brleEncode bytes p) p = (bytes, (brleEncode bytes p).length) ↔
      (p = .countM1 → hasLoneControl bytes.length bytes = false) := by
  rw [Prod.ext_iff, and_iff_left (brleDecode_brleEncode_index p bytes), brleDecode_brleEncode_bytes_iff]

/-- Settles O30: under COUNT nothing is asked of the runs. -/
theorem byteRoundTripUnderCount : Obligations.ByteRoundTripUnderCount :=
  fun bytes => (brleDecode_brleEncode_iff .count bytes).mpr nofun

/-- Settles O31: under COUNT_M1 a lone control value, and nothing else, comes back too long. -/
theorem byteRoundTripUnderCountM1 : Obligations.ByteRoundTripUnderCountM1 :=
  fun bytes => (brleDecode_brleEncode_iff .countM1 bytes).trans (forall_prop_of_true rfl)

/-! ### Sizes -/

/-- Settles O37: the encoder run by run, the decoder item by item, and the bounds along them. -/
theorem byteCodecSizes : Obligations.ByteCodecSizes := by
  intro p
  refine ⟨fun bytes => ⟨brleEncode_length_le p bytes, brleDecode_length_le p bytes, brleDecode_index p bytes⟩, rfl, rfl,
    fun l v rest hpos hcap hmax => ?_, brleDecode_plain p, fun c d rest hc => ?_, fun c hc => ?_⟩
  · rw [brleEncode_run p ⟨hpos, hcap, hmax⟩]
    cases p <;> rfl
  · obtain ⟨n, rfl⟩ := exists_controlByte c hc
    rw [brleDecode_controlByte, controlByte_toNat, Nat.add_sub_cancel_left]
    cases p <;> rfl
  · obtain ⟨n, rfl⟩ := exists_controlByte c hc
    exact brleDecode_lastControl p n

/-! ### BRLE_ENC and BRLE_DEC -/

/-- A command that reads its slice and writes output ends with BAD_RANGE where one of its range checks fails
(spec/60_exceptions.md R283). -/
theorem endsBadRange_of_outputCommand (i : Instr) (compute : Snap → List Byte → Work → Output) (s : State) (sn : Snap)
    (w : Option Work) (hexec : exec i s = outputCommand compute s) (he : s.engine = .busy sn w)
    (hread : readsIn i = true) (hwrite : writesOut i = true) (hr : rangeFails i sn s) : EndsBadRange i s := by
  rw [EndsBadRange, hexec]
  refine outputCommand_badRange compute s sn w he ?_
  rw [← not_rangeFails_iff i sn s hread hwrite]
  exact not_not_intro hr

/-- From the working state in which BRLE_ENC begins, the whole slice is still to be encoded. -/
theorem brleEncodeOutput_beginWork (sn : Snap) (bytes : List Byte) (hop : decodeCommand sn.op = .brleEnc) :
    brleEncodeOutput sn bytes (beginWork sn) = ⟨brleEncode bytes sn.profile, some bytes.length, .none⟩ := by
  simp [brleEncodeOutput, beginWork, hop]

/-- From the working state in which BRLE_DEC begins, the output is that of `brleDecode`. -/
theorem brleDecodeOutput_beginWork (sn : Snap) (bytes : List Byte) (hop : decodeCommand sn.op = .brleDec) :
    brleDecodeOutput sn bytes (beginWork sn) =
      ⟨(brleDecode bytes sn.profile).1, some (brleDecode bytes sn.profile).2, .none⟩ := by
  simp [brleDecodeOutput, beginWork, hop, brleDecode]

/-- Settles O15: the output of BRLE_ENC's first working state is the encoded slice, and CONSUMED holds its length. -/
theorem brleEncCompletes : Obligations.BrleEncCompletes := by
  intro s sn hp he hop
  refine ⟨rfl, endsBadRange_of_outputCommand .brleEnc brleEncodeOutput s sn none rfl he rfl rfl, fun hr => ?_⟩
  obtain ⟨t, ht, hwrites, hcompletes, hkeeps, hresult, hconsumed, hmarks⟩ :=
    outputCommand_in_range brleEncodeOutput s sn none _ hp he (brleEncodeOutput_beginWork sn (inputSlice sn s) hop)
      ((not_rangeFails_iff .brleEnc sn s rfl rfl).mp hr)
  refine ⟨t, ht, hwrites, hcompletes, ?_, hkeeps, hresult, hmarks⟩
  calc t.consumed = BitVec.ofNat 32 (inputSlice sn s).length := hconsumed
    _ = sn.len := by rw [inputSlice_length, BitVec.ofNat_toNat, BitVec.setWidth_eq]

/-- Settles O16: the output of BRLE_DEC's first working state is the decoded slice, and CONSUMED holds its final index. -/
theorem brleDecCompletes : Obligations.BrleDecCompletes := by
  intro s sn hp he hop
  refine ⟨rfl, endsBadRange_of_outputCommand .brleDec brleDecodeOutput s sn none rfl he rfl rfl, fun hr => ?_⟩
  obtain ⟨t, ht, hwrites, hcompletes, hkeeps, hresult, hconsumed, hmarks⟩ :=
    outputCommand_in_range brleDecodeOutput s sn none _ hp he (brleDecodeOutput_beginWork sn (inputSlice sn s) hop)
      ((not_rangeFails_iff .brleDec sn s rfl rfl).mp hr)
  have hle : (brleDecode (inputSlice sn s) sn.profile).2 ≤ (inputSlice sn s).length :=
    brleDecodeFrom_index_le sn.profile _ _ 0 (Nat.zero_le _)
  rw [inputSlice_length] at hle
  refine ⟨t, ht, hwrites, hcompletes, ?_, hkeeps, hresult, hmarks⟩
  rw [hconsumed]
  exact Nat.mod_eq_of_lt (hle.trans_lt sn.len.isLt)

/-! ### Control items -/

/-- Settles O28: the copies are those of the profile, and an escape pair's count field is 1. -/
theorem controlItemsRepeatTheirByte : Obligations.ControlItemsRepeatTheirByte := by
  intro s sn wk h
  have hcopies (n : BitVec 6) : (if sn.profile = .count then n.toNat else n.toNat + 1) = copies sn.profile n := by
    cases sn.profile <;> rfl
  refine ⟨fun n d => ?_, fun d => ?_⟩
  · rw [hcopies]
    exact withItem_advance (fun sn => controlBytes sn.profile n d) 2 s sn wk h
  · rw [← escapedByte_toNat, BitVec.ofNat_toNat, BitVec.setWidth_eq]
    refine (withItem_advance (fun sn => escapeBytes sn.profile d) 2 s sn wk h).trans ?_
    rw [escapeBytes, controlBytes, ← hcopies]
    rfl

end Sys2Proof.Machine
end

section
/-! The control command, the illegal word and the end of BUSY (spec/44_control.md R270 to R274): how a command that computes nothing
completes, and that neither the host nor a hidden step takes the engine out of BUSY. -/

namespace Sys2Proof.Machine

/-! ### Commands that only complete -/

theorem exec_nop_busy (s : State) (sn : Snap) (w : Option Work) (he : s.engine = .busy sn w) :
    exec .nop s = .next (complete .none s) := by
  simp only [exec, execNop, he]

theorem exec_illegal_busy (word : Word) (s : State) (sn : Snap) (w : Option Work) (he : s.engine = .busy sn w) :
    exec (.illegal word) s = .next (complete .illegalOp s) := by
  simp only [exec, execIllegal, he, raise]

/-- With OVF and HAZ clear, STATUS after a completion holds DONE and the code alone (spec/10_state.md R36). -/
theorem statusWord_complete_toNat (e : ErrCode) (s : State) (hovf : s.status.ovf = false) (hhaz : s.status.haz = false) :
    (statusWord (complete e s)).toNat = 2 + 16 * (errNumber e).toNat := by
  simp [statusWord_toNat, hovf, hhaz]

/-- Settles O7: NOP only completes. -/
theorem nopCompletes : Obligations.NopCompletes := by
  intro s sn w he
  refine ⟨rfl, complete .none s, exec_nop_busy s sn w he, rfl, by simp [State.irq], fun hovf hhaz => ?_⟩
  exact BitVec.eq_of_toNat_eq (statusWord_complete_toNat .none s hovf hhaz)

/-- Settles O8: an illegal word only completes, and a CMD write starts it as any other word. -/
theorem illegalWordCompletes : Obligations.IllegalWordCompletes := by
  refine ⟨?_, ?_, (decodeCommand_eq_illegal_iff _).mpr (by decide), (decodeCommand_eq_illegal_iff _).mpr (by decide)⟩
  · intro s sn w word he
    refine ⟨complete .illegalOp s, exec_illegal_busy word s sn w he, rfl, fun hovf hhaz => ?_⟩
    exact BitVec.eq_of_toNat_eq (statusWord_complete_toNat .illegalOp s hovf hhaz)
  · intro s word he hill
    rw [hostAccess_write_idle s .cmd word (startCommand word s) he rfl]
    refine ⟨rfl, rfl, ?_⟩
    rw [completionStep_busy _ (captureSnap word s) none rfl, ← hill]
    rfl

/-! ### Host accesses while BUSY -/

theorem busy_congr {s t : State} (h : t.engine = s.engine) : busy t = busy s := by
  simp only [busy, h]

/-- While BUSY no register write is a command start or reaches the engine (spec/10_state.md R55). -/
theorem regWrite_engine (s : State) (v : Word) (r : Reg) (hb : busy s = true) : (regWrite s v r).engine = s.engine := by
  have hignored (taken : State) : (whileIdle s taken).engine = s.engine := by simp [whileIdle, hb]
  cases r with
  | id | inCap | outCap | outLen | consumed | result => rfl
  | status => exact writeStatus_engine v s
  | config | cmd | width | pixX | inOff | inLen | outPtr => exact hignored _

theorem writeValue_engine (s : State) (region : Region) (n : Nat) (v : Word) (hb : busy s = true) :
    (writeValue s region n v).engine = s.engine := by
  cases region with
  | register off =>
    simp only [writeValue]
    split
    · exact regWrite_engine s v _ hb
    · rfl
  | buffer buf off => simp [writeValue, hb, collide]
  | hole => rfl

theorem windowAccess_engine (s : State) (off : Nat) (width : Width) (op : BusOp) (hb : busy s = true) :
    (windowAccess s off width op).engine = s.engine := by
  simp only [windowAccess]
  split
  · cases op with
    | read => rfl
    | write v => exact writeValue_engine s _ _ v hb
  · rfl

/-- No host access ends a command in flight (spec/44_control.md R274). -/
theorem hostAccess_engine (a : Access) (s : State) (hb : busy s = true) : (hostAccess a s).engine = s.engine := by
  rw [hostAccess]
  split
  · exact windowAccess_engine s _ _ _ hb
  · rfl

/-- Settles O42, turn by turn: a host access and a hidden step leave the machine BUSY. -/
theorem busyEndsOnlyByCompletionOrReset : Obligations.BusyEndsOnlyByCompletionOrReset := by
  intro s t hb ht hidle
  obtain ⟨-, ⟨hs, -⟩ | ⟨e, rest, hs, hr⟩⟩ := step_next_cases s t ht
  · exact .inl hs
  · have hended : busy t ≠ busy { s with schedule := rest } := by
      rw [hidle]
      exact fun h => Bool.false_ne_true (h.trans hb)
    cases e with
    | complete => exact .inr (.inl ⟨rest, hs⟩)
    | reset => exact .inr (.inr ⟨rest, hs⟩)
    | host a =>
      cases hr
      exact absurd (busy_congr (hostAccess_engine a { s with schedule := rest } hb)) hended
    | work =>
      obtain ⟨-, hbusy, -⟩ := hiddenStepIsInvisible _ t hr
      exact absurd hbusy hended

end Sys2Proof.Machine
end

section
/-! How a command ends (spec/60_exceptions.md R282, R283): BAD_RANGE where one of its range checks fails, and otherwise one code that
the command, its slice and its working state fix. -/

namespace Sys2Proof.Machine

/-! ### The code of a command whose range checks pass -/

/-- The outcome code of a command whose range checks pass (spec/60_exceptions.md R282): only an illegal word and the row decoder have
one that is not NONE. -/
def passedCode (sn : Snap) (w : Option Work) (s : State) : Instr → ErrCode
  | .decRow => (decodeOutput sn (inputSlice sn s) (workOf sn w)).err
  | .illegal _ => .illegalOp
  | _ => .none

/-- A row decoder whose working state is in order ends with a code of its own (spec/60_exceptions.md R282). -/
theorem passedCode_decRow_ne (sn : Snap) (w : Option Work) (s : State) (hok : Work.Ok sn (workOf sn w)) :
    passedCode sn w s .decRow ≠ .illegalOp ∧ passedCode sn w s .decRow ≠ .badRange := by
  obtain ⟨hx, hp, -⟩ := hok.bounds
  obtain ⟨hillegal, hrange⟩ := hok.stop_ne
  rw [← inputSlice_length sn s] at hp
  obtain ⟨-, hcode⟩ := decodeOutput_ok sn (inputSlice sn s) (workOf sn w) hx hp hillegal hrange
  exact hcode

theorem passedCode_ne_badRange (sn : Snap) (w : Option Work) (s : State) (i : Instr) (hok : Work.Ok sn (workOf sn w)) :
    passedCode sn w s i ≠ .badRange := by
  cases i with
  | decRow => exact (passedCode_decRow_ne sn w s hok).2
  | _ => exact nofun

/-! ### The two ends of a command -/

/-- The command's range checks decide its end: BAD_RANGE with nothing else written, or the code `e` (spec/60_exceptions.md R283). -/
structure EndsByRangeChecks (i : Instr) (sn : Snap) (s : State) (e : ErrCode) : Prop where
  failed : rangeFails i sn s → EndsBadRange i s
  passed : ¬rangeFails i sn s → ∃ t, exec i s = .next t ∧ t.status.err = e

/-- The two codes with which a state answered by such a command can stand. -/
theorem EndsByRangeChecks.err_cases {i : Instr} {sn : Snap} {s t : State} {e : ErrCode} (h : EndsByRangeChecks i sn s e)
    (ht : exec i s = .next t) : (rangeFails i sn s ∧ t.status.err = .badRange) ∨ t.status.err = e := by
  by_cases hr : rangeFails i sn s
  · cases ht.symm.trans (h.failed hr)
    exact .inl ⟨hr, rfl⟩
  · obtain ⟨t', ht', herr⟩ := h.passed hr
    cases ht.symm.trans ht'
    exact .inr herr

/-- A command that neither reads its slice nor writes output has no range check that could fail. -/
theorem not_rangeFails_of_unchecked (i : Instr) (sn : Snap) (s : State) (hread : readsIn i = false)
    (hwrite : writesOut i = false) : ¬rangeFails i sn s := by
  simp [rangeFails, hread, hwrite]

theorem endsByRangeChecks_of_complete (i : Instr) (sn : Snap) (s : State) (e : ErrCode)
    (hexec : exec i s = .next (complete e s)) (hread : readsIn i = false) (hwrite : writesOut i = false) :
    EndsByRangeChecks i sn s e :=
  ⟨fun hr => absurd hr (not_rangeFails_of_unchecked i sn s hread hwrite), fun _ => ⟨_, hexec, rfl⟩⟩

theorem endsByRangeChecks_of_resultCommand (i : Instr) (value : List Byte → Nat → Nat → Word) (s : State) (sn : Snap)
    (w : Option Work) (hexec : exec i s = resultCommand value s) (he : s.engine = .busy sn w) (hread : readsIn i = true)
    (hwrite : writesOut i = false) : EndsByRangeChecks i sn s .none := by
  have hfails : rangeFails i sn s ↔ s.params.inCap < sn.off.toNat + sn.len.toNat := by simp [rangeFails, hread, hwrite]
  constructor <;> rw [hfails]
  · exact fun hr => hexec.trans (resultCommand_badRange value s sn w he hr)
  · intro hr
    rw [hexec, resultCommand_busy value s sn w he, if_pos (Nat.le_of_not_lt hr)]
    exact ⟨_, rfl, rfl⟩

theorem endsByRangeChecks_of_outputCommand (i : Instr) (compute : Snap → List Byte → Work → Output) (s : State) (sn : Snap)
    (w : Option Work) (hexec : exec i s = outputCommand compute s) (he : s.engine = .busy sn w)
    (hread : readsIn i = true) (hwrite : writesOut i = true) :
    EndsByRangeChecks i sn s (compute sn (inputSlice sn s) (workOf sn w)).err := by
  refine ⟨endsBadRange_of_outputCommand i compute s sn w hexec he hread hwrite, fun hr => ?_⟩
  rw [not_rangeFails_iff i sn s hread hwrite] at hr
  rw [hexec, outputCommand_busy compute s sn w he, if_pos hr]
  exact ⟨_, rfl, rfl⟩

theorem endsByRangeChecks_emitEob (s : State) (sn : Snap) (w : Option Work) (he : s.engine = .busy sn w) :
    EndsByRangeChecks .emitEob sn s .none := by
  have hfails : rangeFails .emitEob sn s ↔ s.params.outCap < sn.ptr.toNat := by simp [rangeFails, readsIn, writesOut]
  constructor <;> rw [hfails]
  · intro hr
    rw [EndsBadRange, exec, execEmitEob_busy s sn w he, if_neg (Nat.not_le_of_lt hr)]
    rfl
  · intro hr
    rw [exec, execEmitEob_busy s sn w he, if_pos (Nat.le_of_not_lt hr)]
    exact ⟨_, rfl, rfl⟩

/-- The byte decoder has no code but NONE (spec/43_byte_rle.md R248). -/
theorem brleDecodeOutput_err (sn : Snap) (bytes : List Byte) (wk : Work) : (brleDecodeOutput sn bytes wk).err = .none := by
  rw [brleDecodeOutput]
  split <;> rfl

/-- Every command in flight ends by its range checks, those that have none with their code. -/
theorem exec_endsByRangeChecks (i : Instr) (s : State) (sn : Snap) (w : Option Work) (hi : isCommand i = true)
    (he : s.engine = .busy sn w) : EndsByRangeChecks i sn s (passedCode sn w s i) := by
  cases i with
  | nop => exact endsByRangeChecks_of_complete _ sn s _ (exec_nop_busy s sn w he) rfl rfl
  | illegal word => exact endsByRangeChecks_of_complete _ sn s _ (exec_illegal_busy word s sn w he) rfl rfl
  | getpix | hasrep | scan => exact endsByRangeChecks_of_resultCommand _ _ s sn w rfl he rfl rfl
  | encRow => exact endsByRangeChecks_of_outputCommand .encRow encodeOutput s sn w rfl he rfl rfl
  | decRow => exact endsByRangeChecks_of_outputCommand .decRow decodeOutput s sn w rfl he rfl rfl
  | brleEnc => exact endsByRangeChecks_of_outputCommand .brleEnc brleEncodeOutput s sn w rfl he rfl rfl
  | brleDec =>
    have hends := endsByRangeChecks_of_outputCommand .brleDec brleDecodeOutput s sn w rfl he rfl rfl
    rw [brleDecodeOutput_err] at hends
    exact hends
  | emitEob => exact endsByRangeChecks_emitEob s sn w he
  | run | eol | eob | lit1 | lit | rawLo | rawHi | ctrl | esc => cases hi

/-! ### The statements -/

/-- Settles O17: the range checks decide the end, and no command's own code is BAD_RANGE. -/
theorem badRangeExactlyOnFailedChecks : Obligations.BadRangeExactlyOnFailedChecks := by
  intro i s sn w hi _ he hok
  have hends := exec_endsByRangeChecks i s sn w hi he
  refine ⟨hends.failed, fun hr => ?_⟩
  obtain ⟨t, ht, herr⟩ := hends.passed hr
  exact ⟨t, ht, herr ▸ passedCode_ne_badRange sn w s i hok⟩

/-- Settles O19: a command ends with BAD_RANGE, if it has a range check, or with the code of its passed checks. -/
theorem codesPerCommand : Obligations.CodesPerCommand := by
  intro i s t sn w hi he hok ht
  have hcodes := (exec_endsByRangeChecks i s sn w hi he).err_cases ht
  refine ⟨?_, fun hcommand => ?_, ?_, ?_⟩
  · rintro rfl
    exact hcodes.resolve_left fun ⟨hr, _⟩ => not_rangeFails_of_unchecked .nop sn s rfl rfl hr
  · have hnone : passedCode sn w s i = .none := by
      rcases hcommand with rfl | rfl | rfl | rfl | rfl | rfl | rfl <;> rfl
    exact (hcodes.imp And.right (·.trans hnone)).symm
  · rintro rfl
    rcases hcodes with ⟨-, herr⟩ | herr <;> rw [herr]
    · exact nofun
    · exact (passedCode_decRow_ne sn w s hok).1
  · rintro word rfl
    exact hcodes.resolve_left fun ⟨hr, _⟩ => not_rangeFails_of_unchecked (.illegal word) sn s rfl rfl hr

end Sys2Proof.Machine
end

section
/-! The parameters and reset (spec/70_reset_and_hazards.md R320 to R323, spec/10_state.md R32, R33): no step changes the
parameters, and a reset, in whatever state, leaves every register at its reset value. -/

namespace Sys2Proof.Machine

/-! ### The parameters -/

theorem whileIdle_params (s taken : State) (h : taken.params = s.params) : (whileIdle s taken).params = s.params := by
  rw [whileIdle]
  split
  · rfl
  · exact h

theorem regWrite_params (s : State) (v : Word) (r : Reg) : (regWrite s v r).params = s.params := by
  cases r with
  | id | inCap | outCap | outLen | consumed | result | status => rfl
  | config | cmd | width | pixX | inOff | inLen | outPtr => exact whileIdle_params s _ rfl

theorem writeValue_params (s : State) (region : Region) (n : Nat) (v : Word) :
    (writeValue s region n v).params = s.params := by
  cases region with
  | register off =>
    simp only [writeValue]
    split
    · exact regWrite_params s v _
    · rfl
  | buffer buf off =>
    simp only [writeValue]
    split <;> exact writeBuffer_params s buf off _
  | hole => rfl

theorem windowAccess_params (s : State) (off : Nat) (width : Width) (op : BusOp) :
    (windowAccess s off width op).params = s.params := by
  simp only [windowAccess]
  split
  · cases op with
    | read => rfl
    | write v => exact writeValue_params s _ _ v
  · rfl

theorem hostAccess_params (a : Access) (s : State) : (hostAccess a s).params = s.params := by
  rw [hostAccess]
  split
  · exact windowAccess_params s _ _ _
  · rfl

theorem completionStep_params (s t : State) (ht : completionStep s = .next t) : t.params = s.params := by
  cases he : s.engine with
  | idle =>
    simp only [completionStep, he] at ht
    cases ht
    rfl
  | busy sn w =>
    rw [completionStep_busy s sn w he] at ht
    obtain ⟨hparams, -⟩ := noInstructionWritesItsInputs _ s t ht
    exact hparams

theorem hiddenStep_params (s t : State) (ht : hiddenStep s = .next t) : t.params = s.params := by
  obtain ⟨hsame, -⟩ := hiddenStepIsInvisible s t ht
  rw [hsame]

theorem runEvent_params (s t : State) (e : Event) (ht : runEvent s e = .next t) : t.params = s.params := by
  cases e with
  | host a => cases ht; exact hostAccess_params a s
  | work => exact hiddenStep_params s t ht
  | complete => exact completionStep_params s t ht
  | reset => cases ht; exact applyReset_params s

/-- Every step that answers a state keeps the parameters (spec/70_reset_and_hazards.md R323). -/
theorem step_params (s t : State) (ht : step s = .next t) : t.params = s.params := by
  obtain ⟨-, ⟨-, hc⟩ | ⟨e, rest, -, hr⟩⟩ := step_next_cases s t ht
  · exact completionStep_params s t hc
  · exact runEvent_params { s with schedule := rest } t e hr

/-- Settles O43: ID is a constant, and INCAP and OUTCAP read the parameters, which stay. -/
theorem constantsStayConstant : Obligations.ConstantsStayConstant := by
  intro s t ht
  have hparams := step_params s t ht
  exact ⟨hparams, rfl, by simp only [regRead, hparams], by simp only [regRead, hparams]⟩

/-! ### Reset -/

/-- No register shows what a reset keeps of the model's own fields. -/
theorem regRead_applyReset (s : State) (r : Reg) : regRead (applyReset s) r = regRead (State.resetWith s.params) r := by
  cases r <;> rfl

/-- Settles O56: a machine that has not stopped takes the reset's turn. -/
theorem resetStep : Obligations.ResetStep := by
  intro s rest hb hs
  refine ⟨applyReset { s with schedule := rest }, step_of_schedule_cons s .reset rest hb hs, rfl, rfl, rfl, rfl, ?_⟩
  exact regRead_applyReset { s with schedule := rest }

end Sys2Proof.Machine
end

section
/-! The host's buffer accesses while a command is in flight (spec/70_reset_and_hazards.md R330, R331): a write collides with the
engine, a read does not. -/

namespace Sys2Proof.Machine

/-- The bytes of the window that belong to a buffer (spec/20_memory.md R71). -/
theorem exists_buffer_at (p : Params) (off : Nat) (hp : p.Valid)
    (h : (0x10000 ≤ off ∧ off < 0x10000 + p.inCap) ∨ (0x20000 ≤ off ∧ off < 0x20000 + p.outCap)) :
    off < 0x40000 ∧ ∃ buf o, regionAt p off = .buffer buf o := by
  obtain ⟨-, -, -, hinCap, -, -, houtCap⟩ := hp
  unfold regionAt inBufStart outBufStart
  rcases h with hin | hout
  · exact ⟨by omega, .inBuf, off - 0x10000, by rw [if_neg (by omega), if_pos hin]⟩
  · exact ⟨by omega, .outBuf, off - 0x20000, by rw [if_neg (by omega), if_neg (by omega), if_pos hout]⟩

theorem supported_buffer (buf : Buffer) (o off n : Nat) (width : Width) (hw : widthBytes width = some n)
    (halign : off % n = 0) : supported (.buffer buf o) width off = true := by simp [supported, hw, halign]

/-- While BUSY a supported write to a buffer is a collision (spec/70_reset_and_hazards.md R330). -/
theorem hostAccess_buffer_write_busy (s : State) (off n : Nat) (width : Width) (v : Word) (hp : s.params.Valid)
    (hb : busy s = true) (hw : widthBytes width = some n) (halign : off % n = 0)
    (h : (0x10000 ≤ off ∧ off < 0x10000 + s.params.inCap) ∨ (0x20000 ≤ off ∧ off < 0x20000 + s.params.outCap)) :
    ∃ buf o, hostAccess ⟨s.params.base + off, width, .write v⟩ s = { collide s buf o n with resp := .written } := by
  obtain ⟨hoff, buf, o, hr⟩ := exists_buffer_at s.params off hp h
  obtain ⟨-, hwrite⟩ := hostAccess_supported s off n width _ hoff hw hr (supported_buffer buf o off n width hw halign)
  refine ⟨buf, o, ?_⟩
  rw [hwrite v]
  simp only [writeValue, hb, if_true]

/-- Settles O54: the collision sets HAZ and its mark, which stops the next step, and keeps the engine. -/
theorem bufferWriteWhileBusyIsAFault : Obligations.BufferWriteWhileBusyIsAFault := by
  intro s sn w off n width v hp he hw halign hplace
  have hb := busy_of_engine s sn w he
  have hengine := hostAccess_engine ⟨s.params.base + off, width, .write v⟩ s hb
  obtain ⟨buf, o, hwrite⟩ := hostAccess_buffer_write_busy s off n width v hp hb hw halign hplace
  have hmark : (hostAccess ⟨s.params.base + off, width, .write v⟩ s).faults.busyWrite = true := by rw [hwrite]; rfl
  exact ⟨by rw [hwrite]; rfl, hmark, hengine, if_pos hmark⟩

/-- Settles O55: a supported read answers the value of its place, and at most draws free bytes. -/
theorem bufferReadsWhileBusy : Obligations.BufferReadsWhileBusy := by
  intro s sn w off n width hp he hw halign
  obtain ⟨hin, hout⟩ := regionAt_buffer s.params off n width hp hw halign
  obtain ⟨-, -, -, hinCap, -, -, houtCap⟩ := hp
  constructor
  · intro hlt
    obtain ⟨hr, hs⟩ := hin hlt
    obtain ⟨hread, -⟩ := hostAccess_supported s _ n width _ (by omega) hw hr hs
    rw [Nat.add_assoc]
    exact hread
  · intro hlt
    obtain ⟨hr, hs⟩ := hout hlt
    obtain ⟨hread, -⟩ := hostAccess_supported s _ n width _ (by omega) hw hr hs
    rw [Nat.add_assoc]
    exact ⟨_, _, hread⟩

end Sys2Proof.Machine
end

section
/-! The first command after reset (spec/70_reset_and_hazards.md R324): every operand is 0, so the slice is empty, both range checks
pass, and what a command computes is a closed fact. -/

namespace Sys2Proof.Machine

/-! ### Outputs that fit -/

/-- An output that fits from offset 0 on is written whole (spec/20_memory.md R80). -/
theorem WritesOutput.whole {bytes : List Byte} {s t : State} (h : WritesOutput 0 bytes s t)
    (hfit : bytes.length ≤ s.params.outCap) :
    t.outLen = BitVec.ofNat 32 bytes.length ∧ t.outPtr = BitVec.ofNat 32 bytes.length ∧ t.status.ovf = false ∧
      ∀ i, i < bytes.length → Memory.get? t.outBuf i = bytes[i]? := by
  obtain ⟨hlen, hptr, hovf, hbytes, -⟩ := h
  simp only [Nat.sub_zero, Nat.zero_add, Nat.min_eq_left hfit] at hlen hptr hovf hbytes
  refine ⟨?_, ?_, ?_, hbytes⟩
  · rw [← hlen, BitVec.ofNat_toNat, BitVec.setWidth_eq]
  · rw [← hptr, BitVec.ofNat_toNat, BitVec.setWidth_eq]
  · rw [← Bool.not_eq_true, hovf]
    exact Nat.not_lt_of_le hfit

theorem Memory.eq_nil_of_get?_eq_none (m : Memory) (h : ∀ a, Memory.get? m a = none) : m = [] := by
  cases m with
  | nil => rfl
  | cons c m =>
    have hc := h c.1
    simp at hc

/-- An empty output leaves OUT_BUF without a written byte. -/
theorem WritesOutput.outBuf_eq_nil {ptr : Nat} {s t : State} (h : WritesOutput ptr [] s t) (hs : s.outBuf = []) :
    t.outBuf = [] := by
  obtain ⟨-, -, -, -, hframe⟩ := h
  refine Memory.eq_nil_of_get?_eq_none _ fun a => ?_
  rw [hframe a (by simp), hs, Memory.get?_nil]

/-- STATUS after a completion without OVF or a hazard: DONE and the code (spec/10_state.md R36). -/
theorem Completes.statusWord_toNat {e : ErrCode} {s t : State} (h : Completes e s t) (hovf : t.status.ovf = false)
    (hhaz : s.status.haz = false) : (statusWord t).toNat = 2 + 16 * (errNumber e).toNat := by
  obtain ⟨hidle, hdone, herr, hkept⟩ := h
  simp [Machine.statusWord_toNat, busy_idle t hidle, hdone, hovf, hkept, hhaz, herr]

/-! ### The commands -/

/-- The machine right after reset and the start of its first command. -/
abbrev firstCommand (p : Params) (op : Word) : State := startCommand op (State.resetWith p)

/-- The operands that the first command captures: all 0. -/
abbrev firstSnap (p : Params) (op : Word) : Snap := captureSnap op (State.resetWith p)

theorem completionStep_firstCommand (p : Params) (op : Word) :
    completionStep (firstCommand p op) = exec (decodeCommand op) (firstCommand p op) :=
  completionStep_busy _ (firstSnap p op) none rfl

/-- A first result command: the value is that of the empty slice with W and X 0. -/
theorem resultCommand_firstCommand (value : List Byte → Nat → Nat → Word) (p : Params) (op : Word)
    (hvalue : value [] 0 0 = 0#32) :
    ∃ t, resultCommand value (firstCommand p op) = .next t ∧ t.result = 0#32 ∧ statusWord t = 0x02#32 := by
  have hin : (firstSnap p op).off.toNat + (firstSnap p op).len.toNat ≤ (firstCommand p op).params.inCap := Nat.zero_le _
  rw [resultCommand_busy value _ (firstSnap p op) none rfl, if_pos hin]
  refine ⟨_, rfl, hvalue, BitVec.eq_of_toNat_eq ?_⟩
  exact statusWord_complete_toNat .none _ rfl rfl

/-- A first output command: the output is that of the empty slice, written whole where it fits, and no slice byte is unwritten. -/
theorem outputCommand_firstCommand (compute : Snap → List Byte → Work → Output) (p : Params) (op : Word) (o : Output)
    (hp : p.Valid) (ho : compute (firstSnap p op) [] (beginWork (firstSnap p op)) = o) :
    ∃ t, outputCommand compute (firstCommand p op) = .next t ∧ WritesOutput 0 o.bytes (firstCommand p op) t ∧
      Completes o.err (firstCommand p op) t ∧
      (∀ n, o.consumed = some n → t.consumed = BitVec.ofNat 32 n) ∧ t.faults.unwrittenSlice = false := by
  obtain ⟨t, ht, hwrites, hcompletes, -, -, hconsumed, hmarks⟩ :=
    outputCommand_in_range compute (firstCommand p op) (firstSnap p op) none o hp rfl ho
      ⟨Nat.zero_le _, Nat.zero_le _⟩
  exact ⟨t, ht, hwrites, hcompletes, fun n hn => by rw [hconsumed, hn], hmarks⟩

/-- The row of width 0 is its End-of-line marker (spec/41_row_encoder.md R171). -/
theorem encRow_firstCommand (p : Params) (hp : p.Valid) :
    ∃ t, completionStep (firstCommand p 0x4#32) = .next t ∧
      Memory.get? t.outBuf 0 = some 0x00#8 ∧ Memory.get? t.outBuf 1 = some 0x00#8 ∧ t.outLen = 2#32 ∧
      t.outPtr = 2#32 ∧ statusWord t = 0x02#32 ∧ t.faults.unwrittenSlice = false := by
  obtain ⟨t, ht, hwrites, hcompletes, -, hmark⟩ :=
    outputCommand_firstCommand encodeOutput p 0x4#32 ⟨eolBytes, none, .none⟩ hp 
      (encodeOutput_beginWork _ [] (rfl : decodeCommand 0x4#32 = .encRow))
  obtain ⟨-, -, -, -, -, hcap, -⟩ := hp
  obtain ⟨hlen, hptr, hovf, hbytes⟩ := hwrites.whole (show 2 ≤ p.outCap by omega)
  have hstatus := hcompletes.statusWord_toNat hovf rfl
  exact ⟨t, (completionStep_firstCommand p _).trans ht, hbytes 0 Nat.two_pos, hbytes 1 Nat.one_lt_two, hlen, hptr,
    BitVec.eq_of_toNat_eq hstatus, hmark⟩

/-- An empty slice ends the row decoder before its first record (spec/42_row_decoder.md R210). -/
theorem decodeRow_nil_zero : decodeRow [] 0 = ([], .decTruncated, 0) := by decide

theorem decodeOutput_firstCommand (p : Params) :
    decodeOutput (firstSnap p 0x5#32) [] (beginWork (firstSnap p 0x5#32)) = ⟨[], some 0, .decTruncated⟩ := by
  have hw : (firstSnap p 0x5#32).w.toNat = 0 := rfl
  rw [decodeOutput_beginWork _ [] (rfl : decodeCommand 0x5#32 = .decRow), hw, decodeRow_nil_zero]

theorem decRow_firstCommand (p : Params) (hp : p.Valid) :
    ∃ t, completionStep (firstCommand p 0x5#32) = .next t ∧
      t.status.err = .decTruncated ∧ t.consumed = 0#32 ∧ t.outLen = 0#32 := by
  obtain ⟨t, ht, hwrites, ⟨-, -, herr, -⟩, hconsumed, -⟩ :=
    outputCommand_firstCommand decodeOutput p 0x5#32 ⟨[], some 0, .decTruncated⟩ hp (decodeOutput_firstCommand p)
  obtain ⟨hlen, -⟩ := hwrites.whole (Nat.zero_le _)
  exact ⟨t, (completionStep_firstCommand p _).trans ht, herr, hconsumed 0 rfl, hlen⟩

/-- The byte codec makes nothing of an empty slice. -/
theorem brle_firstCommand (p : Params) (hp : p.Valid) (op : Word) (hop : op = 0x7#32 ∨ op = 0x8#32) :
    ∃ t, completionStep (firstCommand p op) = .next t ∧ t.outLen = 0#32 ∧ t.consumed = 0#32 ∧ t.outBuf = [] := by
  have hempty : ∃ compute : Snap → List Byte → Work → Output,
      exec (decodeCommand op) (firstCommand p op) = outputCommand compute (firstCommand p op) ∧
        compute (firstSnap p op) [] (beginWork (firstSnap p op)) = ⟨[], some 0, .none⟩ := by
    rcases hop with rfl | rfl
    · exact ⟨brleEncodeOutput, rfl, brleEncodeOutput_beginWork _ [] (rfl : decodeCommand 0x7#32 = .brleEnc)⟩
    · exact ⟨brleDecodeOutput, rfl, brleDecodeOutput_beginWork _ [] (rfl : decodeCommand 0x8#32 = .brleDec)⟩
  obtain ⟨compute, hexec, ho⟩ := hempty
  obtain ⟨t, ht, hwrites, -, hconsumed, -⟩ := outputCommand_firstCommand compute p op _ hp ho
  obtain ⟨hlen, -⟩ := hwrites.whole (Nat.zero_le _)
  exact ⟨t, (completionStep_firstCommand p op).trans (hexec.trans ht), hlen, hconsumed 0 rfl, hwrites.outBuf_eq_nil rfl⟩

/-- The pixel commands read no pixel and no segment. -/
theorem result_firstCommand (p : Params) (op : Word) (hop : op = 0x1#32 ∨ op = 0x2#32 ∨ op = 0x3#32) :
    ∃ t, completionStep (firstCommand p op) = .next t ∧ t.result = 0#32 ∧ statusWord t = 0x02#32 := by
  rw [completionStep_firstCommand]
  rcases hop with rfl | rfl | rfl
  · exact resultCommand_firstCommand getpixResult p _ rfl
  · exact resultCommand_firstCommand hasrepResult p _ rfl
  · exact resultCommand_firstCommand scanResult p _ rfl

/-- Every legal OUT_BUF has room for the whole marker. -/
theorem emitEob_firstCommand (p : Params) (hp : p.Valid) :
    ∃ t, completionStep (firstCommand p 0x6#32) = .next t ∧
      Memory.get? t.outBuf 0 = some 0x00#8 ∧ Memory.get? t.outBuf 1 = some 0x01#8 ∧ t.outPtr = 2#32 := by
  obtain ⟨-, -, hcompletes⟩ := emitEobCompletes (firstCommand p 0x6#32) (firstSnap p 0x6#32) none hp rfl
  obtain ⟨t, ht, hwrites, -⟩ := hcompletes (Nat.zero_le _)
  obtain ⟨-, -, -, -, -, hcap, -⟩ := hp
  obtain ⟨-, hptr, -, hbytes⟩ := WritesOutput.whole hwrites (show 2 ≤ p.outCap by omega)
  exact ⟨t, (completionStep_firstCommand p _).trans ht, hbytes 0 Nat.two_pos, hbytes 1 Nat.one_lt_two, hptr⟩

/-- Settles O58, command by command. -/
theorem firstCommandAfterReset : Obligations.FirstCommandAfterReset := by
  intro p hp
  exact ⟨encRow_firstCommand p hp, decRow_firstCommand p hp, brle_firstCommand p hp, result_firstCommand p,
    emitEob_firstCommand p hp, rfl⟩

end Sys2Proof.Machine
end
